-- ==== Sys2Proof/Word.lean ====
section
/-! DEFINITION. Words and samples (spec/00_scope.md R10): the one width the FDIU moves. -/

namespace Sys2Proof

/-- A word is 32 bits, bit 31 the most significant (R10). -/
abbrev Word := BitVec 32

/-- A sample (type `S` of R9) is held as the word that encodes it: `bits` and `f32` of R10 are the identity here. -/
abbrev Sample := Word

end Sys2Proof
end

