-- ==== Sys2Proof/Config.lean ====
section
/-! DEFINITION. The implementation parameters of spec/00_scope.md R6, R7, R8, and the free values. A free value is an
`opaque` constant without a body: a claim holds whatever it is. -/

namespace Sys2Proof.Config

/-! ## Structural parameters (R6) -/

/-- `NPLAIN`: Delay Buffers owned by no stage (R6). -/
abbrev nPlain : Nat := 1
/-- `NAP`: Allpass Stages (R6). -/
abbrev nAp : Nat := 4
/-- `NCOMB`: Comb Stages (R6). -/
abbrev nComb : Nat := 8
/-- `NTAPE`: tape channels (R6). -/
abbrev nTape : Nat := 2
/-- `NBUF`: Delay Buffers in all (R6). -/
abbrev nBuf : Nat := 15
/-- The largest `U20` (R20), the largest 20-bit delay (R92). -/
abbrev u20Max : Nat := 1048575

/-! ## Numeric parameters (R7), as binary32 words -/

/-- `AP_GAIN`, 0.7 rounded (R7, R36). Taken at the spec's value (entry 14). -/
def apGain : Sample := 0x3F333333#32
/-- `FB_MAX` = 63/64 (R7). -/
def fbMax : Sample := 0x3F7C0000#32
/-- `POLE_MAX` = 63/64 (R7). -/
def poleMax : Sample := 0x3F7C0000#32
/-- `DRIVE_MIN` = 0.0625 (R7). -/
def driveMin : Sample := 0x3D800000#32
/-- `DRIVE_MAX` = 16.0 (R7). -/
def driveMax : Sample := 0x41800000#32
/-- `DLY_MAX` = 1048575.0 (R7). -/
def dlyMax : Sample := 0x497FFFF0#32
/-- `TWO_PI` (R7). -/
def twoPi : Sample := 0x40C90FDB#32
/-- `PI` (R7). -/
def pi : Sample := 0x40490FDB#32
/-- `ID` (R31), the ASCII codes of "FDIU". -/
def idWord : Word := 0x46444955#32
/-- `CONFIG` (R32): the fields `NBUF`, `NAP`, `NCOMB`, `NTAPE`, `NPLAIN` from bit 0 up. -/
def configWord : Word :=
  BitVec.ofNat 32 (nBuf + nAp * 2 ^ 8 + nComb * 2 ^ 12 + nTape * 2 ^ 16 + nPlain * 2 ^ 20)

/-! ## Parameters the spec leaves OPEN (92_eei_decisions.md) -/

/-- Which function stands for a configuration function of R8: the spec's default one, or one of which nothing is known
but the properties the spec names. -/
inductive Choice where
  | byDefault
  | unspecified
  deriving DecidableEq, Repr

/-- The open parameters of one FDIU: fixed for the life of the hardware, written by no command. `State` carries them as
plain data, so that a statement about all states is a statement about every implementation (entries 3, 4, 6). -/
structure Implementation where
  /-- `PHYSCAP[b]` (R6), admissible in `[1, 1048575]`. -/
  physCap : Vector Nat 15
  /-- Which `SIN` (R161). -/
  sine : Choice
  /-- Which `SATFN` (R170). -/
  sat : Choice
  deriving DecidableEq, Repr

/-! ## Free values -/

/-- The bits from which the `n`-th drawn NaN takes its sign and payload (R9, R75(d), V1; entry 8). -/
opaque freeNaN : Nat → Word
/-- An unknown function, from which the unspecified `SIN` is made (R161; entry 4). -/
opaque freeSine : Sample → Sample
/-- An unknown function of which nothing is known but the property `P`: the unspecified `SATFN`, `P` being the contract of
R170 (entry 6). -/
opaque freeSat (P : (Sample → Sample → Sample) → Prop) [Inhabited { f // P f }] : { f // P f }
/-- How many units in the last place beyond one the own rounding of the unspecified `SATFN` may amount to, a number R170
does not give (P2; entry 6). -/
opaque freeSatRounding : Nat
/-- Whether port P goes first in the arbitration numbered `n`, where the schedule of `State` is used up (R71, V3;
entry 10). -/
opaque freeGrant : Nat → Bool

end Sys2Proof.Config
end

