-- ==== Sys2Proof/Machine/State.lean ====
section
/-! DEFINITION. The state of the FDIU as plain data (spec/10_state.md R20), with the transaction interface of
spec/00_scope.md R15 and the model's own fields (INVENTORY.md, State), and the state after reset (R50, R240). -/

namespace Sys2Proof.Machine

open Sys2Proof

/-- The sample memory of one Delay Buffer: (cell index, sample) pairs in the canonical form `Mem.wf` of Ops.lean. The
FDIU's smallest unit is a whole sample and no byte order exists (R60, R63; entry 1). -/
abbrev Mem := List (Nat × Sample)

/-- Delay Buffer `b` (R40): its cells, `SIZE[b]` and `CUR[b]`. -/
structure Buffer where
  mem : Mem
  size : Nat
  cur : Nat
  deriving DecidableEq, Repr

/-- The `RW` registers (R24, R30, R193): the configuration a parameter write changes. -/
structure Params where
  apDelay : Vector Nat 4
  combDelay : Vector Nat 8
  combFb : Vector Sample 8
  combDamp : Vector Sample 8
  tapeBase : Sample
  flutDepth : Sample
  flutInc : Sample
  tapeTone : Sample
  tapeFb : Sample
  tapeDrive : Sample
  deriving DecidableEq, Repr

/-- The filter and oscillator state registers (R26): `COMB_LAST`, `TONE_STATE`, `FLUT_PHASE`, `MODDLY`. -/
structure Filters where
  combLast : Vector Sample 8
  toneState : Vector Sample 2
  flutPhase : Sample
  modDly : Sample
  deriving DecidableEq, Repr

/-- The fault record (R33, R34). -/
structure FaultRecord where
  status : Word
  fcmd : Word
  fdata : Word
  deriving DecidableEq, Repr

/-- The two ports (R14, R221): `C` the audio thread's, `P` the control thread's. -/
inductive Port where
  | C
  | P
  deriving DecidableEq, Repr

/-- The status `ST` of a response (R15). -/
inductive RespStatus where
  | ok
  | fault
  | refused
  | denied
  deriving DecidableEq, Repr

/-- The 2-bit code of a response status (R15). -/
def RespStatus.code : RespStatus → BitVec 2
  | .ok => 0#2
  | .fault => 1#2
  | .refused => 2#2
  | .denied => 3#2

/-- A response `(ST, Q)` (R15). -/
structure Response where
  st : RespStatus
  q : Word
  deriving DecidableEq, Repr

/-- A request `(W, D)` as a port presents it (R15). -/
structure Presented where
  word : Word
  data : Word
  deriving DecidableEq, Repr

/-- One port: the requests presented and not yet answered, and the responses given, both oldest first (R14, R16). -/
structure PortQueue where
  pending : List Presented
  answered : List Response
  deriving DecidableEq, Repr

/-- The request the sequencer is executing: `(pt, W, D)` of R223. -/
structure Request where
  port : Port
  word : Word
  data : Word
  deriving DecidableEq, Repr

/-- The whole state. R20's elements are `bufs`, `params`, `filters`, `dout` and `record`; `impl` holds the parameters
the spec leaves open (entry 3); the rest is the transaction interface (R15) and the model's own (entries 8 to 13). -/
structure State where
  impl : Config.Implementation
  bufs : Vector Buffer 15
  params : Params
  filters : Filters
  dout : Word
  record : FaultRecord
  portC : PortQueue
  portP : PortQueue
  req : Request
  sched : List Port
  draws : Nat
  resetLine : Bool
  deriving DecidableEq, Repr

/-- The reasons for which the model itself would stop. There is none: the FDIU answers every request, and the spec's
faults are next states with a fault record and a response (R215, R216; entry 17). -/
inductive Fault where
  deriving DecidableEq, Repr

/-- The refusals of the model. -/
inductive Refusal where
  /-- An instruction without a meaning, raised by a refused arm of `exec`. Safe: nothing is said of it. No arm of
  this model raises it. -/
  | notModelled (mnemonic : String)
  deriving DecidableEq, Repr

/-- An unsized buffer (R40, R50); its cells read `+0.0` (R51; entry 2). -/
def Buffer.reset : Buffer := { mem := [], size := 0, cur := 0 }

/-- The `RW` registers after hardware reset (R50). -/
def Params.reset : Params where
  apDelay := Vector.replicate 4 0
  combDelay := Vector.replicate 8 0
  combFb := Vector.replicate 8 0#32
  combDamp := Vector.replicate 8 0#32
  tapeBase := 0#32
  flutDepth := 0#32
  flutInc := 0#32
  tapeTone := 0#32
  tapeFb := 0#32
  tapeDrive := 0x3F800000#32

/-- The filter and oscillator state after hardware reset (R50). -/
def Filters.reset : Filters where
  combLast := Vector.replicate 8 0#32
  toneState := Vector.replicate 2 0#32
  flutPhase := 0#32
  modDly := 0#32

/-- The fault record after hardware reset (R33, R34, R50). -/
def FaultRecord.reset : FaultRecord := { status := 0#32, fcmd := 0#32, fdata := 0#32 }

/-- The machine right after hardware reset (R50, R240). `impl`, `req`, `sched`, `draws` and `resetLine` are not the
spec's: their values here are DESIGN CHOICES of entries 3, 4, 6, 8, 10, 11, 13. -/
def State.reset : State where
  impl :=
    { physCap := Vector.replicate 15 Config.u20Max, sine := .byDefault, sat := .byDefault }
  bufs := Vector.replicate 15 Buffer.reset
  params := Params.reset
  filters := Filters.reset
  dout := 0#32
  record := FaultRecord.reset
  portC := { pending := [], answered := [] }
  portP := { pending := [], answered := [] }
  req := { port := .C, word := 0#32, data := 0#32 }
  sched := []
  draws := 0
  resetLine := false

end Sys2Proof.Machine
end

