-- ==== Sys2Proof/Machine/Flags.lean ====
section
/-! DEFINITION. The FDIU has no condition codes (spec/10_state.md R23). Its one flag is `STATUS.FAULT`, with the field
`STATUS.CAUSE` and the fault record (R33, R34); the six causes are those of spec/60_exceptions.md R210. -/

namespace Sys2Proof.Machine

open Sys2Proof

/-- The six fault causes (R210). -/
inductive Cause where
  /-- R211: the word matches no row of R96. -/
  | illegalCmd
  /-- R212: `idx` at or above the count of its kind. -/
  | badIndex
  /-- R218: an unmapped register address, or a write to an `RO` register. -/
  | badReg
  /-- R220: `SETSIZE` with a size of 0 or above `PHYSCAP[b]`. -/
  | sizeRange
  /-- R213: the command's buffer is unsized. -/
  | notPrepared
  /-- R214: the delay is outside the buffer's legal range. -/
  | delayRange
  deriving DecidableEq, Repr

/-- The code that `STATUS.CAUSE` records (R210). -/
def Cause.code : Cause → Nat
  | .illegalCmd => 1
  | .badIndex => 2
  | .badReg => 3
  | .sizeRange => 4
  | .notPrepared => 5
  | .delayRange => 6

/-- `(cause << 8) | 1` (R33, R215). -/
def Cause.statusWord (c : Cause) : Word := BitVec.ofNat 32 (c.code * 2 ^ 8 + 1)

/-- `STATUS.FAULT`, bit 0 of `STATUS` (R33). -/
def State.faulted (s : State) : Bool := s.record.status.getLsbD 0

/-- `STATUS.CAUSE`, bits 11:8 of `STATUS` (R33). -/
def State.cause (s : State) : Nat := (s.record.status.extractLsb' 8 4).toNat

/-- The fault record after a fault with cause `c`: the first fault is recorded with its request, a later one changes
nothing (R215(b)). -/
def State.recordFault (c : Cause) (s : State) : State :=
  if s.faulted then s
  else { s with record := { status := c.statusWord, fcmd := s.req.word, fdata := s.req.data } }

/-- The first check that fails, in the order given (R223 phase 3, R224). -/
def firstFailing : List (Bool × Cause) → Option Cause
  | [] => none
  | (failed, c) :: rest => if failed then some c else firstFailing rest

end Sys2Proof.Machine
end

