-- ==== Sys2Proof/Machine/Float.lean ====
section
/-! DEFINITION. The number system `NUM` (spec/00_scope.md R9, R12, R13; spec/20_memory.md R75): IEEE 754 binary32, round
to nearest, ties to even, one rounding an operation. A finite sample is an integer multiple of 2^-149; the exact results
are formed in `Int` and `Nat` in that unit and rounded once. The argument `q` of an operation numbers the free NaN it
answers with where its result is a NaN (entry 8). -/

namespace Sys2Proof.Machine.F32

open Sys2Proof

/-- The exponent field, bits 30:23 (R10). -/
def expo (a : Sample) : Nat := a.toNat / 2 ^ 23 % 2 ^ 8

/-- The fraction field, bits 22:0 (R10). -/
def frac (a : Sample) : Nat := a.toNat % 2 ^ 23

/-- The sign bit is set (R10). -/
def neg (a : Sample) : Bool := decide (2 ^ 31 ≤ a.toNat)

/-- Bits 30:0, which order the magnitudes. -/
def magBits (a : Sample) : Nat := a.toNat % 2 ^ 31

/-- `isNaN` of R12. -/
def isNaN (a : Sample) : Bool := expo a == 255 && frac a != 0

/-- An infinity. -/
def isInf (a : Sample) : Bool := expo a == 255 && frac a == 0

/-- A zero of either sign. -/
def isZero (a : Sample) : Bool := magBits a == 0

/-- Neither an infinity nor a NaN. -/
def isFinite (a : Sample) : Bool := expo a != 255

/-- The magnitude of a sample in units of 2^-149: bias 127, 23 fraction bits, subnormals at exponent field 0 (R75(a)).
An infinity gets the magnitude its bits would have, which lies above every finite one. -/
def mag (a : Sample) : Nat :=
  if expo a = 0 then frac a else (2 ^ 23 + frac a) * 2 ^ (expo a - 1)

/-- The signed value of a sample in units of 2^-149. -/
def val (a : Sample) : Int := if neg a then -(mag a : Int) else (mag a : Int)

/-- The sample with the given sign and bits 30:0. -/
def mk (sign : Bool) (m : Nat) : Sample := BitVec.ofNat 32 ((if sign then 2 ^ 31 else 0) + m)

/-- Bits 30:0 of `+infinity`. -/
def infBits : Nat := 0x7F800000

/-- The `q`-th free NaN: some sign and some nonzero payload, of which nothing is known (R9, R75(d); entry 8). -/
def nan (q : Nat) : Sample :=
  let r := Config.freeNaN q
  mk (neg r) (infBits + (if frac r = 0 then 2 ^ 22 else frac r))

/-- The binade of the quotient `num / den`: the least power of two by which it is divided to fit 24 bits. -/
def roundExp (num den : Nat) : Nat := (num / den).log2 - 23

/-- `num / d` to the nearest integer, ties to even. -/
def nearestEven (num d : Nat) : Nat :=
  if d < 2 * (num % d) ∨ (2 * (num % d) = d ∧ num / d % 2 = 1) then num / d + 1 else num / d

/-- Bits 30:0 of the magnitude `num / den`, in units of 2^-149, rounded once to nearest even; overflow gives the
infinity, underflow is gradual (R75(b)). A carry out of the 24 bits moves into the exponent field by itself. -/
def roundMag (num den : Nat) : Nat :=
  min (roundExp num den * 2 ^ 23 + nearestEven num (den * 2 ^ roundExp num den)) infBits

/-- The rounded sample of a signed exact magnitude `num / den`. -/
def round (sign : Bool) (num den : Nat) : Sample := mk sign (roundMag num den)

/-- `abs(a)` clears the sign (R12). -/
def abs (a : Sample) : Sample := mk false (magBits a)

/-- The sample with the sign bit inverted. -/
def negate (a : Sample) : Sample := mk (!neg a) (magBits a)

/-- `copysign(m, x)`: `m` with the sign bit of `x` (R171). -/
def copysign (m x : Sample) : Sample := mk (neg x) (magBits m)

/-- `a ⊕ b` (R12, R75). An exact zero sum is `+0` unless both operands are `-0`. -/
def add (q : Nat) (a b : Sample) : Sample :=
  if isNaN a || isNaN b then nan q
  else if isInf a then (if isInf b && (neg a != neg b) then nan q else a)
  else if isInf b then b
  else if val a + val b = 0 then mk (neg a && neg b) 0
  else round (decide (val a + val b < 0)) (val a + val b).natAbs 1

/-- `a ⊖ b` (R12, R75): the sum with the second operand's sign inverted. -/
def sub (q : Nat) (a b : Sample) : Sample := add q a (negate b)

/-- `a ⊗ b` (R12, R75). -/
def mul (q : Nat) (a b : Sample) : Sample :=
  if isNaN a || isNaN b then nan q
  else if isInf a || isInf b then
    (if isZero a || isZero b then nan q else mk (neg a != neg b) infBits)
  else round (neg a != neg b) (mag a * mag b) (2 ^ 149)

/-- `a ⊘ b` (R12, R75); a nonzero value over a zero is an infinity (R225(b)). -/
def div (q : Nat) (a b : Sample) : Sample :=
  if isNaN a || isNaN b then nan q
  else if isInf a then (if isInf b then nan q else mk (neg a != neg b) infBits)
  else if isInf b then mk (neg a != neg b) 0
  else if isZero b then (if isZero a then nan q else mk (neg a != neg b) infBits)
  else round (neg a != neg b) (mag a * 2 ^ 149) (mag b)

/-- `a < b` compares values; false with a NaN (R12). -/
def lt (a b : Sample) : Bool := !isNaN a && !isNaN b && decide (val a < val b)

/-- `a <= b` compares values; false with a NaN (R12). -/
def le (a b : Sample) : Bool := !isNaN a && !isNaN b && decide (val a ≤ val b)

/-- `floor(a)` for `0 <= a` (R12). -/
def floor (a : Sample) : Nat := mag a / 2 ^ 149

/-- `toS(n)`, the sample of an integer (R12). -/
def toS (n : Nat) : Sample := round false (n * 2 ^ 149) 1

/-- `1.0` (R12). -/
def one : Sample := 0x3F800000#32

/-- `+0.0` (R12). -/
def zero : Sample := 0#32

/-- `-1.0`, the lower bound of `SIN` (R161). -/
def minusOne : Sample := 0xBF800000#32

/-- `clampS(v, lo, hi)` of R13: a NaN goes to the lower bound. -/
def clampS (v lo hi : Sample) : Sample :=
  if isNaN v || lt v lo then lo else if lt hi v then hi else v

/-- `clampI(w)` of R13. -/
def clampI (w : Word) : Nat := min w.toNat Config.u20Max

end Sys2Proof.Machine.F32
end

