-- ==== Sys2Proof/Laws/Float.lean ====
section
/-! SUPPORT. The binary32 format and its rounding: bits 30:0 order the magnitudes, `mk` builds and `neg`, `magBits` take
apart, a rounded result lies between the midpoints to its neighbours, a representable magnitude is rounded to itself. -/

namespace Sys2Proof.Machine.F32

open Sys2Proof

/-! ## Building and taking apart -/

theorem toNat_mk (sign : Bool) {m : Nat} (h : m < 2 ^ 31) :
    (mk sign m).toNat = (if sign then 2 ^ 31 else 0) + m := by
  unfold mk
  rw [BitVec.toNat_ofNat]
  cases sign <;> simp <;> omega

@[simp] theorem neg_mk (sign : Bool) {m : Nat} (h : m < 2 ^ 31) : neg (mk sign m) = sign := by
  unfold neg
  rw [toNat_mk sign h]
  cases sign
  · simp; omega
  · simp

@[simp] theorem magBits_mk (sign : Bool) {m : Nat} (h : m < 2 ^ 31) : magBits (mk sign m) = m := by
  unfold magBits
  rw [toNat_mk sign h]
  cases sign <;> simp <;> omega

theorem magBits_lt (a : Sample) : magBits a < 2 ^ 31 := Nat.mod_lt _ (by decide)

/-- A sample is its sign and its bits 30:0. -/
theorem mk_neg_magBits (a : Sample) : mk (neg a) (magBits a) = a := by
  apply BitVec.eq_of_toNat_eq
  rw [toNat_mk _ (magBits_lt a)]
  have h := a.isLt
  unfold neg magBits
  by_cases h' : 2 ^ 31 ≤ a.toNat
  · simp only [h', decide_true, if_true]; omega
  · simp only [h', decide_false, Bool.false_eq_true, if_false]; omega

theorem eq_of_neg_magBits {a b : Sample} (h1 : neg a = neg b) (h2 : magBits a = magBits b) : a = b := by
  rw [← mk_neg_magBits a, ← mk_neg_magBits b, h1, h2]

theorem expo_eq (a : Sample) : expo a = magBits a / 2 ^ 23 := by
  have h := a.isLt
  unfold expo magBits
  omega

theorem frac_eq (a : Sample) : frac a = magBits a % 2 ^ 23 := by
  unfold frac magBits
  omega

theorem isNaN_iff (a : Sample) : isNaN a = true ↔ infBits < magBits a := by
  have := magBits_lt a
  unfold isNaN infBits
  rw [expo_eq, frac_eq]
  simp only [Bool.and_eq_true, beq_iff_eq, bne_iff_ne]
  omega

theorem isNaN_false_iff (a : Sample) : isNaN a = false ↔ magBits a ≤ infBits := by
  rw [← Bool.not_eq_true, isNaN_iff, Nat.not_lt]

theorem isInf_iff (a : Sample) : isInf a = true ↔ magBits a = infBits := by
  have := magBits_lt a
  unfold isInf infBits
  rw [expo_eq, frac_eq]
  simp only [Bool.and_eq_true, beq_iff_eq]
  omega

theorem isInf_false_iff (a : Sample) : isInf a = false ↔ magBits a ≠ infBits := by
  rw [← Bool.not_eq_true, isInf_iff]

theorem isZero_iff (a : Sample) : isZero a = true ↔ magBits a = 0 := by
  unfold isZero; simp

theorem isZero_false_iff (a : Sample) : isZero a = false ↔ magBits a ≠ 0 := by
  rw [← Bool.not_eq_true, isZero_iff]

theorem isFinite_iff (a : Sample) : isFinite a = true ↔ magBits a < infBits := by
  have := magBits_lt a
  unfold isFinite infBits
  rw [expo_eq]
  simp only [bne_iff_ne]
  omega

@[simp] theorem isNaN_nan (q : Nat) : isNaN (nan q) = true := by
  rw [isNaN_iff]
  unfold nan
  have h : frac (Config.freeNaN q) < 2 ^ 23 := Nat.mod_lt _ (by decide)
  simp only
  split
  · rw [magBits_mk _ (by decide)]; decide
  · rw [magBits_mk _ (by unfold infBits; omega)]; omega

@[simp] theorem magBits_abs (a : Sample) : magBits (abs a) = magBits a := magBits_mk _ (magBits_lt a)
@[simp] theorem neg_abs (a : Sample) : neg (abs a) = false := neg_mk _ (magBits_lt a)
@[simp] theorem magBits_negate (a : Sample) : magBits (negate a) = magBits a := magBits_mk _ (magBits_lt a)
@[simp] theorem neg_negate (a : Sample) : neg (negate a) = !neg a := neg_mk _ (magBits_lt a)
@[simp] theorem magBits_copysign (m x : Sample) : magBits (copysign m x) = magBits m := magBits_mk _ (magBits_lt m)
@[simp] theorem neg_copysign (m x : Sample) : neg (copysign m x) = neg x := neg_mk _ (magBits_lt m)

/-! ## Magnitudes by their bits -/

/-- The magnitude, in units of 2^-149, of the sample whose bits 30:0 are `m`. -/
def magOf (m : Nat) : Nat := if m / 2 ^ 23 = 0 then m else (2 ^ 23 + m % 2 ^ 23) * 2 ^ (m / 2 ^ 23 - 1)

theorem mag_eq (a : Sample) : mag a = magOf (magBits a) := by
  unfold mag magOf
  rw [expo_eq, frac_eq]
  split
  · rename_i h
    rw [Nat.mod_eq_of_lt]
    omega
  · rfl

/-- The magnitude of a significand `m < 2^24` in the binade `e`, a carry included; `e = 0` covers the subnormals. -/
theorem magOf_binade {e m : Nat} (hm : m ≤ 2 ^ 24) (h : e = 0 ∨ 2 ^ 23 ≤ m) :
    magOf (e * 2 ^ 23 + m) = m * 2 ^ e := by
  unfold magOf
  rcases Nat.lt_or_ge m (2 ^ 23) with h1 | h1
  · have he : e = 0 := by omega
    subst he
    have : (0 * 2 ^ 23 + m) / 2 ^ 23 = 0 := by omega
    rw [if_pos this]
    omega
  · rcases Nat.lt_or_ge m (2 ^ 24) with h2 | h2
    · have hd : (e * 2 ^ 23 + m) / 2 ^ 23 = e + 1 := by omega
      have hr : (e * 2 ^ 23 + m) % 2 ^ 23 = m - 2 ^ 23 := by omega
      rw [hd, hr, if_neg (by omega), Nat.add_sub_cancel, Nat.add_sub_cancel' h1]
    · have hm' : m = 2 ^ 24 := by omega
      subst hm'
      have hd : (e * 2 ^ 23 + 2 ^ 24) / 2 ^ 23 = e + 2 := by omega
      have hr : (e * 2 ^ 23 + 2 ^ 24) % 2 ^ 23 = 0 := by omega
      rw [hd, hr, if_neg (by omega)]
      show (2 ^ 23 + 0) * 2 ^ (e + 1) = 2 ^ 24 * 2 ^ e
      rw [Nat.pow_succ]
      ring

/-- The magnitudes rise strictly with the bits. -/
theorem magOf_lt_succ (m : Nat) : magOf m < magOf (m + 1) := by
  rcases Nat.lt_or_ge m (2 ^ 23) with h | h
  · have h1 := magOf_binade (e := 0) (m := m) (by omega) (.inl rfl)
    have h2 := magOf_binade (e := 0) (m := m + 1) (by omega) (.inl rfl)
    simp only [Nat.zero_mul, Nat.zero_add, Nat.pow_zero, Nat.mul_one] at h1 h2
    omega
  · obtain ⟨e, f, hf, rfl⟩ : ∃ e f, f < 2 ^ 23 ∧ m = e * 2 ^ 23 + (2 ^ 23 + f) :=
      ⟨m / 2 ^ 23 - 1, m % 2 ^ 23, Nat.mod_lt _ (by decide), by omega⟩
    rw [magOf_binade (by omega) (.inr (by omega)), Nat.add_assoc, magOf_binade (by omega) (.inr (by omega))]
    exact Nat.mul_lt_mul_of_pos_right (by omega) (Nat.two_pow_pos e)

theorem magOf_strictMono : StrictMono magOf := strictMono_nat_of_lt_succ magOf_lt_succ

theorem magOf_le_iff {m n : Nat} : magOf m ≤ magOf n ↔ m ≤ n := magOf_strictMono.le_iff_le

theorem magOf_lt_iff {m n : Nat} : magOf m < magOf n ↔ m < n := magOf_strictMono.lt_iff_lt

@[simp] theorem magOf_zero : magOf 0 = 0 := by decide

theorem mag_le_iff {a b : Sample} : mag a ≤ mag b ↔ magBits a ≤ magBits b := by
  rw [mag_eq, mag_eq, magOf_le_iff]

theorem mag_eq_zero_iff {a : Sample} : mag a = 0 ↔ magBits a = 0 := by
  rw [mag_eq]
  constructor
  · intro h
    have : magOf (magBits a) ≤ magOf 0 := by simp [h]
    have := magOf_le_iff.mp this
    omega
  · intro h; simp [h]

/-! ## Rounding -/

/-- The binade of a quotient: the significand `num / (den * 2^e)` fits 24 bits, and above the lowest binade it has
exactly 24. -/
theorem roundExp_spec (num den : Nat) :
    num / (den * 2 ^ roundExp num den) < 2 ^ 24 ∧
      (roundExp num den = 0 ∨ 2 ^ 23 ≤ num / (den * 2 ^ roundExp num den)) := by
  unfold roundExp
  rw [← Nat.div_div_eq_div_mul]
  generalize num / den = f
  rcases Nat.eq_zero_or_pos f with rfl | hf
  · simp
  · have h1 : 2 ^ f.log2 ≤ f := Nat.log2_self_le (by omega)
    have h2 : f < 2 ^ (f.log2 + 1) := Nat.lt_log2_self
    constructor
    · rw [Nat.div_lt_iff_lt_mul (Nat.two_pow_pos _), ← Nat.pow_add]
      exact Nat.lt_of_lt_of_le h2 (Nat.pow_le_pow_right (by decide) (by omega))
    · rcases Nat.eq_zero_or_pos (f.log2 - 23) with h | h
      · exact .inl h
      · right
        rw [Nat.le_div_iff_mul_le (Nat.two_pow_pos _), ← Nat.pow_add]
        have : 23 + (f.log2 - 23) = f.log2 := by omega
        rwa [this]

/-- Bits 30:0 of the rounded magnitude before overflow is taken into account. -/
def rawRound (num den : Nat) : Nat :=
  roundExp num den * 2 ^ 23 + nearestEven num (den * 2 ^ roundExp num den)

theorem roundMag_eq (num den : Nat) : roundMag num den = min (rawRound num den) infBits := rfl

theorem roundMag_le (num den : Nat) : roundMag num den ≤ infBits := Nat.min_le_right _ _

theorem roundMag_lt (num den : Nat) : roundMag num den < 2 ^ 31 :=
  Nat.lt_of_le_of_lt (roundMag_le num den) (by decide)

/-- Everything rounding does (R75(b)), by the neighbours `r` and `r + 1` of the exact magnitude `num / den`: the one
below its midpoint gives `r`, above it `r + 1`, a tie the even one. -/
theorem rawRound_cases {num den : Nat} (hd : 0 < den) :
    ∃ r, magOf r * den ≤ num ∧ num < magOf (r + 1) * den ∧
      ((rawRound num den = r ∧ (2 * num < (magOf r + magOf (r + 1)) * den ∨
          (2 * num = (magOf r + magOf (r + 1)) * den ∧ r % 2 = 0))) ∨
       (rawRound num den = r + 1 ∧ ((magOf r + magOf (r + 1)) * den < 2 * num ∨
          (2 * num = (magOf r + magOf (r + 1)) * den ∧ r % 2 = 1)))) := by
  obtain ⟨h1, h2⟩ := roundExp_spec num den
  unfold rawRound
  generalize roundExp num den = e at h1 h2
  have hD : 0 < den * 2 ^ e := Nat.mul_pos hd (Nat.two_pow_pos e)
  have hdiv := Nat.div_add_mod num (den * 2 ^ e)
  have hlt := Nat.mod_lt num hD
  have hlow : magOf (e * 2 ^ 23 + num / (den * 2 ^ e)) * den = den * 2 ^ e * (num / (den * 2 ^ e)) := by
    rw [magOf_binade (by omega) h2]; ring
  have hhigh : magOf (e * 2 ^ 23 + num / (den * 2 ^ e) + 1) * den
      = den * 2 ^ e * (num / (den * 2 ^ e)) + den * 2 ^ e := by
    rw [Nat.add_assoc, magOf_binade (by omega) (by omega)]; ring
  refine ⟨e * 2 ^ 23 + num / (den * 2 ^ e), by omega, by omega, ?_⟩
  rw [Nat.add_mul, hlow, hhigh]
  unfold nearestEven
  generalize num / (den * 2 ^ e) = q at *
  generalize num % (den * 2 ^ e) = r at *
  generalize den * 2 ^ e * q = X at *
  generalize den * 2 ^ e = D at *
  split <;> omega

/-- A rounded magnitude lies between the midpoints to its neighbours. -/
theorem rawRound_between {num den : Nat} (hd : 0 < den) :
    (rawRound num den ≠ 0 → (magOf (rawRound num den - 1) + magOf (rawRound num den)) * den ≤ 2 * num) ∧
      2 * num ≤ (magOf (rawRound num den) + magOf (rawRound num den + 1)) * den := by
  obtain ⟨r, h1, h2, h | h⟩ := rawRound_cases (num := num) hd
  · rw [h.1]
    refine ⟨fun h0 => ?_, by omega⟩
    have hm : magOf (r - 1) ≤ magOf r := magOf_le_iff.mpr (by omega)
    calc (magOf (r - 1) + magOf r) * den ≤ (magOf r + magOf r) * den := Nat.mul_le_mul_right _ (by omega)
      _ = 2 * (magOf r * den) := by ring
      _ ≤ 2 * num := by omega
  · rw [h.1]
    refine ⟨fun _ => by rw [Nat.add_sub_cancel]; omega, ?_⟩
    have hm : magOf (r + 1) ≤ magOf (r + 1 + 1) := magOf_le_iff.mpr (by omega)
    calc 2 * num ≤ 2 * (magOf (r + 1) * den) := by omega
      _ = (magOf (r + 1) + magOf (r + 1)) * den := by ring
      _ ≤ _ := Nat.mul_le_mul_right _ (by omega)

/-- A representable magnitude is rounded to itself. -/
theorem rawRound_exact {m den : Nat} (hd : 0 < den) : rawRound (magOf m * den) den = m := by
  obtain ⟨r, h1, h2, h⟩ := rawRound_cases (num := magOf m * den) hd
  have hr : r = m := by
    have a := magOf_le_iff.mp (Nat.le_of_mul_le_mul_right h1 hd)
    have b := magOf_lt_iff.mp (Nat.lt_of_mul_lt_mul_right h2)
    omega
  subst hr
  have hlt : magOf r * den < magOf (r + 1) * den := Nat.mul_lt_mul_of_pos_right (magOf_lt_succ r) hd
  rw [Nat.add_mul] at h
  omega

theorem roundMag_exact {m den : Nat} (hd : 0 < den) (hm : m ≤ infBits) : roundMag (magOf m * den) den = m := by
  rw [roundMag_eq, rawRound_exact hd]
  exact Nat.min_eq_left hm

theorem roundMag_zero {den : Nat} (hd : 0 < den) : roundMag 0 den = 0 := by
  have := roundMag_exact (m := 0) hd (by decide)
  simpa using this

/-- Rounding is monotone in the exact magnitude. -/
theorem rawRound_mono {n d n' d' : Nat} (hd : 0 < d) (hd' : 0 < d') (h : n * d' ≤ n' * d) :
    rawRound n d ≤ rawRound n' d' := by
  obtain ⟨r, h1, h2, h3⟩ := rawRound_cases (num := n) hd
  obtain ⟨r', h1', h2', h3'⟩ := rawRound_cases (num := n') hd'
  have key : magOf r < magOf (r' + 1) := by
    apply Nat.lt_of_mul_lt_mul_right (a := d * d')
    calc magOf r * (d * d') = magOf r * d * d' := by ring
      _ ≤ n * d' := Nat.mul_le_mul_right _ h1
      _ ≤ n' * d := h
      _ < magOf (r' + 1) * d' * d := Nat.mul_lt_mul_of_pos_right h2' hd
      _ = magOf (r' + 1) * (d * d') := by ring
  have hr : r ≤ r' := by have := magOf_lt_iff.mp key; omega
  rcases Nat.lt_or_ge r r' with hlt | hge
  · omega
  · have : r = r' := by omega
    subst this
    by_contra hc
    have a : rawRound n d = r + 1 := by omega
    have b : rawRound n' d' = r := by omega
    generalize hS : magOf r + magOf (r + 1) = S at *
    have e1 : S * d ≤ 2 * n := by omega
    have e2 : 2 * n' ≤ S * d' := by omega
    have f1 : S * d * d' ≤ 2 * n * d' := Nat.mul_le_mul_right _ e1
    have f2 : 2 * n' * d ≤ S * d' * d := Nat.mul_le_mul_right _ e2
    have f3 : S * d * d' = S * d' * d := by ring
    have f4 : 2 * n * d' = 2 * (n * d') := by ring
    have f5 : 2 * n' * d = 2 * (n' * d) := by ring
    have g1 : 2 * n * d' = S * d * d' := by omega
    have g2 : 2 * n' * d = S * d' * d := by omega
    have k1 : 2 * n = S * d := Nat.eq_of_mul_eq_mul_right hd' g1
    have k2 : 2 * n' = S * d' := Nat.eq_of_mul_eq_mul_right hd g2
    omega

theorem roundMag_mono {n d n' d' : Nat} (hd : 0 < d) (hd' : 0 < d') (h : n * d' ≤ n' * d) :
    roundMag n d ≤ roundMag n' d' := by
  have := rawRound_mono hd hd' h
  rw [roundMag_eq, roundMag_eq]
  omega

/-- Rounding a magnitude at most a representable one stays at most it. -/
theorem roundMag_le_of_le {num den m : Nat} (hd : 0 < den) (hm : m ≤ infBits) (h : num ≤ magOf m * den) :
    roundMag num den ≤ m := by
  have := roundMag_mono hd (Nat.one_pos) (n' := magOf m) (by simpa using h)
  have e := roundMag_exact (m := m) Nat.one_pos hm
  simp only [Nat.mul_one] at e
  omega

/-- Rounding a magnitude at least a representable one stays at least it. -/
theorem le_roundMag_of_le {num den m : Nat} (hd : 0 < den) (hm : m ≤ infBits) (h : magOf m * den ≤ num) :
    m ≤ roundMag num den := by
  have := roundMag_mono (Nat.one_pos) hd (n := magOf m) (by simpa using h)
  have e := roundMag_exact (m := m) Nat.one_pos hm
  simp only [Nat.mul_one] at e
  omega

/-! ## Rounded samples -/

@[simp] theorem magBits_round (sign : Bool) (num den : Nat) : magBits (round sign num den) = roundMag num den :=
  magBits_mk _ (roundMag_lt _ _)

@[simp] theorem neg_round (sign : Bool) (num den : Nat) : neg (round sign num den) = sign :=
  neg_mk _ (roundMag_lt _ _)

@[simp] theorem isNaN_round (sign : Bool) (num den : Nat) : isNaN (round sign num den) = false := by
  rw [isNaN_false_iff, magBits_round]
  exact roundMag_le _ _

@[simp] theorem isNaN_negate (a : Sample) : isNaN (negate a) = isNaN a := by
  rw [Bool.eq_iff_iff, isNaN_iff, isNaN_iff, magBits_negate]

@[simp] theorem isNaN_abs (a : Sample) : isNaN (abs a) = isNaN a := by
  rw [Bool.eq_iff_iff, isNaN_iff, isNaN_iff, magBits_abs]

@[simp] theorem isNaN_copysign (m x : Sample) : isNaN (copysign m x) = isNaN m := by
  rw [Bool.eq_iff_iff, isNaN_iff, isNaN_iff, magBits_copysign]

@[simp] theorem isInf_negate (a : Sample) : isInf (negate a) = isInf a := by
  rw [Bool.eq_iff_iff, isInf_iff, isInf_iff, magBits_negate]

theorem val_eq (a : Sample) : val a = if neg a then -(magOf (magBits a) : Int) else (magOf (magBits a) : Int) := by
  unfold val; rw [mag_eq]

@[simp] theorem val_negate (a : Sample) : val (negate a) = -val a := by
  rw [val_eq, val_eq, magBits_negate, neg_negate]
  cases neg a <;> simp

/-- Finite operands are neither infinite nor a NaN. -/
theorem finite_cases {a : Sample} (h : isFinite a = true) : isNaN a = false ∧ isInf a = false := by
  rw [isFinite_iff] at h
  rw [isNaN_false_iff, isInf_false_iff]
  omega

/-- `⊕` on finite operands: an exact zero keeps a common minus sign, any other sum is rounded once (R75). -/
theorem add_finite {q : Nat} {a b : Sample} (ha : isFinite a = true) (hb : isFinite b = true) :
    add q a b = if val a + val b = 0 then mk (neg a && neg b) 0
      else round (decide (val a + val b < 0)) (val a + val b).natAbs 1 := by
  simp [add, finite_cases ha, finite_cases hb]

/-- `⊗` on finite operands: the product is rounded once (R75). -/
theorem mul_finite {q : Nat} {a b : Sample} (ha : isFinite a = true) (hb : isFinite b = true) :
    mul q a b = round (neg a != neg b) (mag a * mag b) (2 ^ 149) := by
  simp [mul, finite_cases ha, finite_cases hb]

/-- `⊘` of a finite operand by a finite nonzero one: the quotient is rounded once (R75). -/
theorem div_finite {q : Nat} {a b : Sample} (ha : isFinite a = true) (hb : isFinite b = true)
    (h0 : isZero b = false) : div q a b = round (neg a != neg b) (mag a * 2 ^ 149) (mag b) := by
  simp [div, finite_cases ha, finite_cases hb, h0]

/-- A clamp lies within its bounds (R13). -/
theorem clampS_cases (v lo hi : Sample) :
    (clampS v lo hi = lo ∧ (isNaN v = true ∨ lt v lo = true)) ∨
    (clampS v lo hi = hi ∧ isNaN v = false ∧ lt v lo = false ∧ lt hi v = true) ∨
    (clampS v lo hi = v ∧ isNaN v = false ∧ lt v lo = false ∧ lt hi v = false) := by
  unfold clampS
  cases isNaN v <;> cases lt v lo <;> cases lt hi v <;> simp

end Sys2Proof.Machine.F32
end

