-- ==== Sys2Proof/Machine/SatContract.lean ====
section
/-! DEFINITION. The saturation contract of spec/42_tape_flutter_sat.md R170: what is known of a `SATFN` of which nothing
else is known, and one function that keeps it. -/

namespace Sys2Proof.Machine

open Sys2Proof

/-- A drive in `[DRIVE_MIN, DRIVE_MAX]`, the range the properties of R170 speak of. -/
def legalDrive (drive : Sample) : Bool :=
  F32.le Config.driveMin drive && F32.le drive Config.driveMax

/-- The rational value of a finite sample. -/
def F32.rat (a : Sample) : ℚ := (F32.val a : ℚ) / 2 ^ 149

/-- The distance from a finite sample to the next one of greater magnitude, in units of 2^-149. -/
def F32.spacing (a : Sample) : Nat := 2 ^ (F32.expo a - 1)

/-- P2, the limit of P3 and P4 of R170, which speak of a function on the reals: `g` is non-decreasing, `g(x) / x` tends to
1 at 0, `|g(x)|` tends to `1 / k` as `|x|` grows, and `g` has no corner, which is read as differentiable (entry 6). -/
def SatCurve (k : ℝ) (g : ℝ → ℝ) : Prop :=
  Monotone g ∧
  Filter.Tendsto (fun x => g x / x) (nhdsWithin 0 {0}ᶜ) (nhds 1) ∧
  Filter.Tendsto (fun x => |g x|) Filter.atTop (nhds (1 / k)) ∧
  Filter.Tendsto (fun x => |g x|) Filter.atBot (nhds (1 / k)) ∧
  Differentiable ℝ g

/-- The sample function `f` is the real function `g` up to rounding: at every finite sample it is off by at most `n + 1`
units in the last place of its own result (R170 P2, "up to the rounding of its own operations"). -/
def RoundsCurve (n : Nat) (g : ℝ → ℝ) (f : Sample → Sample) : Prop :=
  ∀ x, F32.isFinite x = true →
    |(F32.rat (f x) : ℝ) - g (F32.rat x : ℝ)| ≤ ((n + 1) * F32.spacing (f x) : ℝ) / 2 ^ 149

/-- The properties P1 to P5 of R170 at every legal drive; P0 is the type of `f`. P1, P5 and the rest of P3 hold of the
samples themselves, P2, P4 and the limit of P3 of a real function that `f` rounds. -/
def SatContract (n : Nat) (f : Sample → Sample → Sample) : Prop :=
  ∀ drive, legalDrive drive = true →
    (∀ x q, F32.isNaN x = false → F32.le (F32.abs (f x drive)) (F32.div q F32.one drive) = true) ∧
    (∀ x, F32.isNaN x = false → F32.neg (f x drive) = F32.neg x ∧ F32.mag (f x drive) ≤ F32.mag x) ∧
    (∀ x, F32.isNaN x = true → F32.isNaN (f x drive) = true) ∧
    ∃ g, SatCurve (F32.rat drive : ℝ) g ∧ RoundsCurve n g (fun x => f x drive)

/-- `x / (1 + drive |x|)` rounded once; at an infinity its limit; a NaN for a NaN. It shows that the contract can be kept
and has no other part in the model. -/
def satRounded (x drive : Sample) : Sample :=
  if F32.isNaN x then x
  else if F32.isInf x then F32.round (F32.neg x) (2 ^ 149 * 2 ^ 149) (F32.mag drive)
  else F32.round (F32.neg x) (F32.mag x * (2 ^ 149 * 2 ^ 149)) (2 ^ 149 * 2 ^ 149 + F32.mag drive * F32.mag x)

end Sys2Proof.Machine
end

