-- ==== Sys2Proof/Laws/Saturation.lean ====
section
/-! SUPPORT. The saturation contract of R170 can be kept: `satRounded`, the curve `x / (1 + k |x|)` rounded once, keeps it
with no more rounding than one unit in the last place. -/

namespace Sys2Proof.Machine

open Sys2Proof

/-! ## The curve on the reals -/

/-- The real curve of `satRounded`. -/
noncomputable def satReal (k x : ℝ) : ℝ := x / (1 + k * |x|)

theorem satReal_pos {k : ℝ} (hk : 0 < k) (x : ℝ) : 0 < 1 + k * |x| := by
  have := mul_nonneg hk.le (abs_nonneg x)
  linarith

theorem satReal_mono {k : ℝ} (hk : 0 < k) : Monotone (satReal k) := by
  intro x y h
  unfold satReal
  rw [div_le_div_iff₀ (satReal_pos hk x) (satReal_pos hk y)]
  rcases abs_cases x with ⟨hx, _⟩ | ⟨hx, _⟩ <;> rcases abs_cases y with ⟨hy, _⟩ | ⟨hy, _⟩ <;> rw [hx, hy]
  · nlinarith
  · nlinarith
  · nlinarith [mul_nonneg hk.le (mul_nonneg (neg_nonneg.mpr (by linarith : x ≤ 0)) (by linarith : (0 : ℝ) ≤ y))]
  · nlinarith

theorem satReal_slope {k : ℝ} (hk : 0 < k) :
    Filter.Tendsto (fun x => satReal k x / x) (nhdsWithin 0 {0}ᶜ) (nhds 1) := by
  have hc : Filter.Tendsto (fun x : ℝ => 1 / (1 + k * |x|)) (nhdsWithin 0 {0}ᶜ) (nhds 1) := by
    have hf : Continuous fun x : ℝ => 1 / (1 + k * |x|) :=
      continuous_const.div (continuous_const.add (continuous_const.mul continuous_abs))
        fun x => (satReal_pos hk x).ne'
    simpa using (hf.tendsto 0).mono_left nhdsWithin_le_nhds
  refine hc.congr' ?_
  filter_upwards [self_mem_nhdsWithin] with x hx
  have h0 : x ≠ 0 := hx
  have := (satReal_pos hk x).ne'
  unfold satReal
  field_simp

theorem satReal_abs_atTop {k : ℝ} (hk : 0 < k) :
    Filter.Tendsto (fun x => |satReal k x|) Filter.atTop (nhds (1 / k)) := by
  have h : Filter.Tendsto (fun x : ℝ => 1 / (x⁻¹ + k)) Filter.atTop (nhds (1 / (0 + k))) :=
    tendsto_const_nhds.div (tendsto_inv_atTop_zero.add tendsto_const_nhds) (by simpa using hk.ne')
  rw [zero_add] at h
  refine h.congr' ?_
  filter_upwards [Filter.eventually_gt_atTop 0] with x hx
  have := satReal_pos hk x
  unfold satReal
  rw [abs_div, abs_of_pos this, abs_of_pos hx]
  field_simp

theorem satReal_abs_neg (k x : ℝ) : |satReal k (-x)| = |satReal k x| := by
  unfold satReal
  rw [abs_neg, abs_div, abs_div, abs_neg]

theorem satReal_abs_atBot {k : ℝ} (hk : 0 < k) :
    Filter.Tendsto (fun x => |satReal k x|) Filter.atBot (nhds (1 / k)) := by
  have h := (satReal_abs_atTop hk).comp Filter.tendsto_neg_atBot_atTop
  refine h.congr fun x => ?_
  exact satReal_abs_neg k x

theorem satReal_differentiable {k : ℝ} (hk : 0 < k) : Differentiable ℝ (satReal k) := by
  intro x
  by_cases hx : x = 0
  · subst hx
    refine (hasDerivAt_iff_tendsto_slope.mpr ?_ : HasDerivAt (satReal k) 1 0).differentiableAt
    refine (satReal_slope hk).congr fun x => ?_
    simp [slope_def_field, satReal]
  · have ha : DifferentiableAt ℝ (fun y : ℝ => |y|) x := differentiableAt_abs hx
    exact differentiableAt_id.div ((differentiableAt_const _).add ((differentiableAt_const _).mul ha))
      (satReal_pos hk x).ne'

theorem satReal_curve {k : ℝ} (hk : 0 < k) : SatCurve k (satReal k) :=
  ⟨satReal_mono hk, satReal_slope hk, satReal_abs_atTop hk, satReal_abs_atBot hk, satReal_differentiable hk⟩

/-! ## Its rounding -/

theorem F32.spacing_eq (a : Sample) : F32.spacing a = 2 ^ (F32.magBits a / 2 ^ 23 - 1) := by
  rw [F32.spacing, F32.expo_eq]

/-- The next magnitude is one spacing away. -/
theorem F32.magOf_succ (m : Nat) : F32.magOf (m + 1) = F32.magOf m + 2 ^ (m / 2 ^ 23 - 1) := by
  rcases Nat.lt_or_ge m (2 ^ 23) with h | h
  · have h1 := F32.magOf_binade (e := 0) (m := m) (by omega) (.inl rfl)
    have h2 := F32.magOf_binade (e := 0) (m := m + 1) (by omega) (.inl rfl)
    simp only [Nat.zero_mul, Nat.zero_add, Nat.pow_zero, Nat.mul_one] at h1 h2
    have h3 : m / 2 ^ 23 - 1 = 0 := by omega
    rw [h3]; omega
  · obtain ⟨e, f, hf, rfl⟩ : ∃ e f, f < 2 ^ 23 ∧ m = e * 2 ^ 23 + (2 ^ 23 + f) :=
      ⟨m / 2 ^ 23 - 1, m % 2 ^ 23, Nat.mod_lt _ (by decide), by omega⟩
    have h3 : (e * 2 ^ 23 + (2 ^ 23 + f)) / 2 ^ 23 - 1 = e := by omega
    rw [h3, F32.magOf_binade (by omega) (.inr (by omega)), Nat.add_assoc,
      F32.magOf_binade (by omega) (.inr (by omega))]
    ring

/-- A magnitude that is not rounded to infinity is off by at most one spacing of the result. -/
theorem F32.roundMag_error {num den : Nat} (hd : 0 < den) (hf : F32.roundMag num den < F32.infBits) :
    num ≤ (F32.magOf (F32.roundMag num den) + 2 ^ (F32.roundMag num den / 2 ^ 23 - 1)) * den ∧
      F32.magOf (F32.roundMag num den) * den ≤ num + 2 ^ (F32.roundMag num den / 2 ^ 23 - 1) * den := by
  have hr : F32.roundMag num den = F32.rawRound num den := by
    rw [F32.roundMag_eq] at hf ⊢; omega
  rw [hr]
  obtain ⟨h1, h2⟩ := F32.rawRound_between (num := num) hd
  generalize F32.rawRound num den = r at *
  rw [F32.magOf_succ] at h2
  constructor
  · have : 0 ≤ 2 ^ (r / 2 ^ 23 - 1) * den := Nat.zero_le _
    nlinarith
  · rcases Nat.eq_zero_or_pos r with rfl | h0
    · simp
    · obtain ⟨m, rfl⟩ : ∃ m, r = m + 1 := ⟨r - 1, by omega⟩
      have h1 := h1 (by omega)
      rw [Nat.add_sub_cancel] at h1
      have hp : 2 ^ (m / 2 ^ 23 - 1) ≤ 2 ^ ((m + 1) / 2 ^ 23 - 1) := Nat.pow_le_pow_right (by decide) (by omega)
      have hs := F32.magOf_succ m
      have : 2 ^ (m / 2 ^ 23 - 1) * den ≤ 2 ^ ((m + 1) / 2 ^ 23 - 1) * den := Nat.mul_le_mul_right _ hp
      nlinarith

/-- Two samples that are not negative compare as their bits do. -/
theorem F32.le_of_magBits {a b : Sample} (ha : F32.neg a = false) (hb : F32.neg b = false)
    (h : F32.magBits a ≤ F32.magBits b) (hn : F32.magBits b ≤ F32.infBits) : F32.le a b = true := by
  have h1 : F32.isNaN a = false := (F32.isNaN_false_iff a).mpr (by omega)
  have h2 : F32.isNaN b = false := (F32.isNaN_false_iff b).mpr hn
  have h3 := F32.magOf_le_iff.mpr h
  simp only [F32.le, h1, h2, F32.val_eq, ha, hb]
  simpa using h3

/-- A legal drive is positive and finite. -/
theorem legalDrive_facts {drive : Sample} (h : legalDrive drive = true) :
    F32.neg drive = false ∧ F32.isFinite drive = true ∧ 0 < F32.mag drive ∧ F32.val drive = F32.mag drive := by
  simp only [legalDrive, F32.le, Bool.and_eq_true, decide_eq_true_eq, Bool.not_eq_true'] at h
  obtain ⟨⟨⟨_, hn⟩, h1⟩, ⟨_, _⟩, h2⟩ := h
  have e1 : F32.val Config.driveMin = 2 ^ 145 := by decide +kernel
  have e2 : F32.val Config.driveMax = F32.magOf (F32.magBits Config.driveMax) := by decide +kernel
  rw [e1] at h1
  rw [e2] at h2
  have hneg : F32.neg drive = false := by
    by_contra hc
    rw [Bool.not_eq_false] at hc
    rw [F32.val, hc] at h1
    simp only [if_true] at h1
    omega
  have hv : F32.val drive = F32.mag drive := by simp [F32.val, hneg]
  refine ⟨hneg, ?_, by omega, hv⟩
  rw [F32.isFinite_iff]
  rw [hv, F32.mag_eq] at h2
  have h3 := F32.magOf_le_iff.mp (Int.ofNat_le.mp h2)
  exact Nat.lt_of_le_of_lt h3 (by decide +kernel)

theorem F32.div_one {q : Nat} {drive : Sample} (h : legalDrive drive = true) :
    F32.div q F32.one drive = F32.round false (2 ^ 149 * 2 ^ 149) (F32.mag drive) := by
  obtain ⟨h1, h2, h3, _⟩ := legalDrive_facts h
  have hz : F32.isZero drive = false := by
    rw [F32.isZero_false_iff]
    intro hc
    have := F32.mag_eq_zero_iff.mpr hc
    omega
  rw [F32.div_finite (by decide +kernel) h2 hz, h1]
  have e1 : F32.mag F32.one * 2 ^ 149 = 2 ^ 149 * 2 ^ 149 := by decide +kernel
  have e2 : (F32.neg F32.one != false) = false := by decide +kernel
  rw [e1, e2]

theorem satDen_pos {K X : Nat} : 0 < 2 ^ 149 * 2 ^ 149 + K * X :=
  Nat.add_pos_left (Nat.mul_pos (Nat.two_pow_pos _) (Nat.two_pow_pos _)) _

/-- Everything `satRounded` gives, by the kind of its argument. -/
theorem satRounded_finite {x drive : Sample} (hx : F32.isFinite x = true) :
    satRounded x drive =
      F32.round (F32.neg x) (F32.mag x * (2 ^ 149 * 2 ^ 149)) (2 ^ 149 * 2 ^ 149 + F32.mag drive * F32.mag x) := by
  simp [satRounded, F32.finite_cases hx]

theorem F32.inf_or_finite {x : Sample} (hx : F32.isNaN x = false) : F32.isInf x = true ∨ F32.isFinite x = true := by
  rw [F32.isInf_iff, F32.isFinite_iff]
  rw [F32.isNaN_false_iff] at hx
  omega

theorem satRounded_magBits_le {x drive : Sample} (hx : F32.isFinite x = true) :
    F32.roundMag (F32.mag x * (2 ^ 149 * 2 ^ 149)) (2 ^ 149 * 2 ^ 149 + F32.mag drive * F32.mag x) ≤ F32.magBits x := by
  have hx' := (F32.isFinite_iff x).mp hx
  refine F32.roundMag_le_of_le satDen_pos hx'.le ?_
  rw [← F32.mag_eq]
  exact Nat.mul_le_mul_left _ (Nat.le_add_right _ _)

/-- An integer magnitude `R` within `S` of the exact quotient, both in units of `1 / U`, is within `S / U` of the curve, on
both sides of 0. -/
theorem satReal_error {U K X R S : Nat} (n : Nat) {s : ℝ} (hU : 0 < U) (hs : |s| = 1)
    (h1 : X * (U * U) ≤ (R + S) * (U * U + K * X)) (h2 : R * (U * U + K * X) ≤ X * (U * U) + S * (U * U + K * X)) :
    |s * (R : ℝ) / U - satReal ((K : ℝ) / U) (s * (X : ℝ) / U)| ≤ ((n + 1) * S : ℝ) / U := by
  have hU' : (0 : ℝ) < U := by exact_mod_cast hU
  have hK : (0 : ℝ) ≤ K := Nat.cast_nonneg _
  have hX : (0 : ℝ) ≤ X := Nat.cast_nonneg _
  have hS : (0 : ℝ) ≤ S := Nat.cast_nonneg _
  have hn : (0 : ℝ) ≤ n := Nat.cast_nonneg _
  have hD : (0 : ℝ) < U * U + K * X := by positivity
  have r1 : (X : ℝ) * (U * U) ≤ (R + S) * (U * U + K * X) := by exact_mod_cast h1
  have r2 : (R : ℝ) * (U * U + K * X) ≤ X * (U * U) + S * (U * U + K * X) := by exact_mod_cast h2
  have key : |(R : ℝ) - X * (U * U) / (U * U + K * X)| ≤ S := by
    rw [abs_le]
    constructor
    · rw [neg_le, neg_sub, sub_le_iff_le_add, div_le_iff₀ hD]; linarith
    · rw [sub_le_iff_le_add, ← sub_le_iff_le_add', le_div_iff₀ hD]; linarith
  have curve : satReal ((K : ℝ) / U) (s * (X : ℝ) / U) = s * (X * (U * U) / (U * U + K * X)) / U := by
    unfold satReal
    rw [abs_div, abs_mul, hs, one_mul, abs_of_nonneg hX, abs_of_pos hU']
    field_simp
  rw [curve, ← sub_div, ← mul_sub, abs_div, abs_mul, hs, one_mul, abs_of_pos hU']
  refine div_le_div_of_nonneg_right (key.trans ?_) hU'.le
  nlinarith [mul_nonneg hn hS]

/-- The value of a finite sample as its sign times its magnitude. -/
theorem F32.rat_eq (a : Sample) :
    (F32.rat a : ℝ) = (if F32.neg a then (-1 : ℝ) else 1) * (F32.mag a : ℝ) / ((2 ^ 149 : Nat) : ℝ) := by
  rw [F32.rat, F32.val, Nat.cast_pow, Nat.cast_ofNat]
  cases F32.neg a <;> simp

/-- The samples of `satRounded` lie within one spacing of its curve. -/
theorem satRounded_rounds {drive : Sample} (h : legalDrive drive = true) (n : Nat) :
    RoundsCurve n (satReal (F32.rat drive : ℝ)) (fun x => satRounded x drive) := by
  obtain ⟨hneg, -, hpos, -⟩ := legalDrive_facts h
  intro x hx
  have hle := satRounded_magBits_le (drive := drive) hx
  have hx' := (F32.isFinite_iff x).mp hx
  obtain ⟨e1, e2⟩ := F32.roundMag_error (num := F32.mag x * (2 ^ 149 * 2 ^ 149))
    (satDen_pos (K := F32.mag drive) (X := F32.mag x)) (by omega)
  have hs : |if F32.neg x then (-1 : ℝ) else 1| = 1 := by cases F32.neg x <;> simp
  have key := satReal_error n (Nat.two_pow_pos 149) hs e1 e2
  have hK : (F32.rat drive : ℝ) = (F32.mag drive : ℝ) / ((2 ^ 149 : Nat) : ℝ) := by
    rw [F32.rat_eq, hneg]; simp
  show |(F32.rat (satRounded x drive) : ℝ) - satReal _ (F32.rat x : ℝ)| ≤
    ((n + 1) * F32.spacing (satRounded x drive) : ℝ) / 2 ^ 149
  rw [satRounded_finite hx, hK, F32.rat_eq x, F32.rat_eq, F32.spacing_eq, F32.neg_round, F32.mag_eq (F32.round _ _ _),
    F32.magBits_round]
  have hc : (2 : ℝ) ^ 149 = ((2 ^ 149 : Nat) : ℝ) := by norm_cast
  rw [hc]
  exact key

/-- The contract of R170 can be kept. -/
theorem satRounded_contract (n : Nat) : SatContract n satRounded := by
  intro drive h
  obtain ⟨-, -, hpos, hdv⟩ := legalDrive_facts h
  have hk : (0 : ℝ) < (F32.rat drive : ℝ) := by
    rw [F32.rat, hdv]; push_cast; positivity
  refine ⟨fun x q hx => ?_, fun x hx => ?_, fun x hx => by simp [satRounded, hx],
    satReal _, satReal_curve hk, satRounded_rounds h n⟩
  · rw [F32.div_one h]
    refine F32.le_of_magBits (F32.neg_abs _) (F32.neg_round _ _ _) ?_ (by rw [F32.magBits_round]; exact F32.roundMag_le _ _)
    rw [F32.magBits_abs, F32.magBits_round]
    rcases F32.inf_or_finite hx with hi | hf
    · simp [satRounded, hx, hi]
    · rw [satRounded_finite hf, F32.magBits_round]
      refine F32.roundMag_mono satDen_pos hpos ?_
      nlinarith [Nat.two_pow_pos 149]
  · rcases F32.inf_or_finite hx with hi | hf
    · have he : satRounded x drive = F32.round (F32.neg x) (2 ^ 149 * 2 ^ 149) (F32.mag drive) := by simp [satRounded, hx, hi]
      rw [he, F32.neg_round, F32.mag_le_iff, F32.magBits_round, (F32.isInf_iff x).mp hi]
      exact ⟨rfl, F32.roundMag_le _ _⟩
    · rw [satRounded_finite hf, F32.neg_round, F32.mag_le_iff, F32.magBits_round]
      exact ⟨rfl, satRounded_magBits_le hf⟩

end Sys2Proof.Machine
end

