-- ==== Sys2Proof/Machine/Sine.lean ====
section
/-! DEFINITION. The default `SIN` (spec/42_tape_flutter_sat.md R161): the real sine of a binary32 value, rounded to nearest
even. The real sine is computed in fixed point with 480 fraction bits and then rounded once; that this yields the
correctly rounded sine for every argument is UNVERIFIED (entry 5). -/

namespace Sys2Proof.Machine.Sine

open Sys2Proof

/-- Fraction bits of the fixed-point format. -/
def fracBits : Nat := 480

/-- The real number π, rounded down to 480 fraction bits. -/
def piFixed : Nat :=
  0x3243f6a8885a308d313198a2e03707344a4093822299f31d0082efa98ec4e6c89452821e638d01377be5466cf34e90c6cc0ac29b7c97c50dd3f84d5b5

/-- The sum of the sine's series from the term `t` on, `t` being the magnitude of the term of degree `k - 1` and `sq`
the argument squared; the terms alternate. -/
def series : Nat → Nat → Nat → Nat → Int
  | 0, _, _, _ => 0
  | fuel + 1, t, k, sq => (t : Int) - series fuel (t * sq / 2 ^ fracBits / (k * (k + 1))) (k + 2) sq

/-- The sine of a fixed-point argument in `[0, π)`. -/
def sineFixed (r : Nat) : Int := series 80 r 2 (r * r / 2 ^ fracBits)

/-- The signed sine of the magnitude of a finite sample: reduced modulo 2π, then to `[0, π)`. -/
def sineOfMag (a : Sample) : Int :=
  let r := F32.mag a * 2 ^ (fracBits - 149) % (2 * piFixed)
  if r < piFixed then sineFixed r else -sineFixed (r - piFixed)

/-- The sine of a finite sample, rounded once. -/
def rounded (a : Sample) : Sample :=
  let v := if F32.neg a then -sineOfMag a else sineOfMag a
  F32.round (decide (v < 0)) v.natAbs (2 ^ (fracBits - 149))

end Sys2Proof.Machine.Sine
end

