-- ==== Sys2Proof/Machine/Functions.lean ====
section
/-! DEFINITION. The two configuration functions of spec/00_scope.md R8: `SIN` (R161) and `SATFN` (R170, R171), each for the
spec's default and for the function of which only the named properties are known (entries 4 to 7, 16). -/

namespace Sys2Proof.Machine

open Sys2Proof

/-- One word for every value: the zeros and the NaNs each have one representative (S1 of R161: `SIN` depends on its
argument's value alone; entry 16). -/
def canonicalValue (p : Sample) : Sample :=
  if F32.isNaN p then 0x7FC00000#32 else if F32.isZero p then F32.zero else p

/-- `SIN` before its properties are imposed. Outside its guaranteed domain (an infinity, a NaN) nothing is known of
either choice. -/
def rawSine (c : Config.Choice) (p : Sample) : Sample :=
  match c with
  | .byDefault => if F32.isFinite p then Sine.rounded p else Config.freeSine p
  | .unspecified => Config.freeSine p

/-- `SIN(p)` of R161: S1 by `canonicalValue`; S2, a finite argument gives a value in `[-1, 1]`; S3, a zero gives `+0.0`.
Every function with S1 to S3 is left as it is by these conditions. -/
def sinFn (c : Config.Choice) (p : Sample) : Sample :=
  let p' := canonicalValue p
  if F32.isZero p' then F32.zero
  else if F32.isFinite p' then F32.clampS (rawSine c p') F32.minusOne F32.one
  else rawSine c p'

/-- The default `SATFN` of R171. It draws the NaNs numbered `q` to `q + 4`. -/
def satDefault (q : Nat) (x drive : Sample) : Sample :=
  if F32.isNaN x then F32.nan q
  else
    let t := F32.mul (q + 1) drive (F32.abs x)
    if t = F32.mk false F32.infBits then F32.copysign (F32.div (q + 2) F32.one drive) x
    else F32.div (q + 4) x (F32.add (q + 3) F32.one t)

/-- A function of which the contract of R170 is known and nothing else (entry 6); `satRounded` shows there is one. -/
def satFree : { f : Sample → Sample → Sample // SatContract Config.freeSatRounding f } :=
  @Config.freeSat _ ⟨⟨satRounded, satRounded_contract _⟩⟩

/-- The unspecified `SATFN`. It draws the NaN numbered `q`. -/
def satUnspecified (q : Nat) (x drive : Sample) : Sample :=
  if F32.isNaN x then F32.nan q else satFree.1 x drive

/-- NaN draws that one `SATFN` reserves. -/
def satDraws : Nat := 5

/-- `SATFN(x, drive)` of R170. -/
def satFn (c : Config.Choice) (q : Nat) (x drive : Sample) : Sample :=
  match c with
  | .byDefault => satDefault q x drive
  | .unspecified => satUnspecified q x drive

end Sys2Proof.Machine
end

