-- ==== Sys2Proof/Machine/Operands.lean ====
section
/-! DEFINITION. How a command reaches its operands: the data word (spec/30_encoding.md R93), the buffers and stage
registers by index (spec/00_scope.md R6, spec/10_state.md section 4), the groups of `SRESET` (R194). An index is checked
against its count before any of these is used (R212); out of range they give the value of a reset element. -/

namespace Sys2Proof.Machine

open Sys2Proof

/-- `APBUF(i)`, the buffer of allpass stage `i` (R6, R140). -/
def apBuf (i : Nat) : Nat := Config.nPlain + i

/-- `CBUF(j)`, the buffer of comb stage `j` (R6, R140). -/
def cBuf (j : Nat) : Nat := Config.nPlain + Config.nAp + j

/-- `TBUF(c)`, the buffer of tape channel `c` (R6, R160). -/
def tBuf (c : Nat) : Nat := Config.nPlain + Config.nAp + Config.nComb + c

/-- The data word `D` of the request: a sample, a fractional delay or a register value (R93). -/
def State.dataWord (s : State) : Word := s.req.data

/-- Delay Buffer `b` (R40). -/
def State.buf (s : State) (b : Nat) : Buffer := s.bufs.getD b Buffer.reset

/-- The state with Delay Buffer `b` replaced. -/
def State.setBuf (s : State) (b : Nat) (B : Buffer) : State :=
  { s with bufs := s.bufs.setIfInBounds b B }

/-- `PHYSCAP[b]` (R6). -/
def State.physCap (s : State) (b : Nat) : Nat := s.impl.physCap.getD b 0

/-- `AP_DELAY[i]` (R42). -/
def State.apDelay (s : State) (i : Nat) : Nat := s.params.apDelay.getD i 0

/-- `COMB_DELAY[j]` (R43). -/
def State.combDelay (s : State) (j : Nat) : Nat := s.params.combDelay.getD j 0

/-- `COMB_FB[j]` (R43). -/
def State.combFb (s : State) (j : Nat) : Sample := s.params.combFb.getD j 0#32

/-- `COMB_DAMP[j]` (R43). -/
def State.combDamp (s : State) (j : Nat) : Sample := s.params.combDamp.getD j 0#32

/-- `COMB_LAST[j]` (R43). -/
def State.combLast (s : State) (j : Nat) : Sample := s.filters.combLast.getD j 0#32

/-- `TONE_STATE[c]` (R38). -/
def State.toneState (s : State) (c : Nat) : Sample := s.filters.toneState.getD c 0#32

/-- The state with `COMB_LAST[j]` written. -/
def State.setCombLast (s : State) (j : Nat) (v : Sample) : State :=
  { s with filters := { s.filters with combLast := s.filters.combLast.setIfInBounds j v } }

/-- The state with `TONE_STATE[c]` written. -/
def State.setToneState (s : State) (c : Nat) (v : Sample) : State :=
  { s with filters := { s.filters with toneState := s.filters.toneState.setIfInBounds c v } }

/-- The state with `FLUT_PHASE` and `MODDLY` written. -/
def State.setFlutter (s : State) (phase modDly : Sample) : State :=
  { s with filters := { s.filters with flutPhase := phase, modDly := modDly } }

/-- The state after `n` free values were drawn (entry 8). -/
def State.advanceDraws (s : State) (n : Nat) : State := { s with draws := s.draws + n }

/-- Mask bit 0 selects the plate group (R92, R194). -/
def maskPlate (m : Nat) : Bool := m.testBit 0

/-- Mask bit 1 selects the tape group (R92, R194). -/
def maskTape (m : Nat) : Bool := m.testBit 1

/-- The buffers of the plate group, 0 to 12 (R194). -/
def plateBuffers : List Nat := List.range (Config.nPlain + Config.nAp + Config.nComb)

/-- The buffers of the tape group, 13 and 14 (R194). -/
def tapeBuffers : List Nat := (List.range Config.nTape).map tBuf

end Sys2Proof.Machine
end

