-- ==== Sys2Proof/Machine/Ops.lean ====
section
/-! DEFINITION. The shared operations: sample memory, Delay Buffers, responses, taking a fault, serving a request,
hardware reset (spec/00_scope.md R11, spec/20_memory.md R64, spec/40_delay_buffer.md, spec/60_exceptions.md R215, R223,
spec/70_reset_and_hazards.md R240). -/

namespace Sys2Proof.Machine

open Sys2Proof

/-! ## Sample memory (R60) -/

/-- What a cell that nothing has written reads as (R51; entry 2). -/
def unlistedSample : Sample := F32.zero

/-- `MemRead(b, k)` of R11, on the memory of one buffer. -/
def Mem.read : Mem → Nat → Sample
  | [], _ => unlistedSample
  | (a, v) :: m, k => if a = k then v else Mem.read m k

/-- The memory without an entry for cell `k`. -/
def Mem.erase (m : Mem) (k : Nat) : Mem := m.filter (fun c => c.1 != k)

/-- The memory with `(k, v)` put before the first entry of a higher index. -/
def Mem.insert : Mem → Nat → Sample → Mem
  | [], k, v => [(k, v)]
  | (a, w) :: m, k, v => if k < a then (k, v) :: (a, w) :: m else (a, w) :: Mem.insert m k v

/-- `MemWrite(b, k, v)` of R11. Writing what an unlisted cell reads as removes the entry. -/
def Mem.write (m : Mem) (k : Nat) (v : Sample) : Mem :=
  if v = unlistedSample then Mem.erase m k else Mem.insert (Mem.erase m k) k v

/-- The cells below `n` written `+0.0` (the loops of R120 and R126). -/
def Mem.clearBelow (m : Mem) (n : Nat) : Mem := m.filter (fun c => decide (n ≤ c.1))

/-- The canonical form: indices strictly rising, no entry equal to what an unlisted cell reads as. -/
def Mem.wf (m : Mem) : Bool :=
  decide (m.Pairwise (fun x y => x.1 < y.1)) && m.all (fun c => c.2 != unlistedSample)

/-! ## Delay Buffers (R40, R64) -/

/-- `idx(b, n) = (CUR[b] - n) mod SIZE[b]`, the mathematical residue (R11, R64). -/
def Buffer.idx (B : Buffer) (n : Nat) : Nat := (((B.cur : Int) - (n : Int)) % (B.size : Int)).toNat

/-- `BufRead(b, n)` (R11, R123). -/
def Buffer.read (B : Buffer) (n : Nat) : Sample := Mem.read B.mem (B.idx n)

/-- `BufWrite(b, v)` (R11, R122). -/
def Buffer.push (B : Buffer) (v : Sample) : Buffer :=
  { B with mem := Mem.write B.mem B.cur v, cur := (B.cur + 1) % B.size }

/-- The fraction `f` of an interpolated read's delay (R125). -/
def fracPart (q : Nat) (d : Sample) : Sample := F32.sub q d (F32.toS (F32.floor d))

/-- The interpolation `a ⊕ (f ⊗ (c ⊖ a))` of R125. -/
def interpolate (q : Nat) (f a c : Sample) : Sample :=
  F32.add (q + 2) a (F32.mul (q + 1) f (F32.sub q c a))

/-- `BufReadI(b, d)` (R11, R125). It draws the NaNs numbered `q` to `q + 3`. -/
def Buffer.readI (q : Nat) (B : Buffer) (d : Sample) : Sample :=
  interpolate (q + 1) (fracPart q d) (B.read (F32.floor d)) (B.read (F32.floor d + 1))

/-- NaN draws that one `BufReadI` reserves. -/
def readIDraws : Nat := 4

/-- The cells in use written `+0.0` and the cursor reset (R126). -/
def Buffer.clear (B : Buffer) : Buffer := { B with mem := Mem.clearBelow B.mem B.size, cur := 0 }

/-- `n` cells selected and zeroed, the cursor reset (R120). -/
def Buffer.resize (B : Buffer) (n : Nat) : Buffer := { mem := Mem.clearBelow B.mem n, size := n, cur := 0 }

/-- The buffer is unsized: no read or write of it is possible (R40, R121, R213). -/
def Buffer.unsized (B : Buffer) : Bool := B.size == 0

/-- An integer delay outside `[0, SIZE[b] - 1]` (R214). -/
def Buffer.delayBad (B : Buffer) (n : Nat) : Bool := decide (B.size ≤ n)

/-- A fractional delay that is a NaN, below `0.0` or above `toS(SIZE[b] - 1)` (R214). -/
def Buffer.fracDelayBad (B : Buffer) (d : Sample) : Bool :=
  F32.isNaN d || F32.lt d F32.zero || F32.lt (F32.toS (B.size - 1)) d

/-- Cell `MEM[b][k]` of the state. -/
def State.cell (s : State) (b k : Nat) : Sample := Mem.read (s.buf b).mem k

/-- The one-pole low-pass of R146 and R167, `1.0 ⊖ p` first. It draws the NaNs numbered `q` to `q + 3`. -/
def onePole (q : Nat) (x p state : Sample) : Sample :=
  F32.add (q + 3) (F32.mul (q + 1) x (F32.sub q F32.one p)) (F32.mul (q + 2) state p)

/-- NaN draws that one `onePole` reserves. -/
def onePoleDraws : Nat := 4

/-- `Clear(b)` for each buffer of a list (R194). -/
def State.clearBuffers (s : State) (bs : List Nat) : State :=
  bs.foldl (fun t b => t.setBuf b (t.buf b).clear) s

/-! ## Responses (R15, R80) -/

/-- A port's queue with one more response. -/
def PortQueue.answer (p : PortQueue) (r : Response) : PortQueue := { p with answered := p.answered ++ [r] }

/-- The response `(ST, Q)` given to the port of the request (R15). -/
def State.respond (st : RespStatus) (q : Word) (s : State) : State :=
  match s.req.port with
  | .C => { s with portC := s.portC.answer { st := st, q := q } }
  | .P => { s with portP := s.portP.answer { st := st, q := q } }

/-- A command without a result completes: `(0, 0x00000000)`, `DOUT` unchanged (R80). -/
def State.complete (s : State) : State := s.respond .ok 0#32

/-- `result v` (R11, R80): `DOUT <- v` and the response `(0, bits(v))`. -/
def State.result (v : Sample) (s : State) : State := { s with dout := v }.respond .ok v

/-! ## Taking a fault, and the two ways a request is turned away -/

/-- `Fault(cause)` of R223, fault entry (R215): the record of the first fault and the response `(1, 0)`, nothing else.
There is no handler and no return from a fault: the faulted state is left by hardware reset only (R217). -/
def raiseFault (c : Cause) (s : State) : State := (s.recordFault c).respond .fault 0#32

/-- `REFUSED` (R217): the response `(2, 0)`, no state change. -/
def refuse (s : State) : State := s.respond .refused 0#32

/-- `DENIED` (R222): the response `(3, 0)`, no state change. -/
def deny (s : State) : State := s.respond .denied 0#32

/-- One request, one step (R223). `onP`: whether the command is permitted on port `P` (R221). `whenFaulted`: whether it
executes in the faulted state (R217). `check`: its admission checks on the state before the command (R224). `run`: its
pseudocode and its response. -/
def serve (onP whenFaulted : Bool) (check : State → Option Cause) (run : State → State) (s : State) : State :=
  if s.req.port = .P ∧ onP = false then deny s
  else if s.faulted = true ∧ whenFaulted = false then refuse s
  else
    match check s with
    | some c => raiseFault c s
    | none => run s

/-- The answer to a word that decodes to no command (R97, R211, R222, R223). -/
def illegalCommand (s : State) : State :=
  serve false false (fun _ => some .illegalCmd) (fun t => t) s

/-! ## Hardware reset (R240) -/

/-- A port after hardware reset: requests not yet answered are dropped without a response (R240). -/
def PortQueue.dropPending (p : PortQueue) : PortQueue := { p with pending := [] }

/-- Hardware reset (R240, R50): every state element takes its reset value. The parameters of the implementation are
fixed; the responses already given stay with the host; the model's counters go on (entry 13). -/
def hardwareReset (s : State) : State :=
  { State.reset with
    impl := s.impl
    portC := s.portC.dropPending
    portP := s.portP.dropPending
    sched := s.sched
    draws := s.draws }

end Sys2Proof.Machine
end

