-- ==== Sys2Proof/Machine/DelayBuffer.lean ====
section
/-! DEFINITION. The Delay Buffer commands (spec/40_delay_buffer.md): SETSIZE, WRITE, READ, READI, CLEAR. All are accepted on
port `C` only and refused in the faulted state (R217, R221). -/

namespace Sys2Proof.Machine

open Sys2Proof Host

/-- The index check of the buffer commands (R98, R212). -/
def badBuffer (b : Nat) : Bool × Cause := (decide (Config.nBuf ≤ b), .badIndex)

/-- The preparation check (R121, R213). -/
def unprepared (B : Buffer) : Bool × Cause := (B.unsized, .notPrepared)

/-- Admission of SETSIZE (R120): index, then size. -/
def setsizeCheck (b n : Nat) (s : State) : Option Cause :=
  firstFailing [badBuffer b, (decide (n = 0 ∨ s.physCap b < n), .sizeRange)]

/-- SETSIZE (R120): selects and zeroes `n` cells, resets the cursor. -/
def setsizeRun (b n : Nat) (s : State) : State := (s.setBuf b ((s.buf b).resize n)).complete

/-- `SETSIZE b, n` (R120). -/
def execSetsize (b n : Nat) (s : State) : Outcome State Fault Refusal :=
  .next (serve false false (setsizeCheck b n) (setsizeRun b n) s)

/-- Admission of WRITE (R122): index, then preparation. -/
def writeCheck (b : Nat) (s : State) : Option Cause :=
  firstFailing [badBuffer b, unprepared (s.buf b)]

/-- WRITE (R122): stores the sample of the data word bit for bit and advances the cursor. -/
def writeRun (b : Nat) (s : State) : State := (s.setBuf b ((s.buf b).push s.dataWord)).complete

/-- `WRITE b` (R122). -/
def execWrite (b : Nat) (s : State) : Outcome State Fault Refusal :=
  .next (serve false false (writeCheck b) (writeRun b) s)

/-- Admission of READ (R123): index, preparation, integer delay. -/
def readCheck (b n : Nat) (s : State) : Option Cause :=
  firstFailing [badBuffer b, unprepared (s.buf b), ((s.buf b).delayBad n, .delayRange)]

/-- READ (R123): the tap at delay `n` is the result. -/
def readRun (b n : Nat) (s : State) : State := s.result ((s.buf b).read n)

/-- `READ b, n` (R123). -/
def execRead (b n : Nat) (s : State) : Outcome State Fault Refusal :=
  .next (serve false false (readCheck b n) (readRun b n) s)

/-- Admission of READI (R125): index, preparation, fractional delay. -/
def readiCheck (b : Nat) (s : State) : Option Cause :=
  firstFailing [badBuffer b, unprepared (s.buf b), ((s.buf b).fracDelayBad s.dataWord, .delayRange)]

/-- READI (R125): the interpolated tap at the delay of the data word is the result. -/
def readiRun (b : Nat) (s : State) : State :=
  (s.advanceDraws readIDraws).result ((s.buf b).readI s.draws s.dataWord)

/-- `READI b` (R125). -/
def execReadi (b : Nat) (s : State) : Outcome State Fault Refusal :=
  .next (serve false false (readiCheck b) (readiRun b) s)

/-- Admission of CLEAR (R126): the index only. -/
def clearCheck (b : Nat) (_ : State) : Option Cause := firstFailing [badBuffer b]

/-- CLEAR (R126): zeroes the cells in use and resets the cursor. -/
def clearRun (b : Nat) (s : State) : State := (s.setBuf b (s.buf b).clear).complete

/-- `CLEAR b` (R126). -/
def execClear (b : Nat) (s : State) : Outcome State Fault Refusal :=
  .next (serve false false (clearCheck b) (clearRun b) s)

end Sys2Proof.Machine
end

