-- ==== Sys2Proof/Machine/Stages.lean ====
section
/-! DEFINITION. The stage commands (spec/41_allpass_comb.md): APF and COMB. Both are accepted on port `C` only and refused
in the faulted state (R217, R221). -/

namespace Sys2Proof.Machine

open Sys2Proof Host

/-- Admission of APF (R141): index, preparation, the delay register against the buffer's size. -/
def apfCheck (i : Nat) (s : State) : Option Cause :=
  firstFailing [(decide (Config.nAp ≤ i), .badIndex), ((s.buf (apBuf i)).unsized, .notPrepared),
    ((s.buf (apBuf i)).delayBad (s.apDelay i), .delayRange)]

/-- The tap `d` of APF (R141). -/
def apfTap (i : Nat) (s : State) : Sample := (s.buf (apBuf i)).read (s.apDelay i)

/-- The value APF writes into its buffer, `x ⊕ (d ⊗ AP_GAIN)` (R141). -/
def apfStored (i : Nat) (s : State) : Sample :=
  F32.add (s.draws + 1) s.dataWord (F32.mul s.draws (apfTap i s) Config.apGain)

/-- The result of APF, `d ⊖ (x ⊗ AP_GAIN)` (R141). -/
def apfResult (i : Nat) (s : State) : Sample :=
  F32.sub (s.draws + 3) (apfTap i s) (F32.mul (s.draws + 2) s.dataWord Config.apGain)

/-- APF (R141): read, write, result. -/
def apfRun (i : Nat) (s : State) : State :=
  ((s.setBuf (apBuf i) ((s.buf (apBuf i)).push (apfStored i s))).advanceDraws 4).result (apfResult i s)

/-- `APF i` (R141). -/
def execApf (i : Nat) (s : State) : Outcome State Fault Refusal :=
  .next (serve false false (apfCheck i) (apfRun i) s)

/-- Admission of COMB (R145): index, preparation, the delay register against the buffer's size. -/
def combCheck (j : Nat) (s : State) : Option Cause :=
  firstFailing [(decide (Config.nComb ≤ j), .badIndex), ((s.buf (cBuf j)).unsized, .notPrepared),
    ((s.buf (cBuf j)).delayBad (s.combDelay j), .delayRange)]

/-- The tap `d` of COMB, its result (R145). -/
def combTap (j : Nat) (s : State) : Sample := (s.buf (cBuf j)).read (s.combDelay j)

/-- The damped tap `filt` of COMB (R145, R146). -/
def combFiltered (j : Nat) (s : State) : Sample :=
  onePole s.draws (combTap j s) (s.combDamp j) (s.combLast j)

/-- The value COMB writes into its buffer, `x ⊕ (filt ⊗ COMB_FB[j])` (R145). -/
def combStored (j : Nat) (s : State) : Sample :=
  F32.add (s.draws + onePoleDraws + 1) s.dataWord
    (F32.mul (s.draws + onePoleDraws) (combFiltered j s) (s.combFb j))

/-- COMB (R145): read, filter, persist, write; the result is the undamped tap. -/
def combRun (j : Nat) (s : State) : State :=
  (((s.setCombLast j (combFiltered j s)).setBuf (cBuf j)
    ((s.buf (cBuf j)).push (combStored j s))).advanceDraws (onePoleDraws + 2)).result (combTap j s)

/-- `COMB j` (R145). -/
def execComb (j : Nat) (s : State) : Outcome State Fault Refusal :=
  .next (serve false false (combCheck j) (combRun j) s)

end Sys2Proof.Machine
end

