-- ==== Sys2Proof/Machine/Registers.lean ====
section
/-! DEFINITION. The register space (spec/10_state.md R24, R25, R30 to R39, R45): which address names which register, what
reading one gives, what writing one stores. -/

namespace Sys2Proof.Machine

open Sys2Proof

/-- The registers of R30's map. An index comes from `regAt`, which keeps it below its count. -/
inductive Reg where
  | id
  | config
  | status
  | fcmd
  | fdata
  | dout
  | apGain
  | tapeBase
  | flutDepth
  | flutInc
  | flutPhase
  | modDly
  | tapeTone
  | tapeFb
  | tapeDrive
  | toneState (c : Nat)
  | size (b : Nat)
  | cur (b : Nat)
  | physCap (b : Nat)
  | apDelay (i : Nat)
  | combDelay (j : Nat)
  | combFb (j : Nat)
  | combDamp (j : Nat)
  | combLast (j : Nat)
  deriving DecidableEq, Repr

/-- The addresses 0x000 to 0x019 of R30. -/
def regLow (a : Nat) : Option Reg :=
  match a with
  | 0x000 => some .id
  | 0x001 => some .config
  | 0x002 => some .status
  | 0x003 => some .fcmd
  | 0x004 => some .fdata
  | 0x005 => some .dout
  | 0x006 => some .apGain
  | 0x010 => some .tapeBase
  | 0x011 => some .flutDepth
  | 0x012 => some .flutInc
  | 0x013 => some .flutPhase
  | 0x014 => some .modDly
  | 0x015 => some .tapeTone
  | 0x016 => some .tapeFb
  | 0x017 => some .tapeDrive
  | 0x018 => some (.toneState 0)
  | 0x019 => some (.toneState 1)
  | _ => none

/-- The three registers of a buffer at offset `o` from 0x100 (R30, R39). -/
def regBuffer (o : Nat) : Option Reg :=
  match o % 4 with
  | 0 => some (.size (o / 4))
  | 1 => some (.cur (o / 4))
  | 2 => some (.physCap (o / 4))
  | _ => none

/-- The four registers of a comb stage at offset `o` from 0x300 (R30). -/
def regComb (o : Nat) : Option Reg :=
  match o % 4 with
  | 0 => some (.combDelay (o / 4))
  | 1 => some (.combFb (o / 4))
  | 2 => some (.combDamp (o / 4))
  | _ => some (.combLast (o / 4))

/-- The register at address `a`; `none` where the address is unmapped (R30, R45). -/
def regAt (a : Nat) : Option Reg :=
  if a < 0x100 then regLow a
  else if a < 0x100 + 4 * Config.nBuf then regBuffer (a - 0x100)
  else if 0x200 ≤ a ∧ a < 0x200 + Config.nAp then some (.apDelay (a - 0x200))
  else if 0x300 ≤ a ∧ a < 0x300 + 4 * Config.nComb then regComb (a - 0x300)
  else none

/-- The access class of a register: `true` for `RW`, `false` for `RO` (R24, R30). -/
def Reg.writable : Reg → Bool
  | .id => false
  | .config => false
  | .status => false
  | .fcmd => false
  | .fdata => false
  | .dout => false
  | .apGain => false
  | .tapeBase => true
  | .flutDepth => true
  | .flutInc => true
  | .flutPhase => false
  | .modDly => false
  | .tapeTone => true
  | .tapeFb => true
  | .tapeDrive => true
  | .toneState _ => false
  | .size _ => false
  | .cur _ => false
  | .physCap _ => false
  | .apDelay _ => true
  | .combDelay _ => true
  | .combFb _ => true
  | .combDamp _ => true
  | .combLast _ => false

/-- `zext_32` of a `U20` (R10, R30). -/
def zext32 (n : Nat) : Word := BitVec.ofNat 32 n

/-- `REG[a]` as `RDREG` returns it (R30, R192). -/
def State.readReg (s : State) : Reg → Word
  | .id => Config.idWord
  | .config => Config.configWord
  | .status => s.record.status
  | .fcmd => s.record.fcmd
  | .fdata => s.record.fdata
  | .dout => s.dout
  | .apGain => Config.apGain
  | .tapeBase => s.params.tapeBase
  | .flutDepth => s.params.flutDepth
  | .flutInc => s.params.flutInc
  | .flutPhase => s.filters.flutPhase
  | .modDly => s.filters.modDly
  | .tapeTone => s.params.tapeTone
  | .tapeFb => s.params.tapeFb
  | .tapeDrive => s.params.tapeDrive
  | .toneState c => s.toneState c
  | .size b => zext32 (s.buf b).size
  | .cur b => zext32 (s.buf b).cur
  | .physCap b => zext32 (s.physCap b)
  | .apDelay i => zext32 (s.apDelay i)
  | .combDelay j => zext32 (s.combDelay j)
  | .combFb j => s.combFb j
  | .combDamp j => s.combDamp j
  | .combLast j => s.combLast j

/-- A feedback coefficient brought into `[0, FB_MAX]` (R25). -/
def legalFb (w : Word) : Sample := F32.clampS w F32.zero Config.fbMax

/-- A one-pole coefficient brought into `[0, POLE_MAX]` (R25). -/
def legalPole (w : Word) : Sample := F32.clampS w F32.zero Config.poleMax

/-- A tape delay or flutter depth brought into `[0, DLY_MAX]` (R25). -/
def legalDelay (w : Word) : Sample := F32.clampS w F32.zero Config.dlyMax

/-- A flutter increment brought into `[0, PI]` (R25). -/
def legalInc (w : Word) : Sample := F32.clampS w F32.zero Config.pi

/-- A drive brought into `[DRIVE_MIN, DRIVE_MAX]` (R25). -/
def legalDriveValue (w : Word) : Sample := F32.clampS w Config.driveMin Config.driveMax

/-- `REG[a] <- legal(a, D)` on the `RW` registers (R25, R193); an `RO` register is left as it is. -/
def Params.writeReg (p : Params) (r : Reg) (w : Word) : Params :=
  match r with
  | .tapeBase => { p with tapeBase := legalDelay w }
  | .flutDepth => { p with flutDepth := legalDelay w }
  | .flutInc => { p with flutInc := legalInc w }
  | .tapeTone => { p with tapeTone := legalPole w }
  | .tapeFb => { p with tapeFb := legalFb w }
  | .tapeDrive => { p with tapeDrive := legalDriveValue w }
  | .apDelay i => { p with apDelay := p.apDelay.setIfInBounds i (F32.clampI w) }
  | .combDelay j => { p with combDelay := p.combDelay.setIfInBounds j (F32.clampI w) }
  | .combFb j => { p with combFb := p.combFb.setIfInBounds j (legalFb w) }
  | .combDamp j => { p with combDamp := p.combDamp.setIfInBounds j (legalPole w) }
  | .id => p
  | .config => p
  | .status => p
  | .fcmd => p
  | .fdata => p
  | .dout => p
  | .apGain => p
  | .flutPhase => p
  | .modDly => p
  | .toneState _ => p
  | .size _ => p
  | .cur _ => p
  | .physCap _ => p
  | .combLast _ => p

/-- A register write of the state. -/
def State.writeReg (s : State) (r : Reg) (w : Word) : State := { s with params := s.params.writeReg r w }

/-- The address is mapped (R30, R45). -/
def addrMapped (a : Nat) : Bool := (regAt a).isSome

/-- The address is mapped and names an `RW` register (R24). -/
def addrWritable (a : Nat) : Bool := (regAt a).any Reg.writable

end Sys2Proof.Machine
end

