-- ==== Sys2Proof/Machine/System.lean ====
section
/-! DEFINITION. The system commands (spec/43_system.md): NOP, RDREG, WRREG, SRESET. -/

namespace Sys2Proof.Machine

open Sys2Proof Host

/-- `NOP` (R190): nothing changes; it executes in the faulted state (R217); port `C` only. -/
def execNop (s : State) : Outcome State Fault Refusal :=
  .next (serve false true (fun _ => none) State.complete s)

/-- Admission of RDREG (R192, R218): the address is mapped. -/
def rdregCheck (a : Nat) (_ : State) : Option Cause := firstFailing [(!addrMapped a, .badReg)]

/-- RDREG (R192): the register's word is the response's `Q`; no state changes, `DOUT` neither (R80). -/
def rdregRun (a : Nat) (s : State) : State :=
  match regAt a with
  | some r => s.respond .ok (s.readReg r)
  | none => s

/-- `RDREG a` (R192): on port `P` where the address is mapped (R221); it executes in the faulted state (R217). -/
def execRdreg (a : Nat) (s : State) : Outcome State Fault Refusal :=
  .next (serve (addrMapped a) true (rdregCheck a) (rdregRun a) s)

/-- Admission of WRREG (R193, R218): the address is mapped and names an `RW` register. -/
def wrregCheck (a : Nat) (_ : State) : Option Cause := firstFailing [(!addrWritable a, .badReg)]

/-- WRREG (R193): the data word is brought into the register's legal range and stored. -/
def wrregRun (a : Nat) (s : State) : State :=
  match regAt a with
  | some r => (s.writeReg r s.dataWord).complete
  | none => s

/-- `WRREG a` (R193): on port `P` where the address is mapped and `RW` (R221). -/
def execWrreg (a : Nat) (s : State) : Outcome State Fault Refusal :=
  .next (serve (addrWritable a) false (wrregCheck a) (wrregRun a) s)

/-- The plate group's part of SRESET (R194): buffers 0 to 12 and every `COMB_LAST`. -/
def resetPlate (s : State) : State :=
  let t := s.clearBuffers plateBuffers
  { t with filters := { t.filters with combLast := Vector.replicate 8 F32.zero } }

/-- The tape group's part of SRESET (R194): buffers 13 and 14, every `TONE_STATE`, `FLUT_PHASE`, `MODDLY`. -/
def resetTape (s : State) : State :=
  let t := s.clearBuffers tapeBuffers
  { t with
    filters :=
      { t.filters with
        toneState := Vector.replicate 2 F32.zero
        flutPhase := F32.zero
        modDly := F32.zero } }

/-- The selected groups' processing state cleared (R194). -/
def resetGroups (m : Nat) (s : State) : State :=
  let t := if maskPlate m then resetPlate s else s
  if maskTape m then resetTape t else t

/-- `SRESET m` (R194): no admission check. -/
def execSreset (m : Nat) (s : State) : Outcome State Fault Refusal :=
  .next (serve false false (fun _ => none) (fun t => (resetGroups m t).complete) s)

end Sys2Proof.Machine
end

