-- ==== Sys2Proof/Machine/Tape.lean ====
section
/-! DEFINITION. The tape commands (spec/42_tape_flutter_sat.md): FLUT, TAPE, SAT. All are accepted on port `C` only and
refused in the faulted state (R217, R221). -/

namespace Sys2Proof.Machine

open Sys2Proof Host

/-- The phase after the advance and the wrap by one conditional subtraction of `TWO_PI` (R162, R163). It draws the NaNs
numbered `q` and `q + 1`. -/
def advancePhase (q : Nat) (phase inc : Sample) : Sample :=
  let p := F32.add q phase inc
  if F32.le Config.twoPi p then F32.sub (q + 1) p Config.twoPi else p

/-- `FLUT_PHASE` after FLUT (R162). -/
def flutPhaseNext (s : State) : Sample := advancePhase s.draws s.filters.flutPhase s.params.flutInc

/-- `MODDLY` after FLUT: `TAPE_BASE ⊕ (FLUT_DEPTH ⊗ SIN(p))` of the advanced phase (R162). -/
def flutDelay (s : State) : Sample :=
  F32.add (s.draws + 3) s.params.tapeBase
    (F32.mul (s.draws + 2) s.params.flutDepth (sinFn s.impl.sine (flutPhaseNext s)))

/-- FLUT (R162): advance the phase, latch the delay, return it. -/
def flutRun (s : State) : State :=
  ((s.setFlutter (flutPhaseNext s) (flutDelay s)).advanceDraws 4).result (flutDelay s)

/-- `FLUT` (R162): no admission check. -/
def execFlut (s : State) : Outcome State Fault Refusal :=
  .next (serve false false (fun _ => none) flutRun s)

/-- Admission of TAPE (R166): index, preparation, `MODDLY` against the buffer's size. -/
def tapeCheck (c : Nat) (s : State) : Option Cause :=
  firstFailing [(decide (Config.nTape ≤ c), .badIndex), ((s.buf (tBuf c)).unsized, .notPrepared),
    ((s.buf (tBuf c)).fracDelayBad s.filters.modDly, .delayRange)]

/-- The interpolated tap of TAPE (R166). -/
def tapeTap (c : Nat) (s : State) : Sample := (s.buf (tBuf c)).readI s.draws s.filters.modDly

/-- The tone-filtered tap of TAPE, its result (R166, R167, R168). -/
def tapeToned (c : Nat) (s : State) : Sample :=
  onePole (s.draws + readIDraws) (tapeTap c s) s.params.tapeTone (s.toneState c)

/-- The saturated value that TAPE feeds back (R166, R168). -/
def tapeSaturated (c : Nat) (s : State) : Sample :=
  satFn s.impl.sat (s.draws + readIDraws + onePoleDraws) (tapeToned c s) s.params.tapeDrive

/-- The value TAPE writes into its buffer, `x ⊕ (s ⊗ TAPE_FB)` (R166). -/
def tapeStored (c : Nat) (s : State) : Sample :=
  F32.add (s.draws + readIDraws + onePoleDraws + satDraws + 1) s.dataWord
    (F32.mul (s.draws + readIDraws + onePoleDraws + satDraws) (tapeSaturated c s) s.params.tapeFb)

/-- NaN draws that one TAPE reserves. -/
def tapeDraws : Nat := readIDraws + onePoleDraws + satDraws + 2

/-- TAPE (R166): interpolated read, tone filter, saturation, write; the result is the toned tap. -/
def tapeRun (c : Nat) (s : State) : State :=
  (((s.setToneState c (tapeToned c s)).setBuf (tBuf c)
    ((s.buf (tBuf c)).push (tapeStored c s))).advanceDraws tapeDraws).result (tapeToned c s)

/-- `TAPE c` (R166). -/
def execTape (c : Nat) (s : State) : Outcome State Fault Refusal :=
  .next (serve false false (tapeCheck c) (tapeRun c) s)

/-- SAT (R173): the result is `SATFN(x, TAPE_DRIVE)`. -/
def satRun (s : State) : State :=
  (s.advanceDraws satDraws).result (satFn s.impl.sat s.draws s.dataWord s.params.tapeDrive)

/-- `SAT` (R173): no admission check. -/
def execSat (s : State) : Outcome State Fault Refusal :=
  .next (serve false false (fun _ => none) satRun s)

end Sys2Proof.Machine
end

