-- ==== Sys2Proof/Syntax.lean ====
section
/-! DEFINITION. The 14 commands of the command set FDIU-CS 1.0 (spec/30_encoding.md R96), one constructor a row of
spec/opcode_table.json. Operands are the unsigned integers of R92; `WellFormed` bounds them by their fields' widths. -/

namespace Sys2Proof

/-- A decoded command. The data word `D` of a request is no part of it (R90, R93). -/
inductive Instr where
  | nop
  | setsize (b n : Nat)
  | write (b : Nat)
  | read (b n : Nat)
  | readi (b : Nat)
  | clear (b : Nat)
  | apf (i : Nat)
  | comb (j : Nat)
  | flut
  | tape (c : Nat)
  | sat
  | rdreg (a : Nat)
  | wrreg (a : Nat)
  | sreset (m : Nat)
  deriving DecidableEq, Repr

end Sys2Proof
end

