-- ==== Sys2Proof/Machine/Dispatch.lean ====
section
/-! DEFINITION. One arm per command: each is one direct call of the command's meaning. -/

namespace Sys2Proof.Machine

open Sys2Proof

def exec (i : Instr) (s : State) : Host.Outcome State Fault Refusal :=
  match i with
  | .nop => Sys2Proof.Machine.execNop s
  | .setsize b n => Sys2Proof.Machine.execSetsize b n s
  | .write b => Sys2Proof.Machine.execWrite b s
  | .read b n => Sys2Proof.Machine.execRead b n s
  | .readi b => Sys2Proof.Machine.execReadi b s
  | .clear b => Sys2Proof.Machine.execClear b s
  | .apf k => Sys2Proof.Machine.execApf k s
  | .comb j => Sys2Proof.Machine.execComb j s
  | .flut => Sys2Proof.Machine.execFlut s
  | .tape c => Sys2Proof.Machine.execTape c s
  | .sat => Sys2Proof.Machine.execSat s
  | .rdreg a => Sys2Proof.Machine.execRdreg a s
  | .wrreg a => Sys2Proof.Machine.execWrreg a s
  | .sreset m => Sys2Proof.Machine.execSreset m s

end Sys2Proof.Machine
end

