-- ==== Sys2Proof/WellFormed.lean ====
section
/-! DEFINITION. Which terms of `Instr` a command word can hold: each operand fits its field (spec/30_encoding.md R91,
R92). An index at or above the count of its kind is well formed: R98 makes it a fault of the command, not of the encoding. -/

namespace Sys2Proof

/-- `idx` is the 6-bit field `W[25:20]`. -/
abbrev fitsIdx (n : Nat) : Prop := n < 64

/-- `imm` is the 20-bit field `W[19:0]`. -/
abbrev fitsImm (n : Nat) : Prop := n < 1048576

/-- `addr` is the 12-bit field `W[11:0]`. -/
abbrev fitsAddr (a : Nat) : Prop := a < 4096

/-- `mask` is the 2-bit field `W[1:0]`. -/
abbrev fitsMask (m : Nat) : Prop := m < 4

/-- Every operand of the command fits its field, as a check that can be run. -/
def wellFormed : Instr → Bool
  | .nop => true
  | .setsize b n => decide (fitsIdx b ∧ fitsImm n)
  | .write b => decide (fitsIdx b)
  | .read b n => decide (fitsIdx b ∧ fitsImm n)
  | .readi b => decide (fitsIdx b)
  | .clear b => decide (fitsIdx b)
  | .apf i => decide (fitsIdx i)
  | .comb j => decide (fitsIdx j)
  | .flut => true
  | .tape c => decide (fitsIdx c)
  | .sat => true
  | .rdreg a => decide (fitsAddr a)
  | .wrreg a => decide (fitsAddr a)
  | .sreset m => decide (fitsMask m)

/-- Every operand of the command fits its field. -/
abbrev WellFormed (i : Instr) : Prop := wellFormed i = true

end Sys2Proof
end

