-- ==== Sys2Proof/Decode.lean ====
section
/-! DEFINITION. Decoding and encoding of command words (spec/30_encoding.md). The decoder is total on all 2^32 words and
reads `W` alone (R94); a word it refuses is refused by name (the two cases of R97). -/

namespace Sys2Proof

/-- The two ways a word is illegal (R97). -/
inductive DecodeError where
  /-- `op` is one of the 50 unassigned values (R95). -/
  | unassignedOpcode
  /-- `op` is assigned and a `zero` field of its format is not 0. -/
  | nonzeroField
  deriving DecidableEq, Repr

/-- `op = W[31:26]` (R91). -/
def opField (w : Word) : Nat := (w.extractLsb' 26 6).toNat

/-- `idx = W[25:20]` (R92). -/
def idxField (w : Word) : Nat := (w.extractLsb' 20 6).toNat

/-- `imm = W[19:0]`, zero-extended (R92); the `zero` field of format X. -/
def immField (w : Word) : Nat := (w.extractLsb' 0 20).toNat

/-- `addr = W[11:0]` (R92). -/
def addrField (w : Word) : Nat := (w.extractLsb' 0 12).toNat

/-- `mask = W[1:0]` (R92). -/
def maskField (w : Word) : Nat := (w.extractLsb' 0 2).toNat

/-- `W[25:12]`, the `zero` field of format A (R91). -/
def zeroFieldA (w : Word) : Nat := (w.extractLsb' 12 14).toNat

/-- `W[25:2]`, the `zero` field of format M (R91). -/
def zeroFieldM (w : Word) : Nat := (w.extractLsb' 2 24).toNat

/-- A command whose `zero` field must be 0 (R97). -/
def requireZero (zeroField : Nat) (i : Instr) : Except DecodeError Instr :=
  if zeroField = 0 then .ok i else .error .nonzeroField

/-- Format Z: `idx` and `imm` are `zero` fields (R91). -/
def formatZ (w : Word) (i : Instr) : Except DecodeError Instr :=
  requireZero (idxField w + immField w) i

/-- Format X: the low 20 bits are the `zero` field (R91). -/
def formatX (w : Word) (f : Nat → Instr) : Except DecodeError Instr :=
  requireZero (immField w) (f (idxField w))

/-- Format I: index and immediate (R91). -/
def formatI (w : Word) (f : Nat → Nat → Instr) : Except DecodeError Instr :=
  .ok (f (idxField w) (immField w))

/-- Format A: register address (R91). -/
def formatA (w : Word) (f : Nat → Instr) : Except DecodeError Instr :=
  requireZero (zeroFieldA w) (f (addrField w))

/-- Format M: mask (R91). -/
def formatM (w : Word) (f : Nat → Instr) : Except DecodeError Instr :=
  requireZero (zeroFieldM w) (f (maskField w))

/-- `Decode(W)` of R94, by the opcode map of R95 and the formats of R96. -/
def decode (w : Word) : Except DecodeError Instr :=
  match opField w with
  | 0x00 => formatZ w .nop
  | 0x01 => formatI w .setsize
  | 0x02 => formatX w .write
  | 0x03 => formatI w .read
  | 0x04 => formatX w .readi
  | 0x05 => formatX w .clear
  | 0x08 => formatX w .apf
  | 0x09 => formatX w .comb
  | 0x0C => formatZ w .flut
  | 0x0D => formatX w .tape
  | 0x0E => formatZ w .sat
  | 0x10 => formatA w .rdreg
  | 0x11 => formatA w .wrreg
  | 0x12 => formatM w .sreset
  | _ => .error .unassignedOpcode

/-- `op ++ idx ++ imm`, the layout of formats I, X and Z (R91). -/
def encodeIX (op idx imm : Nat) : Word :=
  BitVec.ofNat 6 op ++ BitVec.ofNat 6 idx ++ BitVec.ofNat 20 imm

/-- `op ++ 0 ++ addr`, the layout of format A (R91). -/
def encodeA (op addr : Nat) : Word :=
  BitVec.ofNat 6 op ++ 0#14 ++ BitVec.ofNat 12 addr

/-- `op ++ 0 ++ mask`, the layout of format M (R91). -/
def encodeM (op mask : Nat) : Word :=
  BitVec.ofNat 6 op ++ 0#24 ++ BitVec.ofNat 2 mask

/-- The command word of a command (R91, R96). -/
def encode : Instr → Word
  | .nop => encodeIX 0x00 0 0
  | .setsize b n => encodeIX 0x01 b n
  | .write b => encodeIX 0x02 b 0
  | .read b n => encodeIX 0x03 b n
  | .readi b => encodeIX 0x04 b 0
  | .clear b => encodeIX 0x05 b 0
  | .apf i => encodeIX 0x08 i 0
  | .comb j => encodeIX 0x09 j 0
  | .flut => encodeIX 0x0C 0 0
  | .tape c => encodeIX 0x0D c 0
  | .sat => encodeIX 0x0E 0 0
  | .rdreg a => encodeA 0x10 a
  | .wrreg a => encodeA 0x11 a
  | .sreset m => encodeM 0x12 m

/-- One row of R96's table: a word is the command iff `W & mask = match`. -/
structure EncodingRow where
  mnemonic : String
  pattern : Word
  mask : Word
  deriving DecidableEq, Repr

/-- The table of R96, row by row. -/
def encodingTable : List EncodingRow :=
  [⟨"NOP", 0x00000000#32, 0xFFFFFFFF#32⟩,
   ⟨"SETSIZE", 0x04000000#32, 0xFC000000#32⟩,
   ⟨"WRITE", 0x08000000#32, 0xFC0FFFFF#32⟩,
   ⟨"READ", 0x0C000000#32, 0xFC000000#32⟩,
   ⟨"READI", 0x10000000#32, 0xFC0FFFFF#32⟩,
   ⟨"CLEAR", 0x14000000#32, 0xFC0FFFFF#32⟩,
   ⟨"APF", 0x20000000#32, 0xFC0FFFFF#32⟩,
   ⟨"COMB", 0x24000000#32, 0xFC0FFFFF#32⟩,
   ⟨"FLUT", 0x30000000#32, 0xFFFFFFFF#32⟩,
   ⟨"TAPE", 0x34000000#32, 0xFC0FFFFF#32⟩,
   ⟨"SAT", 0x38000000#32, 0xFFFFFFFF#32⟩,
   ⟨"RDREG", 0x40000000#32, 0xFFFFF000#32⟩,
   ⟨"WRREG", 0x44000000#32, 0xFFFFF000#32⟩,
   ⟨"SRESET", 0x48000000#32, 0xFFFFFFFC#32⟩]

/-- The mnemonic of a command in R96's table. -/
def mnemonicOf : Instr → String
  | .nop => "NOP"
  | .setsize _ _ => "SETSIZE"
  | .write _ => "WRITE"
  | .read _ _ => "READ"
  | .readi _ => "READI"
  | .clear _ => "CLEAR"
  | .apf _ => "APF"
  | .comb _ => "COMB"
  | .flut => "FLUT"
  | .tape _ => "TAPE"
  | .sat => "SAT"
  | .rdreg _ => "RDREG"
  | .wrreg _ => "WRREG"
  | .sreset _ => "SRESET"

/-- A word matches a row of R96's table. -/
def EncodingRow.matchesWord (r : EncodingRow) (w : Word) : Bool := w &&& r.mask == r.pattern

/-- The command read from a table row's word, whose bits above `nbits` are 0. The FDIU stores no command words (R22,
R77), so there is no byte order to apply: the 32-bit word goes to the decoder as it is (entry 9). -/
def decodeTableWord (nbits w : Nat) : Option Instr :=
  match decode (BitVec.ofNat 32 (w % 2 ^ nbits)) with
  | .ok i => some i
  | .error _ => none

end Sys2Proof
end

