-- ==== Sys2Proof/Machine/Ports.lean ====
section
/-! DEFINITION. The two ports and the sequencer's choice between them (spec/00_scope.md R14, R15; spec/20_memory.md R71). -/

namespace Sys2Proof.Machine

open Sys2Proof

/-- The queue of a port. -/
def State.queue (s : State) : Port → PortQueue
  | .C => s.portC
  | .P => s.portP

/-- Both ports have a pending request, so that the order is the arbiter's choice (R71). -/
def State.contended (s : State) : Bool := !s.portC.pending.isEmpty && !s.portP.pending.isEmpty

/-- The arbiter's choice where both ports have a pending request: the schedule's next entry, or a free value where the
schedule is used up (R71, V3; entry 10). -/
def State.arbitrate (s : State) : Port :=
  match s.sched with
  | p :: _ => p
  | [] => if Config.freeGrant s.draws then .P else .C

/-- The port whose request is taken next; `none` where nothing is pending (R14, R71). -/
def State.grant (s : State) : Option Port :=
  match s.portC.pending, s.portP.pending with
  | [], [] => none
  | _ :: _, [] => some .C
  | [], _ :: _ => some .P
  | _ :: _, _ :: _ => some s.arbitrate

/-- The state after an arbitration: the schedule's entry, or one free value, is used up. -/
def State.spendChoice (s : State) : State :=
  match s.sched with
  | _ :: rest => { s with sched := rest }
  | [] => { s with draws := s.draws + 1 }

/-- A port's queue without its oldest request. -/
def PortQueue.pop (p : PortQueue) : PortQueue := { p with pending := p.pending.tail }

/-- The state in which the oldest request of port `p` is the one being executed (R15, R223; entry 11). -/
def State.take (s : State) (p : Port) : State :=
  let t := if s.contended then s.spendChoice else s
  match p, s.portC.pending, s.portP.pending with
  | .C, r :: _, _ => { t with portC := s.portC.pop, req := { port := .C, word := r.word, data := r.data } }
  | .P, _, r :: _ => { t with portP := s.portP.pop, req := { port := .P, word := r.word, data := r.data } }
  | _, _, _ => t

/-- `(W, D)` put at the head of port `C`'s queue, so that it is the request taken next. The choice of port `C` is added
to the schedule where port `P` has a pending request. -/
def State.presentFirst (s : State) (w d : Word) : State :=
  { s with
    portC := { s.portC with pending := { word := w, data := d } :: s.portC.pending }
    sched := if s.portP.pending.isEmpty then s.sched else .C :: s.sched }

end Sys2Proof.Machine
end

