-- ==== Sys2Proof/Machine/Step.lean ====
section
/-! DEFINITION. One step of the sequencer: hardware reset, or nothing where no request is pending, or one request taken,
decoded, executed and answered (spec/20_memory.md R70, R71; spec/60_exceptions.md R223). -/

namespace Sys2Proof.Machine

open Sys2Proof

/-- The request in `req` decoded and executed (R223). -/
def execRequest (s : State) : Host.Outcome State Fault Refusal :=
  match decode s.req.word with
  | .ok i => exec i s
  | .error _ => .next (illegalCommand s)

/-- One step. With no pending request the sequencer waits: nothing changes (entry 12). -/
def step (s : State) : Host.Outcome State Fault Refusal :=
  if s.resetLine then .next (hardwareReset s)
  else
    match s.grant with
    | none => .next s
    | some p => execRequest (s.take p)

/-- The command word `w`, with data word 0, as the next request the sequencer takes: the host presenting it on port `C`
with the reset line released (entry 9). -/
def State.withFetchWord (s : State) (nbits w : Nat) : State :=
  { s with resetLine := false }.presentFirst (BitVec.ofNat 32 (w % 2 ^ nbits)) 0#32

end Sys2Proof.Machine
end

