-- ==== Sys2Proof/Laws/PerInstr.lean ====
section
/-! SUPPORT. Families of statements made instruction by instruction. `MatchesRow`: the word of a command matches the row
of R96's table that has its mnemonic. -/

namespace Sys2Proof.Laws.MatchesRow

open Sys2Proof

/-- The row of the command's mnemonic stands in R96's table and its `match` and `mask` accept the command's word. -/
def Statement (i : Instr) : Prop :=
  ∃ r ∈ encodingTable, r.mnemonic = mnemonicOf i ∧ r.matchesWord (encode i) = true

/-- `W & mask` of a word laid out as `op ++ idx ++ imm`, the mask laid out in the same way. -/
theorem and_layout (op idx imm : Nat) (m1 m2 : BitVec 6) (m3 : BitVec 20) :
    encodeIX op idx imm &&& (m1 ++ m2 ++ m3) =
      (BitVec.ofNat 6 op &&& m1) ++ (BitVec.ofNat 6 idx &&& m2) ++ (BitVec.ofNat 20 imm &&& m3) := by
  unfold encodeIX
  rw [BitVec.and_append, BitVec.and_append]

/-- Format I: every word with the opcode matches. -/
theorem match_formatI (op idx imm : Nat) :
    encodeIX op idx imm &&& 0xFC000000#32 = encodeIX op 0 0 := by
  have hm : (0xFC000000#32 : Word) = 0x3F#6 ++ 0#6 ++ 0#20 := by decide
  have h1 : BitVec.ofNat 6 op &&& 0x3F#6 = BitVec.ofNat 6 op := BitVec.and_allOnes (w := 6)
  rw [hm, and_layout, h1]
  simp [encodeIX]

/-- Format X: the index is free, the low 20 bits are 0. -/
theorem match_formatX (op idx : Nat) :
    encodeIX op idx 0 &&& 0xFC0FFFFF#32 = encodeIX op 0 0 := by
  have hm : (0xFC0FFFFF#32 : Word) = 0x3F#6 ++ 0#6 ++ 0xFFFFF#20 := by decide
  have h1 : BitVec.ofNat 6 op &&& 0x3F#6 = BitVec.ofNat 6 op := BitVec.and_allOnes (w := 6)
  rw [hm, and_layout, h1]
  simp [encodeIX]

/-- Format A: the address is free, the bits between are 0. -/
theorem match_formatA (op addr : Nat) : encodeA op addr &&& 0xFFFFF000#32 = encodeA op 0 := by
  have hm : (0xFFFFF000#32 : Word) = 0x3F#6 ++ 0x3FFF#14 ++ 0#12 := by decide
  have h1 : BitVec.ofNat 6 op &&& 0x3F#6 = BitVec.ofNat 6 op := BitVec.and_allOnes (w := 6)
  unfold encodeA
  rw [hm, BitVec.and_append, BitVec.and_append, h1]
  simp

/-- Format M: the mask is free, the bits between are 0. -/
theorem match_formatM (op m : Nat) : encodeM op m &&& 0xFFFFFFFC#32 = encodeM op 0 := by
  have hm : (0xFFFFFFFC#32 : Word) = 0x3F#6 ++ 0xFFFFFF#24 ++ 0#2 := by decide
  have h1 : BitVec.ofNat 6 op &&& 0x3F#6 = BitVec.ofNat 6 op := BitVec.and_allOnes (w := 6)
  unfold encodeM
  rw [hm, BitVec.and_append, BitVec.and_append, h1]
  simp

/-- A row of the table that accepts the command's word proves its statement. -/
theorem of_row {i : Instr} (r : EncodingRow) (hr : r ∈ encodingTable) (hm : r.mnemonic = mnemonicOf i)
    (h : encode i &&& r.mask = r.pattern) : Statement i :=
  ⟨r, hr, hm, by simpa [EncodingRow.matchesWord] using h⟩

theorem nop : Statement .nop :=
  of_row ⟨"NOP", 0x00000000#32, 0xFFFFFFFF#32⟩ (by decide) rfl (by decide)

theorem setsize (b n : Nat) : Statement (.setsize b n) :=
  of_row ⟨"SETSIZE", 0x04000000#32, 0xFC000000#32⟩ (by decide) rfl (match_formatI 0x01 b n)

theorem write (b : Nat) : Statement (.write b) :=
  of_row ⟨"WRITE", 0x08000000#32, 0xFC0FFFFF#32⟩ (by decide) rfl (match_formatX 0x02 b)

theorem read (b n : Nat) : Statement (.read b n) :=
  of_row ⟨"READ", 0x0C000000#32, 0xFC000000#32⟩ (by decide) rfl (match_formatI 0x03 b n)

theorem readi (b : Nat) : Statement (.readi b) :=
  of_row ⟨"READI", 0x10000000#32, 0xFC0FFFFF#32⟩ (by decide) rfl (match_formatX 0x04 b)

theorem clear (b : Nat) : Statement (.clear b) :=
  of_row ⟨"CLEAR", 0x14000000#32, 0xFC0FFFFF#32⟩ (by decide) rfl (match_formatX 0x05 b)

theorem apf (i : Nat) : Statement (.apf i) :=
  of_row ⟨"APF", 0x20000000#32, 0xFC0FFFFF#32⟩ (by decide) rfl (match_formatX 0x08 i)

theorem comb (j : Nat) : Statement (.comb j) :=
  of_row ⟨"COMB", 0x24000000#32, 0xFC0FFFFF#32⟩ (by decide) rfl (match_formatX 0x09 j)

theorem flut : Statement .flut :=
  of_row ⟨"FLUT", 0x30000000#32, 0xFFFFFFFF#32⟩ (by decide) rfl (by decide)

theorem tape (c : Nat) : Statement (.tape c) :=
  of_row ⟨"TAPE", 0x34000000#32, 0xFC0FFFFF#32⟩ (by decide) rfl (match_formatX 0x0D c)

theorem sat : Statement .sat :=
  of_row ⟨"SAT", 0x38000000#32, 0xFFFFFFFF#32⟩ (by decide) rfl (by decide)

theorem rdreg (a : Nat) : Statement (.rdreg a) :=
  of_row ⟨"RDREG", 0x40000000#32, 0xFFFFF000#32⟩ (by decide) rfl (match_formatA 0x10 a)

theorem wrreg (a : Nat) : Statement (.wrreg a) :=
  of_row ⟨"WRREG", 0x44000000#32, 0xFFFFF000#32⟩ (by decide) rfl (match_formatA 0x11 a)

theorem sreset (m : Nat) : Statement (.sreset m) :=
  of_row ⟨"SRESET", 0x48000000#32, 0xFFFFFFFC#32⟩ (by decide) rfl (match_formatM 0x12 m)

end Sys2Proof.Laws.MatchesRow
end

