-- ==== Sys2Proof/Safety.lean ====
section
/-! DEFINITION. What counts as a good state and a good run: the invariants the spec claims of every reachable state
(spec/10_state.md R25, R33, R41, R44; spec/42_tape_flutter_sat.md R163, R164), what a good final state is
(spec/60_exceptions.md R216), and the words in which the statements say what a command leaves unchanged. -/

namespace Sys2Proof.Machine

open Sys2Proof

/-! ## Invariants -/

/-- Not a NaN and within `[lo, hi]` by value. -/
def inRange (lo hi v : Sample) : Bool := F32.le lo v && F32.le v hi

/-- R41(a), R41(b): the size within the physical depth, the cursor within the size. -/
abbrev Buffer.cursorInv (cap : Nat) (B : Buffer) : Prop :=
  B.size ≤ cap ∧ (B.size = 0 → B.cur = 0) ∧ (B.size ≠ 0 → B.cur < B.size)

/-- The memory is canonical and names existing cells only (R60; entry 1). -/
abbrev Buffer.memInv (cap : Nat) (B : Buffer) : Prop :=
  Mem.wf B.mem = true ∧ ∀ c ∈ B.mem, c.1 < cap

/-- R6: every `PHYSCAP[b]` is admissible. -/
abbrev State.ImplInv (s : State) : Prop := ∀ b < 15, 1 ≤ s.physCap b ∧ s.physCap b ≤ Config.u20Max

/-- Every Delay Buffer meets R41(a), R41(b) and has a canonical memory. -/
abbrev State.BufferInv (s : State) : Prop :=
  ∀ b < 15, (s.buf b).cursorInv (s.physCap b) ∧ (s.buf b).memInv (s.physCap b)

/-- R25: every `RW` register holds a legal value. -/
abbrev State.ParamInv (s : State) : Prop :=
  (∀ i < 4, s.apDelay i ≤ Config.u20Max) ∧
  (∀ j < 8, s.combDelay j ≤ Config.u20Max ∧
    inRange F32.zero Config.fbMax (s.combFb j) = true ∧
    inRange F32.zero Config.poleMax (s.combDamp j) = true) ∧
  inRange F32.zero Config.dlyMax s.params.tapeBase = true ∧
  inRange F32.zero Config.dlyMax s.params.flutDepth = true ∧
  inRange F32.zero Config.pi s.params.flutInc = true ∧
  inRange F32.zero Config.poleMax s.params.tapeTone = true ∧
  inRange F32.zero Config.fbMax s.params.tapeFb = true ∧
  inRange Config.driveMin Config.driveMax s.params.tapeDrive = true

/-- R44, R163: `FLUT_PHASE` is not a NaN and lies in `[0, TWO_PI)`. -/
abbrev State.PhaseInv (s : State) : Prop :=
  F32.le F32.zero s.filters.flutPhase = true ∧ F32.lt s.filters.flutPhase Config.twoPi = true

/-- R164: `MODDLY` is not a NaN. -/
abbrev State.ModDlyInv (s : State) : Prop := F32.isNaN s.filters.modDly = false

/-- R33, R34: `STATUS` is 0 with an empty record, or `(cause << 8) | 1` for one of the six causes. -/
abbrev State.RecordInv (s : State) : Prop :=
  s.record = FaultRecord.reset ∨
  s.record.status ∈ [Cause.illegalCmd, .badIndex, .badReg, .sizeRange, .notPrepared, .delayRange].map Cause.statusWord

/-- The invariants of every reachable state together. -/
structure State.Inv (s : State) : Prop where
  impl : s.ImplInv
  buffers : s.BufferInv
  params : s.ParamInv
  phase : s.PhaseInv
  modDly : s.ModDlyInv
  record : s.RecordInv

/-! ## Good runs (R16, R216) -/

/-- The response a good run may contain: `OK`, or on port `P` also `DENIED` (R216). -/
def goodResponse (p : Port) (r : Response) : Bool :=
  match p with
  | .C => r.st == .ok
  | .P => r.st == .ok || r.st == .denied

/-- Every response on both ports from the given numbers of earlier responses on is good. -/
def State.allGoodSince (s : State) (nC nP : Nat) : Bool :=
  (s.portC.answered.drop nC).all (goodResponse .C) && (s.portP.answered.drop nP).all (goodResponse .P)

/-! ## What stays as it was -/

/-- The request's port has one more response, `r`, and nothing else of either port changed (R15). -/
abbrev answeredWith (s t : State) (r : Response) : Prop :=
  t.queue s.req.port = (s.queue s.req.port).answer r ∧ ∀ p, p ≠ s.req.port → t.queue p = s.queue p

/-- The implementation, the request, the schedule and the reset line are as they were. -/
abbrev sameSetting (s t : State) : Prop :=
  t.impl = s.impl ∧ t.req = s.req ∧ t.sched = s.sched ∧ t.resetLine = s.resetLine

/-- Every element of R20 that a command can write is as it was, and no free value was drawn. -/
abbrev sameMachine (s t : State) : Prop :=
  t.bufs = s.bufs ∧ t.params = s.params ∧ t.filters = s.filters ∧ t.dout = s.dout ∧ t.record = s.record ∧
  t.draws = s.draws

/-- Every Delay Buffer but `b` is as it was: its cells, its size, its cursor (R60). -/
abbrev otherBuffersSame (s t : State) (b : Nat) : Prop := ∀ b', b' ≠ b → t.buf b' = s.buf b'

/-- Buffer `b` after one `BufWrite` of `v` (R122): the cell at the cursor holds `v`, every other cell is as it was, the
cursor has advanced modulo the size, the size is as it was. -/
abbrev pushedOnce (s t : State) (b : Nat) (v : Sample) : Prop :=
  (∀ k, t.cell b k = if k = (s.buf b).cur then v else s.cell b k) ∧
  (t.buf b).cur = ((s.buf b).cur + 1) % (s.buf b).size ∧ (t.buf b).size = (s.buf b).size

/-- The registers outside the sample space and `DOUT` are as they were (R20). -/
abbrev sameRegisters (s t : State) : Prop :=
  t.params = s.params ∧ t.filters = s.filters ∧ t.record = s.record

/-- The command's result is `v`: `DOUT` holds it and the response is `(0, bits(v))` (R80). -/
abbrev resulted (s t : State) (v : Sample) : Prop := t.dout = v ∧ answeredWith s t { st := .ok, q := v }

/-- The command completed without a result: `(0, 0x00000000)`, `DOUT` as it was (R80). -/
abbrev completed (s t : State) : Prop := t.dout = s.dout ∧ answeredWith s t { st := .ok, q := 0#32 }

/-! ## The ways a request is not executed -/

/-- A request the sequencer does not turn away before the command's own checks: on port `C`, not faulted (R217, R221). -/
abbrev State.accepting (s : State) : Prop := s.req.port = .C ∧ s.faulted = false

/-- The outcome is fault entry with cause `c` in a state that was not faulted (R215). -/
abbrev entersFault (s : State) (o : Host.Outcome State Fault Refusal) (c : Cause) : Prop :=
  ∃ t, o = .next t ∧ t.record = { status := c.statusWord, fcmd := s.req.word, fdata := s.req.data } ∧
    t.bufs = s.bufs ∧ t.params = s.params ∧ t.filters = s.filters ∧ t.dout = s.dout ∧ t.draws = s.draws ∧
    sameSetting s t ∧ answeredWith s t { st := .fault, q := 0#32 }

/-- The outcome is the response `(st, 0)` and no state change: `REFUSED` (R217), `DENIED` (R222), or a fault that is not
the first (R215(b)). -/
abbrev onlyAnswers (s : State) (o : Host.Outcome State Fault Refusal) (st : RespStatus) : Prop :=
  ∃ t, o = .next t ∧ sameMachine s t ∧ sameSetting s t ∧ answeredWith s t { st := st, q := 0#32 }

/-! ## The admission checks in the words of R223 -/

/-- An index at or above the count of its kind (R98, R212). -/
def indexOutOfRange : Instr → Bool
  | .setsize b _ => decide (15 ≤ b)
  | .write b => decide (15 ≤ b)
  | .read b _ => decide (15 ≤ b)
  | .readi b => decide (15 ≤ b)
  | .clear b => decide (15 ≤ b)
  | .apf i => decide (4 ≤ i)
  | .comb j => decide (8 ≤ j)
  | .tape c => decide (2 ≤ c)
  | .nop => false
  | .flut => false
  | .sat => false
  | .rdreg _ => false
  | .wrreg _ => false
  | .sreset _ => false

/-- A register address that the command may not use (R218). -/
def registerRefused : Instr → Bool
  | .rdreg a => !addrMapped a
  | .wrreg a => !addrWritable a
  | .nop => false
  | .setsize _ _ => false
  | .write _ => false
  | .read _ _ => false
  | .readi _ => false
  | .clear _ => false
  | .apf _ => false
  | .comb _ => false
  | .flut => false
  | .tape _ => false
  | .sat => false
  | .sreset _ => false

/-- A size the buffer cannot have (R220). -/
def sizeOutOfRange (s : State) : Instr → Bool
  | .setsize b n => decide (n = 0 ∨ s.physCap b < n)
  | .nop => false
  | .write _ => false
  | .read _ _ => false
  | .readi _ => false
  | .clear _ => false
  | .apf _ => false
  | .comb _ => false
  | .flut => false
  | .tape _ => false
  | .sat => false
  | .rdreg _ => false
  | .wrreg _ => false
  | .sreset _ => false

/-- The buffer a command uses by its cursor (R213), with the bindings of R6. -/
def bufferUsed : Instr → Option Nat
  | .write b => some b
  | .read b _ => some b
  | .readi b => some b
  | .apf i => some (1 + i)
  | .comb j => some (5 + j)
  | .tape c => some (13 + c)
  | .nop => none
  | .setsize _ _ => none
  | .clear _ => none
  | .flut => none
  | .sat => none
  | .rdreg _ => none
  | .wrreg _ => none
  | .sreset _ => none

/-- An integer delay at or above the size of buffer `b`, or a fractional one outside `[0, SIZE - 1]` (R214). -/
def delayOutOfRange (s : State) : Instr → Bool
  | .read b n => decide ((s.buf b).size ≤ n)
  | .readi b => (s.buf b).fracDelayBad s.dataWord
  | .apf i => decide ((s.buf (1 + i)).size ≤ s.apDelay i)
  | .comb j => decide ((s.buf (5 + j)).size ≤ s.combDelay j)
  | .tape c => (s.buf (13 + c)).fracDelayBad s.filters.modDly
  | .nop => false
  | .setsize _ _ => false
  | .write _ => false
  | .clear _ => false
  | .flut => false
  | .sat => false
  | .rdreg _ => false
  | .wrreg _ => false
  | .sreset _ => false

/-- Phase 3 of R223 for a decoded command: the first check that fails, in its order. -/
def firstFailure (i : Instr) (s : State) : Option Cause :=
  if indexOutOfRange i then some .badIndex
  else if registerRefused i then some .badReg
  else if sizeOutOfRange s i then some .sizeRange
  else if (bufferUsed i).any (fun b => (s.buf b).size == 0) then some .notPrepared
  else if delayOutOfRange s i then some .delayRange
  else none

/-- `PermittedOnP(cmd)` of R223 for a decoded command. -/
def permittedOnPortP : Instr → Bool
  | .rdreg a => addrMapped a
  | .wrreg a => addrWritable a
  | .nop => false
  | .setsize _ _ => false
  | .write _ => false
  | .read _ _ => false
  | .readi _ => false
  | .clear _ => false
  | .apf _ => false
  | .comb _ => false
  | .flut => false
  | .tape _ => false
  | .sat => false
  | .sreset _ => false

/-- The commands that execute in the faulted state (R217). -/
def runsWhenFaulted : Instr → Bool
  | .nop => true
  | .rdreg _ => true
  | .setsize _ _ => false
  | .write _ => false
  | .read _ _ => false
  | .readi _ => false
  | .clear _ => false
  | .apf _ => false
  | .comb _ => false
  | .flut => false
  | .tape _ => false
  | .sat => false
  | .wrreg _ => false
  | .sreset _ => false

/-! ## Comparing samples -/

/-- Equal as values, in the sense of R9 and R127: the same bits, or two zeros, or two NaNs. -/
def sameValue (a b : Sample) : Bool :=
  a == b || (F32.isZero a && F32.isZero b) || (F32.isNaN a && F32.isNaN b)

/-- The same bits, or two NaNs, whose sign and payload are unspecified (R9, V1). -/
def sameBits (a b : Sample) : Bool := a == b || (F32.isNaN a && F32.isNaN b)

/-! ## Registers -/

/-- What a write of `w` to an `RW` register makes it read as: the table of R25. -/
def legalWord (r : Reg) (w : Word) : Word :=
  match r with
  | .apDelay _ | .combDelay _ => BitVec.ofNat 32 (min w.toNat 1048575)
  | .combFb _ | .tapeFb => F32.clampS w 0x00000000#32 0x3F7C0000#32
  | .combDamp _ | .tapeTone => F32.clampS w 0x00000000#32 0x3F7C0000#32
  | .tapeBase | .flutDepth => F32.clampS w 0x00000000#32 0x497FFFF0#32
  | .flutInc => F32.clampS w 0x00000000#32 0x40490FDB#32
  | .tapeDrive => F32.clampS w 0x3D800000#32 0x41800000#32
  | _ => w

/-- The word is a legal value of the `RW` register: the ranges of R25's table. -/
def legalValue (r : Reg) (w : Word) : Bool :=
  match r with
  | .apDelay _ | .combDelay _ => decide (w.toNat ≤ 1048575)
  | .combFb _ | .tapeFb => inRange 0x00000000#32 0x3F7C0000#32 w
  | .combDamp _ | .tapeTone => inRange 0x00000000#32 0x3F7C0000#32 w
  | .tapeBase | .flutDepth => inRange 0x00000000#32 0x497FFFF0#32 w
  | .flutInc => inRange 0x00000000#32 0x40490FDB#32 w
  | .tapeDrive => inRange 0x3D800000#32 0x41800000#32 w
  | _ => true

/-- A sequence of `BufWrite`s to one buffer, the first element first (R122). -/
def Buffer.pushAll (B : Buffer) (xs : List Sample) : Buffer := xs.foldl Buffer.push B

end Sys2Proof.Machine
end

