-- ==== Sys2Proof/Certificates/Slice0/Obligations.lean ====
section
/-! DEFINITION. The statements about the model, made from the numbered rules of spec/. A statement that says `answeredWith`,
`sameSetting`, `sameMachine` or `otherBuffersSame` says its frame in the words of Sys2Proof/Safety.lean. Where a result can be a
NaN, the number of the NaN drawn is the model's own (notes/assumptions/8.md) and is left existential. -/

open Sys2Proof Sys2Proof.Machine Host

/-! ## Encoding -/

/-- R91, R92, R94: the word of a well-formed command decodes to that command, every operand at every value its field
admits. -/
def Obligations.DecodeOfEncode : Prop :=
  ∀ i : Instr, WellFormed i → decode (encode i) = .ok i

/-- R91, R97: a word that decodes is the word of the command it decodes to, which is well formed: no bit is ignored. -/
def Obligations.EncodeOfDecode : Prop :=
  ∀ (w : Word) (i : Instr), decode w = .ok i → WellFormed i ∧ encode i = w

/-- R94: a word decodes to the command of the one row of R96's table with `W & mask = match`; a word that matches no row
is illegal; at most one row matches. -/
def Obligations.DecodesByMatchingRow : Prop :=
  ∀ w : Word,
    (∀ r ∈ encodingTable, r.matchesWord w = true → ∃ i, decode w = .ok i ∧ mnemonicOf i = r.mnemonic) ∧
    ((∀ r ∈ encodingTable, r.matchesWord w = false) → ∃ e, decode w = .error e) ∧
    (∀ r ∈ encodingTable, ∀ r' ∈ encodingTable, r.matchesWord w = true → r'.matchesWord w = true → r = r')

/-- R97: the two cases of an illegal word: an unassigned opcode, or an assigned one with a field that is not 0 where the
format wants 0. -/
def Obligations.IllegalWordsAreTheTwoCases : Prop :=
  ∀ w : Word,
    (decode w = .error .unassignedOpcode ↔
      opField w ∉ [0x00, 0x01, 0x02, 0x03, 0x04, 0x05, 0x08, 0x09, 0x0C, 0x0D, 0x0E, 0x10, 0x11, 0x12]) ∧
    (decode w = .error .nonzeroField ↔
      (opField w ∈ [0x00, 0x0C, 0x0E] ∧ w.extractLsb' 0 26 ≠ 0) ∨
      (opField w ∈ [0x02, 0x04, 0x05, 0x08, 0x09, 0x0D] ∧ w.extractLsb' 0 20 ≠ 0) ∨
      (opField w ∈ [0x10, 0x11] ∧ w.extractLsb' 12 14 ≠ 0) ∨
      (opField w = 0x12 ∧ w.extractLsb' 2 24 ≠ 0))

/-- R102: the worked encodings, in both directions, and its three illegal words. -/
def Obligations.WorkedEncodings : Prop :=
  (∀ p ∈ ([(0x00000000#32, .nop), (0x04D00008#32, .setsize 13 8), (0x04000004#32, .setsize 0 4),
      (0x08000000#32, .write 0), (0x0C000002#32, .read 0 2), (0x10000000#32, .readi 0), (0x14E00000#32, .clear 14),
      (0x20100000#32, .apf 1), (0x24500000#32, .comb 5), (0x30000000#32, .flut), (0x34100000#32, .tape 1),
      (0x38000000#32, .sat), (0x40000002#32, .rdreg 0x002), (0x44000301#32, .wrreg 0x301),
      (0x44000200#32, .wrreg 0x200), (0x48000003#32, .sreset 3)] : List (Word × Instr)),
    decode p.1 = .ok p.2 ∧ encode p.2 = p.1) ∧
  (∃ e, decode 0x18000000#32 = .error e) ∧ (∃ e, decode 0x08000001#32 = .error e) ∧
  (∃ e, decode 0xFFFFFFFF#32 = .error e)

/-! ## The sequencer -/

/-- R223 with R15: when a port's oldest request decodes to `i`, the step is `exec i` on the state in which that request
was taken off its queue and latched; when it is an illegal word, the step answers it as such. Taking it changes nothing
else of the machine but the schedule and the draw counter, which are the model's (notes/assumptions/10.md). -/
def Obligations.StepRunsDecodedRequest : Prop :=
  ∀ (s : State) (p : Port), s.resetLine = false → s.grant = some p →
    ∃ r rest, (s.queue p).pending = r :: rest ∧
      (s.take p).req = { port := p, word := r.word, data := r.data } ∧
      (s.take p).queue p = { (s.queue p) with pending := rest } ∧
      (∀ p', p' ≠ p → (s.take p).queue p' = s.queue p') ∧
      (s.take p).impl = s.impl ∧ (s.take p).bufs = s.bufs ∧ (s.take p).params = s.params ∧
      (s.take p).filters = s.filters ∧ (s.take p).dout = s.dout ∧ (s.take p).record = s.record ∧
      (s.take p).resetLine = s.resetLine ∧
      (∀ i, decode r.word = .ok i → step s = exec i (s.take p)) ∧
      (∀ e, decode r.word = .error e → step s = .next (illegalCommand (s.take p)))

/-- R15, R71: every request gets exactly one response, on its own port, and leaves the other port alone. -/
def Obligations.EveryRequestOneResponse : Prop :=
  ∀ (s : State) (p : Port), s.resetLine = false → s.grant = some p →
    ∃ t r, step s = .next t ∧
      (t.queue p).pending = (s.queue p).pending.tail ∧
      (t.queue p).answered = (s.queue p).answered ++ [r] ∧
      ∀ p', p' ≠ p → t.queue p' = s.queue p'

/-- Every step answers a next state (R15, R215: faults are answers). That an idle sequencer steps to the same state is the
model's choice (notes/assumptions/12.md). -/
def Obligations.StepAlwaysNext : Prop :=
  ∀ s : State, (∃ t, step s = .next t) ∧
    (s.resetLine = false → s.portC.pending = [] → s.portP.pending = [] → step s = .next s)

/-- R71: every merge of the waiting requests that keeps each port's own order is the run of some schedule. `order` names
the port of each request in the merge; after `k` steps the requests of its first `k` entries have been taken, each port's
oldest first, and the next step takes the oldest request of the port that `order` names next. The schedule is the model's
field (notes/assumptions/10.md). -/
def Obligations.EveryMergeIsPossible : Prop :=
  ∀ (s : State) (order : List Port), s.resetLine = false →
    (∀ p, order.count p = (s.queue p).pending.length) →
    ∃ sched : List Port, ∀ k ≤ order.length, ∃ t : State,
      Sys2Proof.core.run k ({ s with sched := sched } : State) = .next t ∧ t.grant = order[k]? ∧
      ∀ p, (t.queue p).pending = (s.queue p).pending.drop ((order.take k).count p)

/-- R223, R224: port rule, faulted-state gate, then the first failing check in the order of R223 phase 3; a command that
passes is answered `(0, Q)` and leaves the fault record as it was. -/
def Obligations.SequencerOrder : Prop :=
  ∀ (s : State) (i : Instr),
    (s.req.port = .P → permittedOnPortP i = false → onlyAnswers s (exec i s) .denied) ∧
    ((s.req.port = .C ∨ permittedOnPortP i = true) → s.faulted = true → runsWhenFaulted i = false →
      onlyAnswers s (exec i s) .refused) ∧
    ((s.req.port = .C ∨ permittedOnPortP i = true) → s.faulted = false →
      ∀ c, firstFailure i s = some c → entersFault s (exec i s) c) ∧
    ((s.req.port = .C ∨ permittedOnPortP i = true) → (s.faulted = false ∨ runsWhenFaulted i = true) →
      firstFailure i s = none →
      ∃ t q, exec i s = .next t ∧ answeredWith s t { st := .ok, q := q } ∧ t.record = s.record ∧ sameSetting s t)

/-- R211, R222, R217: an illegal word on port `C` raises `ILLEGAL_CMD`, is refused in the faulted state, and on port `P`
is denied and raises nothing. -/
def Obligations.IllegalWordAnswer : Prop :=
  ∀ (s : State) (e : DecodeError), decode s.req.word = .error e →
    (s.accepting → entersFault s (execRequest s) .illegalCmd) ∧
    (s.req.port = .C → s.faulted = true → onlyAnswers s (execRequest s) .refused) ∧
    (s.req.port = .P → onlyAnswers s (execRequest s) .denied)

/-- R226: the responses by port, state and request. -/
def Obligations.ResponseSummary : Prop :=
  ∀ s : State,
    (∀ i, decode s.req.word = .ok i → s.req.port = .C →
      (i = .nop → onlyAnswers s (execRequest s) .ok) ∧
      (∀ a r, i = .rdreg a → regAt a = some r →
        ∃ t, execRequest s = .next t ∧ sameMachine s t ∧ answeredWith s t { st := .ok, q := s.readReg r }) ∧
      (∀ a, i = .rdreg a → regAt a = none →
        (s.faulted = false → entersFault s (execRequest s) .badReg) ∧
        (s.faulted = true → onlyAnswers s (execRequest s) .fault)) ∧
      (i ≠ .nop → (∀ a, i ≠ .rdreg a) →
        (s.faulted = true → onlyAnswers s (execRequest s) .refused) ∧
        (s.faulted = false → ∀ c, firstFailure i s = some c → entersFault s (execRequest s) c) ∧
        (s.faulted = false → firstFailure i s = none →
          ∃ t q, execRequest s = .next t ∧ answeredWith s t { st := .ok, q := q } ∧ execRequest s = exec i s))) ∧
    (∀ i, decode s.req.word = .ok i → s.req.port = .P →
      (∀ a r, i = .rdreg a → regAt a = some r →
        ∃ t, execRequest s = .next t ∧ sameMachine s t ∧ answeredWith s t { st := .ok, q := s.readReg r }) ∧
      (∀ a r, i = .wrreg a → regAt a = some r → r.writable = true →
        (s.faulted = true → onlyAnswers s (execRequest s) .refused) ∧
        (s.faulted = false → ∃ t, execRequest s = .next t ∧ completed s t ∧ execRequest s = exec i s)) ∧
      (permittedOnPortP i = false → onlyAnswers s (execRequest s) .denied)) ∧
    (∀ e, decode s.req.word = .error e →
      (s.req.port = .C → s.faulted = false → entersFault s (execRequest s) .illegalCmd) ∧
      (s.req.port = .C → s.faulted = true → onlyAnswers s (execRequest s) .refused) ∧
      (s.req.port = .P → onlyAnswers s (execRequest s) .denied))

/-! ## Faults, the faulted state, denial -/

/-- R215: a request answered `FAULT` changes nothing but the fault record, which keeps the first fault; the response's
`Q` is 0. -/
def Obligations.FaultsArePrecise : Prop :=
  ∀ (s t : State) (q : Word), execRequest s = .next t → answeredWith s t { st := .fault, q := q } →
    q = 0#32 ∧ t.bufs = s.bufs ∧ t.params = s.params ∧ t.filters = s.filters ∧ t.dout = s.dout ∧
    t.draws = s.draws ∧ sameSetting s t ∧
    (s.faulted = true → t.record = s.record) ∧
    (s.faulted = false → t.faulted = true ∧
      ∃ c : Cause, t.record = { status := c.statusWord, fcmd := s.req.word, fdata := s.req.data })

/-- R217, R259: in the faulted state no step but a hardware reset changes any element of R20, so the state at the first
fault stays frozen. -/
def Obligations.FaultedStateIsFrozen : Prop :=
  ∀ s t : State, s.faulted = true → s.resetLine = false → step s = .next t →
    t.bufs = s.bufs ∧ t.params = s.params ∧ t.filters = s.filters ∧ t.dout = s.dout ∧ t.record = s.record

/-- R222: a request on port `P` that is not permitted gets `(3, 0)` and changes nothing, faulted or not; a permitted
`WRREG` in the faulted state is refused; a permitted `RDREG` executes in either state. -/
def Obligations.DenialOnPortP : Prop :=
  ∀ s : State, s.req.port = .P →
    (∀ e, decode s.req.word = .error e → onlyAnswers s (execRequest s) .denied) ∧
    (∀ i, decode s.req.word = .ok i → (∀ a, i ≠ .rdreg a) → (∀ a, i ≠ .wrreg a) →
      onlyAnswers s (execRequest s) .denied) ∧
    (∀ a, decode s.req.word = .ok (.rdreg a) → regAt a = none → onlyAnswers s (execRequest s) .denied) ∧
    (∀ a, decode s.req.word = .ok (.wrreg a) → (∀ r, regAt a = some r → r.writable = false) →
      onlyAnswers s (execRequest s) .denied) ∧
    (∀ a r, decode s.req.word = .ok (.wrreg a) → regAt a = some r → r.writable = true → s.faulted = true →
      onlyAnswers s (execRequest s) .refused) ∧
    (∀ a r, decode s.req.word = .ok (.rdreg a) → regAt a = some r →
      ∃ t, execRequest s = .next t ∧ sameMachine s t ∧ answeredWith s t { st := .ok, q := s.readReg r })

/-- R221, R71: whatever a request on port `P` is, it changes no buffer, no filter state, not `DOUT` and not the fault
record: the parameters are all that the control thread can reach. -/
def Obligations.PortPReachesOnlyParameters : Prop :=
  ∀ s t : State, s.req.port = .P → execRequest s = .next t →
    t.bufs = s.bufs ∧ t.filters = s.filters ∧ t.dout = s.dout ∧ t.record = s.record ∧ t.draws = s.draws ∧
    t.portC = s.portC

/-- R216: over any number of steps without a hardware reset from a state that is not faulted, the unit is not faulted at
the end exactly if every response given on the way had `ST = 0` or, on port `P`, `ST = 3`. -/
def Obligations.RunIsGoodIffNotFaulted : Prop :=
  ∀ (n : Nat) (s t : State), s.faulted = false → s.resetLine = false → Sys2Proof.core.run n s = .next t →
    (t.faulted = false ↔ t.allGoodSince s.portC.answered.length s.portP.answered.length = true)

/-! ## Reset -/

/-- R50: the value of every element after hardware reset, and the constants that registers show. `PHYSCAP[b]` reads as
whatever the implementation has (its value in `State.reset` is the model's, notes/assumptions/3.md). -/
def Obligations.ResetValues : Prop :=
  let s := State.reset
  (∀ b < 15, (s.buf b).size = 0 ∧ (s.buf b).cur = 0) ∧
  (∀ i < 4, s.apDelay i = 0) ∧
  (∀ j < 8, s.combDelay j = 0 ∧ s.combFb j = 0x00000000#32 ∧ s.combDamp j = 0x00000000#32 ∧
    s.combLast j = 0x00000000#32) ∧
  s.params.tapeBase = 0x00000000#32 ∧ s.params.flutDepth = 0x00000000#32 ∧ s.params.flutInc = 0x00000000#32 ∧
  s.filters.flutPhase = 0x00000000#32 ∧ s.filters.modDly = 0x00000000#32 ∧
  s.params.tapeTone = 0x00000000#32 ∧ s.params.tapeFb = 0x00000000#32 ∧ s.params.tapeDrive = 0x3F800000#32 ∧
  (∀ c < 2, s.toneState c = 0x00000000#32) ∧
  s.dout = 0x00000000#32 ∧
  s.record.status = 0x00000000#32 ∧ s.record.fcmd = 0x00000000#32 ∧ s.record.fdata = 0x00000000#32 ∧
  s.readReg .id = 0x46444955#32 ∧ s.readReg .config = 0x0012840F#32 ∧ s.readReg .apGain = 0x3F333333#32 ∧
  (∀ b < 15, s.readReg (.physCap b) = BitVec.ofNat 32 (s.physCap b))

/-- R240: with the reset line asserted the next step gives every register its reset value, clears the fault record and
drops the requests not yet answered without a response. Three of its clauses are the model's choice and not R240's: that
sample memory, which R50 and R51 leave unspecified, is all `+0.0` (notes/assumptions/2.md), and that the implementation and
the responses already given are kept (notes/assumptions/13.md). -/
def Obligations.HardwareReset : Prop :=
  ∀ s : State, s.resetLine = true →
    ∃ t, step s = .next t ∧ t.bufs = State.reset.bufs ∧ t.params = State.reset.params ∧
      t.filters = State.reset.filters ∧ t.dout = State.reset.dout ∧ t.record = State.reset.record ∧
      t.faulted = false ∧ t.impl = s.impl ∧
      (∀ p, (t.queue p).pending = [] ∧ (t.queue p).answered = (s.queue p).answered)

/-- R240: hardware reset is the only thing that clears `STATUS.FAULT` and the only thing that unsizes a buffer. -/
def Obligations.OnlyResetUnfaultsAndUnsizes : Prop :=
  ∀ s t : State, s.resetLine = false → step s = .next t →
    (s.faulted = true → t.faulted = true) ∧ (∀ b, (s.buf b).size ≠ 0 → (t.buf b).size ≠ 0)

/-! ## What each command does

Each statement named after a command says the command's word, as its rule writes it, and then, for every state, every
case of it; the cases exclude each other by the operands and by what the state holds. -/

/-- R20: each element is written by the commands of its row in R20's table and by no other; the fault record is written
by a fault only. -/
def Obligations.WritersOfEachElement : Prop :=
  ∀ (i : Instr) (s t : State), exec i s = .next t →
    ((∀ a, i ≠ .wrreg a) → t.params = s.params) ∧
    ((∀ j, i ≠ .comb j) → (∀ m, i ≠ .sreset m) → t.filters.combLast = s.filters.combLast) ∧
    ((∀ c, i ≠ .tape c) → (∀ m, i ≠ .sreset m) → t.filters.toneState = s.filters.toneState) ∧
    (i ≠ .flut → (∀ m, i ≠ .sreset m) →
      t.filters.flutPhase = s.filters.flutPhase ∧ t.filters.modDly = s.filters.modDly) ∧
    ((∀ b n, i ≠ .read b n) → (∀ b, i ≠ .readi b) → (∀ j, i ≠ .apf j) → (∀ j, i ≠ .comb j) → i ≠ .flut →
      (∀ c, i ≠ .tape c) → i ≠ .sat → t.dout = s.dout) ∧
    ((∀ b n, i ≠ .setsize b n) → ∀ b, (t.buf b).size = (s.buf b).size) ∧
    ((∀ b n, i ≠ .setsize b n) → (∀ b, i ≠ .write b) → (∀ b, i ≠ .clear b) → (∀ j, i ≠ .apf j) →
      (∀ j, i ≠ .comb j) → (∀ c, i ≠ .tape c) → (∀ m, i ≠ .sreset m) → t.bufs = s.bufs) ∧
    (t.record = s.record ∨
      (s.faulted = false ∧ ∃ c : Cause,
        t.record = { status := c.statusWord, fcmd := s.req.word, fdata := s.req.data })) ∧
    t.impl = s.impl

/-- R190: `NOP` on port `C` answers `(0, 0)` and changes nothing, faulted or not; on port `P` it is denied. -/
def Obligations.NopResult : Prop :=
  encode .nop = 0x00000000#32 ∧ ∀ s : State,
    (s.req.port = .C → ∃ t, exec .nop s = .next t ∧ answeredWith s t { st := .ok, q := 0#32 } ∧ sameMachine s t ∧
      sameSetting s t) ∧
    (s.req.port = .P → onlyAnswers s (exec .nop s) .denied)

/-- R120: `SETSIZE b, n` sets the size, resets the cursor, zeroes the cells below `n`, and touches nothing else; its
checks are the index, then the size. -/
def Obligations.SetsizeResult : Prop :=
  (∀ b n, b < 64 → n < 1048576 →
    encode (.setsize b n) = 0x04000000#32 ||| BitVec.ofNat 32 b <<< 20 ||| BitVec.ofNat 32 n) ∧
  ∀ (s : State) (b n : Nat), s.accepting →
    (15 ≤ b → entersFault s (exec (.setsize b n) s) .badIndex) ∧
    (b < 15 → (n = 0 ∨ s.physCap b < n) → entersFault s (exec (.setsize b n) s) .sizeRange) ∧
    (b < 15 → n ≠ 0 → n ≤ s.physCap b →
      ∃ t, exec (.setsize b n) s = .next t ∧ (t.buf b).size = n ∧ (t.buf b).cur = 0 ∧
        (∀ k, t.cell b k = if k < n then 0x00000000#32 else s.cell b k) ∧
        otherBuffersSame s t b ∧ sameRegisters s t ∧ completed s t ∧ sameSetting s t)

/-- R122: `WRITE b` stores the data word bit for bit at the cursor and advances the cursor modulo the size; its checks
are the index, then preparation. -/
def Obligations.WriteResult : Prop :=
  (∀ b, b < 64 → encode (.write b) = 0x08000000#32 ||| BitVec.ofNat 32 b <<< 20) ∧
  ∀ (s : State) (b : Nat), s.accepting →
    (15 ≤ b → entersFault s (exec (.write b) s) .badIndex) ∧
    (b < 15 → (s.buf b).size = 0 → entersFault s (exec (.write b) s) .notPrepared) ∧
    (b < 15 → (s.buf b).size ≠ 0 →
      ∃ t, exec (.write b) s = .next t ∧ pushedOnce s t b s.req.data ∧
        otherBuffersSame s t b ∧ sameRegisters s t ∧ completed s t ∧ sameSetting s t)

/-- R123: `READ b, n` returns the cell at the residue of `CUR - n` modulo the size and changes `DOUT` only; its checks
are the index, preparation, the delay. -/
def Obligations.ReadResult : Prop :=
  (∀ b n, b < 64 → n < 1048576 →
    encode (.read b n) = 0x0C000000#32 ||| BitVec.ofNat 32 b <<< 20 ||| BitVec.ofNat 32 n) ∧
  ∀ (s : State) (b n : Nat), s.accepting →
    (15 ≤ b → entersFault s (exec (.read b n) s) .badIndex) ∧
    (b < 15 → (s.buf b).size = 0 → entersFault s (exec (.read b n) s) .notPrepared) ∧
    (b < 15 → (s.buf b).size ≠ 0 → (s.buf b).size ≤ n → entersFault s (exec (.read b n) s) .delayRange) ∧
    (b < 15 → n < (s.buf b).size →
      ∃ t, exec (.read b n) s = .next t ∧
        resulted s t (s.cell b ((((s.buf b).cur : Int) - n) % ((s.buf b).size : Int)).toNat) ∧
        t.bufs = s.bufs ∧ sameRegisters s t ∧ sameSetting s t)

/-- R125: `READI b` returns `a ⊕ (f ⊗ (c ⊖ a))` of the two taps that bracket the delay in the data word and changes
`DOUT` only; its checks are the index, preparation, the delay. -/
def Obligations.ReadiResult : Prop :=
  (∀ b, b < 64 → encode (.readi b) = 0x10000000#32 ||| BitVec.ofNat 32 b <<< 20) ∧
  ∀ (s : State) (b : Nat), s.accepting →
    let B := s.buf b
    let d := s.req.data
    let bad := F32.isNaN d = true ∨ F32.lt d 0x00000000#32 = true ∨ F32.lt (F32.toS (B.size - 1)) d = true
    (15 ≤ b → entersFault s (exec (.readi b) s) .badIndex) ∧
    (b < 15 → B.size = 0 → entersFault s (exec (.readi b) s) .notPrepared) ∧
    (b < 15 → B.size ≠ 0 → bad → entersFault s (exec (.readi b) s) .delayRange) ∧
    (b < 15 → B.size ≠ 0 → ¬bad →
      ∃ t q0 q1 q2 q3, exec (.readi b) s = .next t ∧
        resulted s t (F32.add q3 (B.read (F32.floor d))
          (F32.mul q2 (F32.sub q0 d (F32.toS (F32.floor d)))
            (F32.sub q1 (B.read (F32.floor d + 1)) (B.read (F32.floor d))))) ∧
        t.bufs = s.bufs ∧ sameRegisters s t ∧ sameSetting s t)

/-- R126: `CLEAR b` zeroes the cells in use and resets the cursor, keeps the size, and on an unsized buffer only sets the
cursor that is 0 already; its check is the index. -/
def Obligations.ClearResult : Prop :=
  (∀ b, b < 64 → encode (.clear b) = 0x14000000#32 ||| BitVec.ofNat 32 b <<< 20) ∧
  ∀ (s : State) (b : Nat), s.accepting →
    (15 ≤ b → entersFault s (exec (.clear b) s) .badIndex) ∧
    (b < 15 →
      ∃ t, exec (.clear b) s = .next t ∧ (t.buf b).size = (s.buf b).size ∧ (t.buf b).cur = 0 ∧
        (∀ k, t.cell b k = if k < (s.buf b).size then 0x00000000#32 else s.cell b k) ∧
        t.buf b = (s.buf b).resize (s.buf b).size ∧
        otherBuffersSame s t b ∧ sameRegisters s t ∧ completed s t ∧ sameSetting s t)

/-- R141: `APF i` reads the tap `d` at `AP_DELAY[i]`, writes `x ⊕ (d ⊗ g)` once into buffer `1 + i`, returns
`d ⊖ (x ⊗ g)`, `g` the hardwired gain. -/
def Obligations.ApfResult : Prop :=
  (∀ i, i < 64 → encode (.apf i) = 0x20000000#32 ||| BitVec.ofNat 32 i <<< 20) ∧
  ∀ (s : State) (i : Nat), s.accepting →
    let B := s.buf (1 + i)
    let d := B.read (s.apDelay i)
    (4 ≤ i → entersFault s (exec (.apf i) s) .badIndex) ∧
    (i < 4 → B.size = 0 → entersFault s (exec (.apf i) s) .notPrepared) ∧
    (i < 4 → B.size ≠ 0 → B.size ≤ s.apDelay i → entersFault s (exec (.apf i) s) .delayRange) ∧
    (i < 4 → s.apDelay i < B.size →
      ∃ t q0 q1 q2 q3, exec (.apf i) s = .next t ∧
        pushedOnce s t (1 + i) (F32.add q1 s.req.data (F32.mul q0 d 0x3F333333#32)) ∧
        resulted s t (F32.sub q3 d (F32.mul q2 s.req.data 0x3F333333#32)) ∧
        otherBuffersSame s t (1 + i) ∧ sameRegisters s t ∧ sameSetting s t)

/-- R145: `COMB j` reads the tap `d`, damps it by the one-pole low-pass, persists the damped value in `COMB_LAST[j]`,
writes `x ⊕ (filt ⊗ COMB_FB[j])` once into buffer `5 + j`, returns the undamped tap. -/
def Obligations.CombResult : Prop :=
  (∀ j, j < 64 → encode (.comb j) = 0x24000000#32 ||| BitVec.ofNat 32 j <<< 20) ∧
  ∀ (s : State) (j : Nat), s.accepting →
    let B := s.buf (5 + j)
    let d := B.read (s.combDelay j)
    (8 ≤ j → entersFault s (exec (.comb j) s) .badIndex) ∧
    (j < 8 → B.size = 0 → entersFault s (exec (.comb j) s) .notPrepared) ∧
    (j < 8 → B.size ≠ 0 → B.size ≤ s.combDelay j → entersFault s (exec (.comb j) s) .delayRange) ∧
    (j < 8 → s.combDelay j < B.size →
      ∃ t filt q0 q1 q2 q3 q4 q5, exec (.comb j) s = .next t ∧
        filt = F32.add q3 (F32.mul q1 d (F32.sub q0 0x3F800000#32 (s.combDamp j)))
          (F32.mul q2 (s.combLast j) (s.combDamp j)) ∧
        t.combLast j = filt ∧ (∀ j', j' ≠ j → t.combLast j' = s.combLast j') ∧
        pushedOnce s t (5 + j) (F32.add q5 s.req.data (F32.mul q4 filt (s.combFb j))) ∧
        resulted s t d ∧ otherBuffersSame s t (5 + j) ∧ t.params = s.params ∧ t.record = s.record ∧
        t.filters.toneState = s.filters.toneState ∧ t.filters.flutPhase = s.filters.flutPhase ∧
        t.filters.modDly = s.filters.modDly ∧ sameSetting s t)

/-- R162: `FLUT` advances the phase by `FLUT_INC`, wraps it by one conditional subtraction of `TWO_PI`, latches
`TAPE_BASE ⊕ (FLUT_DEPTH ⊗ SIN(phase))` in `MODDLY` and returns it; nothing else changes. -/
def Obligations.FlutResult : Prop :=
  encode .flut = 0x30000000#32 ∧ ∀ s : State, s.accepting →
    ∃ t p0 p q0 q1 q2 q3, exec .flut s = .next t ∧
      p0 = F32.add q0 s.filters.flutPhase s.params.flutInc ∧
      p = (if F32.le 0x40C90FDB#32 p0 = true then F32.sub q1 p0 0x40C90FDB#32 else p0) ∧
      t.filters.flutPhase = p ∧
      t.filters.modDly = F32.add q3 s.params.tapeBase (F32.mul q2 s.params.flutDepth (sinFn s.impl.sine p)) ∧
      resulted s t t.filters.modDly ∧
      t.filters.combLast = s.filters.combLast ∧ t.filters.toneState = s.filters.toneState ∧
      t.bufs = s.bufs ∧ t.params = s.params ∧ t.record = s.record ∧ sameSetting s t

/-- R166: `TAPE c` reads buffer `13 + c` interpolated at `MODDLY`, tone-filters the tap, persists and returns the toned
value, saturates it and writes `x ⊕ (s ⊗ TAPE_FB)` once. -/
def Obligations.TapeResult : Prop :=
  (∀ c, c < 64 → encode (.tape c) = 0x34000000#32 ||| BitVec.ofNat 32 c <<< 20) ∧
  ∀ (s : State) (c : Nat), s.accepting →
    let B := s.buf (13 + c)
    let m := s.filters.modDly
    let tone := s.params.tapeTone
    let bad := F32.isNaN m = true ∨ F32.lt m 0x00000000#32 = true ∨ F32.lt (F32.toS (B.size - 1)) m = true
    (2 ≤ c → entersFault s (exec (.tape c) s) .badIndex) ∧
    (c < 2 → B.size = 0 → entersFault s (exec (.tape c) s) .notPrepared) ∧
    (c < 2 → B.size ≠ 0 → bad → entersFault s (exec (.tape c) s) .delayRange) ∧
    (c < 2 → B.size ≠ 0 → ¬bad →
      ∃ t toned q0 q1 q2 q3 q4 q5 q6 q7, exec (.tape c) s = .next t ∧
        toned = F32.add q4 (F32.mul q2 (B.readI q0 m) (F32.sub q1 0x3F800000#32 tone))
          (F32.mul q3 (s.toneState c) tone) ∧
        t.toneState c = toned ∧ (∀ c', c' ≠ c → t.toneState c' = s.toneState c') ∧
        pushedOnce s t (13 + c) (F32.add q7 s.req.data
          (F32.mul q6 (satFn s.impl.sat q5 toned s.params.tapeDrive) s.params.tapeFb)) ∧
        resulted s t toned ∧ otherBuffersSame s t (13 + c) ∧ t.params = s.params ∧ t.record = s.record ∧
        t.filters.combLast = s.filters.combLast ∧ t.filters.flutPhase = s.filters.flutPhase ∧
        t.filters.modDly = s.filters.modDly ∧ sameSetting s t)

/-- R173: `SAT` returns `SATFN(x, TAPE_DRIVE)` and changes `DOUT` only; with the default `SATFN` of R171 the result of an
`x` that is no NaN is `1.0 ⊘ drive` with the sign of `x` where `drive ⊗ abs(x)` is `+infinity`, else
`x ⊘ (1.0 ⊕ (drive ⊗ abs(x)))`, and the result of a NaN is a NaN. -/
def Obligations.SatResult : Prop :=
  encode .sat = 0x38000000#32 ∧ ∀ s : State, s.accepting →
    ∃ t q, exec .sat s = .next t ∧ resulted s t (satFn s.impl.sat q s.req.data s.params.tapeDrive) ∧
      (s.impl.sat = .byDefault →
        (F32.isNaN s.req.data = true → F32.isNaN t.dout = true) ∧
        (F32.isNaN s.req.data = false → ∃ u q0 q1 q2 q3,
          u = F32.mul q0 s.params.tapeDrive (F32.abs s.req.data) ∧
          t.dout = if u = 0x7F800000#32 then
              F32.copysign (F32.div q1 0x3F800000#32 s.params.tapeDrive) s.req.data
            else F32.div q3 s.req.data (F32.add q2 0x3F800000#32 u))) ∧
      t.bufs = s.bufs ∧ sameRegisters s t ∧ sameSetting s t

/-- R192: `RDREG a` of a mapped address answers the register's word from either port, faulted or not, and changes
nothing; an unmapped one is `BAD_REG` on port `C` (with the record kept if there is one) and denied on port `P`. The words
are those of R30's map: a constant, the bits of a sample, the zero-extended value of a `U20`. -/
def Obligations.RdregResult : Prop :=
  (∀ a, a < 4096 → encode (.rdreg a) = 0x40000000#32 ||| BitVec.ofNat 32 a) ∧
  (∀ s : State,
    s.readReg .id = 0x46444955#32 ∧ s.readReg .config = 0x0012840F#32 ∧ s.readReg .apGain = 0x3F333333#32 ∧
    s.readReg .status = s.record.status ∧ s.readReg .fcmd = s.record.fcmd ∧ s.readReg .fdata = s.record.fdata ∧
    s.readReg .dout = s.dout ∧
    s.readReg .tapeBase = s.params.tapeBase ∧ s.readReg .flutDepth = s.params.flutDepth ∧
    s.readReg .flutInc = s.params.flutInc ∧ s.readReg .flutPhase = s.filters.flutPhase ∧
    s.readReg .modDly = s.filters.modDly ∧ s.readReg .tapeTone = s.params.tapeTone ∧
    s.readReg .tapeFb = s.params.tapeFb ∧ s.readReg .tapeDrive = s.params.tapeDrive ∧
    (∀ (c : Nat) (h : c < 2), s.readReg (.toneState c) = s.filters.toneState[c]) ∧
    (∀ (b : Nat) (h : b < 15), s.readReg (.size b) = BitVec.ofNat 32 s.bufs[b].size ∧
      s.readReg (.cur b) = BitVec.ofNat 32 s.bufs[b].cur ∧
      s.readReg (.physCap b) = BitVec.ofNat 32 s.impl.physCap[b]) ∧
    (∀ (i : Nat) (h : i < 4), s.readReg (.apDelay i) = BitVec.ofNat 32 s.params.apDelay[i]) ∧
    (∀ (j : Nat) (h : j < 8), s.readReg (.combDelay j) = BitVec.ofNat 32 s.params.combDelay[j] ∧
      s.readReg (.combFb j) = s.params.combFb[j] ∧ s.readReg (.combDamp j) = s.params.combDamp[j] ∧
      s.readReg (.combLast j) = s.filters.combLast[j])) ∧
  ∀ (s : State) (a : Nat),
    (∀ r, regAt a = some r →
      ∃ t, exec (.rdreg a) s = .next t ∧ answeredWith s t { st := .ok, q := s.readReg r } ∧ sameMachine s t ∧
        sameSetting s t) ∧
    (regAt a = none → s.accepting → entersFault s (exec (.rdreg a) s) .badReg) ∧
    (regAt a = none → s.req.port = .C → s.faulted = true → onlyAnswers s (exec (.rdreg a) s) .fault) ∧
    (regAt a = none → s.req.port = .P → onlyAnswers s (exec (.rdreg a) s) .denied)

/-- R193: `WRREG a` of an `RW` register, from either port, stores the data word brought into the register's legal range;
every other register reads as before, and no buffer, filter state or `DOUT` changes. An unmapped or `RO` address is
`BAD_REG` on port `C` and denied on port `P`. -/
def Obligations.WrregResult : Prop :=
  (∀ a, a < 4096 → encode (.wrreg a) = 0x44000000#32 ||| BitVec.ofNat 32 a) ∧
  ∀ (s : State) (a : Nat),
    (∀ r, regAt a = some r → r.writable = true → s.faulted = false →
      ∃ t, exec (.wrreg a) s = .next t ∧ t.readReg r = legalWord r s.req.data ∧
        (∀ a' r', a' ≠ a → regAt a' = some r' → t.readReg r' = s.readReg r') ∧
        t.bufs = s.bufs ∧ t.filters = s.filters ∧ t.record = s.record ∧ completed s t ∧ sameSetting s t) ∧
    ((∀ r, regAt a = some r → r.writable = false) → s.accepting → entersFault s (exec (.wrreg a) s) .badReg) ∧
    ((∀ r, regAt a = some r → r.writable = false) → s.req.port = .P → onlyAnswers s (exec (.wrreg a) s) .denied)

/-- R194, R52: `SRESET m` clears the buffers and the filter state of the selected groups, and keeps every size, every `RW`
register, `DOUT` and the fault record; it is refused in the faulted state and denied on port `P`. -/
def Obligations.SresetResult : Prop :=
  (∀ m, m < 4 → encode (.sreset m) = 0x48000000#32 ||| BitVec.ofNat 32 m) ∧
  ∀ (s : State) (m : Nat),
    (s.req.port = .P → onlyAnswers s (exec (.sreset m) s) .denied) ∧
    (s.req.port = .C → s.faulted = true → onlyAnswers s (exec (.sreset m) s) .refused) ∧
    (s.accepting → ∃ t, exec (.sreset m) s = .next t ∧
      (∀ b < 15, (t.buf b).size = (s.buf b).size ∧
        (if (b < 13 ∧ m.testBit 0 = true) ∨ (13 ≤ b ∧ m.testBit 1 = true) then
          (t.buf b).cur = 0 ∧ ∀ k, t.cell b k = if k < (s.buf b).size then 0x00000000#32 else s.cell b k
        else t.buf b = s.buf b)) ∧
      (∀ j < 8, t.combLast j = if m.testBit 0 = true then 0x00000000#32 else s.combLast j) ∧
      (∀ c < 2, t.toneState c = if m.testBit 1 = true then 0x00000000#32 else s.toneState c) ∧
      t.filters.flutPhase = (if m.testBit 1 = true then 0x00000000#32 else s.filters.flutPhase) ∧
      t.filters.modDly = (if m.testBit 1 = true then 0x00000000#32 else s.filters.modDly) ∧
      t.params = s.params ∧ t.record = s.record ∧ completed s t ∧ sameSetting s t)

/-! ## Delay Buffers over time -/

/-- R124, R41(d): after a clear and any number of writes, delay `n` names the `n`-th most recent write, `+0.0` beyond the
number of writes, for `1 <= n <= SIZE`; delay 0 names what delay `SIZE` names. -/
def Obligations.DelayNamesNthMostRecentWrite : Prop :=
  ∀ (B : Buffer) (xs : List Sample) (n : Nat), B.size ≠ 0 → 1 ≤ n → n ≤ B.size →
    (B.clear.pushAll xs).read n = xs.reverse.getD (n - 1) 0x00000000#32 ∧
    (B.clear.pushAll xs).read 0 = (B.clear.pushAll xs).read B.size

/-- R127: an interpolated read at an integer delay equals the integer read as a value; the bits are equal too unless the
tap is `-0.0`. -/
def Obligations.InterpolatedReadAgreesAtIntegers : Prop :=
  ∀ (B : Buffer) (n q : Nat), n < B.size → B.size ≤ 1048575 →
    F32.isFinite (F32.sub q (B.read (n + 1)) (B.read n)) = true →
    sameValue (B.readI q (F32.toS n)) (B.read n) = true ∧
    (B.read n ≠ 0x80000000#32 → B.readI q (F32.toS n) = B.read n)

/-- R128, its exact part: where both taps are one finite value, the interpolated value is that value. -/
def Obligations.EqualTapsInterpolateToTheTap : Prop :=
  ∀ (q : Nat) (f a c : Sample), F32.isFinite a = true → F32.isFinite c = true → F32.val a = F32.val c →
    F32.le 0x00000000#32 f = true → F32.lt f 0x3F800000#32 = true →
    sameValue (interpolate q f a c) a = true

/-! ## Invariants -/

/-- The invariants hold after reset (R41, R44, R25, R33; the values of `impl` are the model's choice, log entry 3). -/
def Obligations.ResetMeetsInvariant : Prop := State.reset.Inv

/-- R41, R25, R33, R163, R164: every step from a state that meets the invariants gives a state that meets them: legal
`PHYSCAP`, sizes and cursors in range, canonical memory, legal `RW` registers, the phase in `[0, TWO_PI)`, `MODDLY` no NaN,
the fault record legal. -/
def Obligations.StepKeepsInvariant : Prop :=
  ∀ s t : State, s.Inv → step s = .next t → t.Inv

/-- R163: `FLUT` keeps the phase in `[0, TWO_PI)` and no NaN, whatever legal increment is set. -/
def Obligations.PhaseStaysInRange : Prop :=
  ∀ s t : State, s.PhaseInv → inRange 0x00000000#32 0x40490FDB#32 s.params.flutInc = true →
    exec .flut s = .next t → t.PhaseInv

/-- R164: after a `FLUT` that executes, `TAPE_BASE ⊖ FLUT_DEPTH <= MODDLY <= TAPE_BASE ⊕ FLUT_DEPTH` and `MODDLY` is no
NaN, for every `SIN` with the properties of R161. -/
def Obligations.ModulatedDelayWithinDepth : Prop :=
  ∀ (s : State), s.accepting → s.PhaseInv → inRange 0x00000000#32 0x40490FDB#32 s.params.flutInc = true →
    inRange 0x00000000#32 0x497FFFF0#32 s.params.tapeBase = true →
    inRange 0x00000000#32 0x497FFFF0#32 s.params.flutDepth = true →
    ∃ t, exec .flut s = .next t ∧ F32.isNaN t.filters.modDly = false ∧
      ∀ q, F32.le (F32.sub q s.params.tapeBase s.params.flutDepth) t.filters.modDly = true ∧
        F32.le t.filters.modDly (F32.add q s.params.tapeBase s.params.flutDepth) = true

/-- R164, R253: with `TAPE_BASE ⊖ FLUT_DEPTH >= 0` and `TAPE_BASE ⊕ FLUT_DEPTH <= SIZE - 1`, a `TAPE c` on a sized buffer
that follows a `FLUT` raises no fault. -/
def Obligations.TapeAfterFlutDoesNotFault : Prop :=
  ∀ (s : State) (c q : Nat), s.accepting → s.PhaseInv →
    inRange 0x00000000#32 0x40490FDB#32 s.params.flutInc = true →
    inRange 0x00000000#32 0x497FFFF0#32 s.params.tapeBase = true →
    inRange 0x00000000#32 0x497FFFF0#32 s.params.flutDepth = true →
    c < 2 → (s.buf (13 + c)).size ≠ 0 → (s.buf (13 + c)).size ≤ 1048575 →
    F32.le 0x00000000#32 (F32.sub q s.params.tapeBase s.params.flutDepth) = true →
    F32.le (F32.add q s.params.tapeBase s.params.flutDepth) (F32.toS ((s.buf (13 + c)).size - 1)) = true →
    ∃ t u, exec .flut s = .next t ∧ exec (.tape c) t = .next u ∧ u.faulted = false

/-! ## Stages -/

/-- R149: with every cell in use of its buffer a zero, its filter state a zero and a zero input, `APF` and `COMB` return a zero
and leave buffer and filter state all zeros. The parameters are legal (R25), as in every reachable state. -/
def Obligations.SilenceIsFixedOnThePlate : Prop :=
  ∀ (s : State), s.accepting → s.ParamInv → F32.isZero s.req.data = true →
    (∀ i, i < 4 → s.apDelay i < (s.buf (1 + i)).size →
      (∀ k < (s.buf (1 + i)).size, F32.isZero (s.cell (1 + i) k) = true) →
      ∃ t, exec (.apf i) s = .next t ∧ F32.isZero t.dout = true ∧ (t.buf (1 + i)).size = (s.buf (1 + i)).size ∧
        ∀ k < (s.buf (1 + i)).size, F32.isZero (t.cell (1 + i) k) = true) ∧
    (∀ j, j < 8 → s.combDelay j < (s.buf (5 + j)).size →
      (∀ k < (s.buf (5 + j)).size, F32.isZero (s.cell (5 + j) k) = true) → F32.isZero (s.combLast j) = true →
      ∃ t, exec (.comb j) s = .next t ∧ F32.isZero t.dout = true ∧ F32.isZero (t.combLast j) = true ∧
        (t.buf (5 + j)).size = (s.buf (5 + j)).size ∧
        ∀ k < (s.buf (5 + j)).size, F32.isZero (t.cell (5 + j) k) = true)

/-- R174: with every cell in use of its buffer a zero, its tone state a zero and a zero input, `TAPE c` returns a zero and leaves
buffer and filter state all zeros, for any legal `MODDLY` and either choice of `SATFN`. -/
def Obligations.SilenceIsFixedOnTheTape : Prop :=
  ∀ (s : State) (c : Nat), s.accepting → s.ParamInv → F32.isZero s.req.data = true → c < 2 →
    (s.buf (13 + c)).size ≠ 0 → (s.buf (13 + c)).size ≤ 1048575 →
    (s.buf (13 + c)).fracDelayBad s.filters.modDly = false →
    (∀ k < (s.buf (13 + c)).size, F32.isZero (s.cell (13 + c) k) = true) → F32.isZero (s.toneState c) = true →
    ∃ t, exec (.tape c) s = .next t ∧ F32.isZero t.dout = true ∧ F32.isZero (t.toneState c) = true ∧
      (t.buf (13 + c)).size = (s.buf (13 + c)).size ∧
      ∀ k < (s.buf (13 + c)).size, F32.isZero (t.cell (13 + c) k) = true

/-- R150: two different comb stages of one frame, given the same input, commute: either order gives the same results and
the same buffers and filter states, up to the unspecified bits of a NaN. -/
def Obligations.CombStagesCommute : Prop :=
  ∀ (s : State) (j k : Nat), s.accepting → j < 8 → k < 8 → j ≠ k →
    s.combDelay j < (s.buf (5 + j)).size → s.combDelay k < (s.buf (5 + k)).size →
    ∃ t u t' u', exec (.comb j) s = .next t ∧ exec (.comb k) t = .next u ∧
      exec (.comb k) s = .next t' ∧ exec (.comb j) t' = .next u' ∧
      t.dout = u'.dout ∧ u.dout = t'.dout ∧
      (∀ b, (u.buf b).size = (u'.buf b).size ∧ (u.buf b).cur = (u'.buf b).cur) ∧
      (∀ b i, sameBits (u.cell b i) (u'.cell b i) = true) ∧
      (∀ i, sameBits (u.combLast i) (u'.combLast i) = true)

/-- R145, R146: a damping coefficient of zero passes the tap through the one-pole low-pass unchanged as a value, for a
finite filter state. -/
def Obligations.UndampedFilterPassesTheTap : Prop :=
  ∀ (q : Nat) (d p last : Sample), F32.isZero p = true → F32.isFinite last = true → F32.isNaN d = false →
    sameValue (onePole q d p last) d = true

/-- R162: with `FLUT_DEPTH` a zero, `MODDLY` is `TAPE_BASE` as a value, whatever `SIN` is. -/
def Obligations.FlutterWithoutDepthIsBase : Prop :=
  ∀ (s : State), s.accepting → s.PhaseInv → inRange 0x00000000#32 0x40490FDB#32 s.params.flutInc = true →
    F32.isZero s.params.flutDepth = true → F32.isNaN s.params.tapeBase = false →
    ∃ t, exec .flut s = .next t ∧ sameValue t.filters.modDly s.params.tapeBase = true

/-! ## Registers -/

/-- R30, R45: the register map, address by address, the access classes, and that every other address is unmapped. -/
def Obligations.RegisterMap : Prop :=
  let fixed : List (Nat × Reg × Bool) :=
    [(0x000, .id, false), (0x001, .config, false), (0x002, .status, false), (0x003, .fcmd, false),
     (0x004, .fdata, false), (0x005, .dout, false), (0x006, .apGain, false), (0x010, .tapeBase, true),
     (0x011, .flutDepth, true), (0x012, .flutInc, true), (0x013, .flutPhase, false), (0x014, .modDly, false),
     (0x015, .tapeTone, true), (0x016, .tapeFb, true), (0x017, .tapeDrive, true), (0x018, .toneState 0, false),
     (0x019, .toneState 1, false)]
  let buffers : List (Nat × Reg × Bool) := (List.range 15).flatMap fun b =>
    [(0x100 + 4 * b, .size b, false), (0x101 + 4 * b, .cur b, false), (0x102 + 4 * b, .physCap b, false)]
  let aps : List (Nat × Reg × Bool) := (List.range 4).map fun i => (0x200 + i, .apDelay i, true)
  let combs : List (Nat × Reg × Bool) := (List.range 8).flatMap fun j =>
    [(0x300 + 4 * j, .combDelay j, true), (0x301 + 4 * j, .combFb j, true), (0x302 + 4 * j, .combDamp j, true),
     (0x303 + 4 * j, .combLast j, false)]
  let map := fixed ++ buffers ++ aps ++ combs
  (∀ e ∈ map, regAt e.1 = some e.2.1 ∧ e.2.1.writable = e.2.2) ∧
  (∀ a, (∀ e ∈ map, e.1 ≠ a) → regAt a = none)

/-- R45: no two addresses reach the same register. -/
def Obligations.NoRegisterIsAliased : Prop :=
  ∀ (a a' : Nat) (r : Reg), regAt a = some r → regAt a' = some r → a = a'

/-- R25: whatever word is written, on either port and in any state that is not faulted, the `RW` register at that address
holds a legal value afterwards, and a word that is legal already is stored unchanged. -/
def Obligations.WrittenValuesAreLegal : Prop :=
  ∀ (s : State) (a : Nat) (r : Reg), regAt a = some r → r.writable = true → s.faulted = false →
    ∃ t, exec (.wrreg a) s = .next t ∧ legalValue r (t.readReg r) = true ∧
      (legalValue r s.req.data = true → t.readReg r = s.req.data)

/-- R13: `clampS` and `clampI`, case by case. -/
def Obligations.ClampCases : Prop :=
  (∀ v lo hi : Sample, F32.le lo hi = true →
    ((F32.isNaN v = true ∨ F32.lt v lo = true) → F32.clampS v lo hi = lo) ∧
    (F32.lt hi v = true → F32.clampS v lo hi = hi) ∧
    (F32.le lo v = true → F32.le v hi = true → F32.clampS v lo hi = v)) ∧
  (∀ w : Word, F32.clampI w = min w.toNat 1048575)

/-! ## Arithmetic -/

/-- R75(b), R9: a sum, difference, product or quotient of finite samples (a quotient by a nonzero one) is, where it is
finite, a sample nearest to the exact result, the one with even bits where another is as near; where it is not finite it
is an infinity. It is an infinity, of the exact result's sign, exactly where the exact result's magnitude is at least half a
unit in the last place above the largest finite sample. Values are in units of 2^-149. -/
def Obligations.ArithmeticRoundsToNearestEven : Prop :=
  ∀ (q : Nat) (a b : Sample), F32.isFinite a = true → F32.isFinite b = true →
    let good := fun (r : Sample) (num den : Int) =>
      (F32.isFinite r = true → ∀ y : Sample, F32.isFinite y = true →
        |F32.val r * den - num| ≤ |F32.val y * den - num| ∧
        (|F32.val r * den - num| = |F32.val y * den - num| → F32.val y ≠ F32.val r → r.toNat % 2 = 0)) ∧
      (F32.isFinite r = false → (2 ^ 25 - 1) * 2 ^ 253 * |den| ≤ 2 * |num|) ∧
      ((2 ^ 25 - 1) * 2 ^ 253 * |den| ≤ 2 * |num| → F32.isInf r = true ∧ (F32.neg r = true ↔ num * den < 0))
    good (F32.add q a b) (F32.val a + F32.val b) 1 ∧
    good (F32.sub q a b) (F32.val a - F32.val b) 1 ∧
    good (F32.mul q a b) (F32.val a * F32.val b) (2 ^ 149) ∧
    (F32.isZero b = false → good (F32.div q a b) (F32.val a * 2 ^ 149) (F32.val b))

/-- R75(c), R75(d): the special operands. -/
def Obligations.SpecialOperands : Prop :=
  ∀ (q : Nat) (x y z : Sample),
    (F32.isNaN x = true → F32.isNaN (F32.add q x y) = true ∧ F32.isNaN (F32.add q y x) = true ∧
      F32.isNaN (F32.sub q x y) = true ∧ F32.isNaN (F32.sub q y x) = true ∧ F32.isNaN (F32.mul q x y) = true ∧
      F32.isNaN (F32.mul q y x) = true ∧ F32.isNaN (F32.div q x y) = true ∧ F32.isNaN (F32.div q y x) = true) ∧
    (F32.isNaN x = false → F32.isZero x = false → F32.isZero z = true → F32.add q x z = x) ∧
    F32.add q 0x00000000#32 0x80000000#32 = 0x00000000#32 ∧
    F32.add q 0x80000000#32 0x80000000#32 = 0x80000000#32 ∧
    (F32.isFinite x = true → F32.sub q x x = 0x00000000#32) ∧
    (F32.isZero z = true → F32.isFinite x = true →
      F32.isZero (F32.mul q z x) = true ∧ F32.neg (F32.mul q z x) = (F32.neg z != F32.neg x)) ∧
    (F32.isZero z = true → F32.isInf x = true → F32.isNaN (F32.mul q z x) = true) ∧
    (F32.isInf x = true → F32.isNaN (F32.sub q x x) = true ∧ F32.isNaN (F32.div q x x) = true) ∧
    (F32.isZero x = true → F32.isZero z = true → F32.isNaN (F32.div q x z) = true)

/-- R75(g): `toS` is exact, `floor` is the largest integer not above its argument, and the fraction
`a ⊖ toS(floor(a))` is computed exactly, for `0 <= a <= DLY_MAX`. -/
def Obligations.FractionIsExact : Prop :=
  (∀ n : Nat, n ≤ 1048575 → F32.val (F32.toS n) = (n : Int) * 2 ^ 149) ∧
  (∀ (q : Nat) (a : Sample), F32.le 0x00000000#32 a = true → F32.le a 0x497FFFF0#32 = true →
    ((F32.floor a : Int) * 2 ^ 149 ≤ F32.val a ∧ F32.val a < ((F32.floor a : Int) + 1) * 2 ^ 149) ∧
    F32.val (F32.sub q a (F32.toS (F32.floor a))) = F32.val a - (F32.floor a : Int) * 2 ^ 149)

/-- R161 for both choices of `SIN`: S2, it lies in `[-1, 1]` on finite arguments and is no NaN there; S3, it is `+0.0` at
`+0.0`. The first clause is the model's reading of S1 and no rule's words: arguments equal as values, the two zeros and all
the NaNs among them, give the same bits (notes/assumptions/16.md, DEDUCED). -/
def Obligations.SineProperties : Prop :=
  ∀ (c : Config.Choice) (p p' : Sample),
    (sameValue p p' = true → sinFn c p = sinFn c p') ∧
    (F32.isFinite p = true → F32.isNaN (sinFn c p) = false ∧ F32.le 0xBF800000#32 (sinFn c p) = true ∧
      F32.le (sinFn c p) 0x3F800000#32 = true) ∧
    sinFn c 0x00000000#32 = 0x00000000#32

/-- R170 for a legal drive. Of both choices of `SATFN`: P3 on samples (a zero gives a zero, the sign of `x`,
`|SATFN(x)| <= |x|`) and P5. Of the unspecified one also P1, and that it is, up to rounding, a real function with P2, the limit
of P3 and P4 (for the amount of rounding and the reading of "without a corner" see notes/assumptions/6.md); for P1 of the
default one see `DefaultSaturationMeetsItsCeiling`. -/
def Obligations.SaturationProperties : Prop :=
  (∀ (c : Config.Choice) (q : Nat) (x drive : Sample), inRange 0x3D800000#32 0x41800000#32 drive = true →
    (F32.isNaN x = true → F32.isNaN (satFn c q x drive) = true) ∧
    (F32.isNaN x = false →
      F32.isNaN (satFn c q x drive) = false ∧ F32.neg (satFn c q x drive) = F32.neg x ∧
      F32.mag (satFn c q x drive) ≤ F32.mag x ∧
      (F32.isZero x = true → F32.isZero (satFn c q x drive) = true))) ∧
  (∀ (q q' : Nat) (drive : Sample), inRange 0x3D800000#32 0x41800000#32 drive = true →
    (∀ x, F32.isNaN x = false →
      F32.le (F32.abs (satFn .unspecified q x drive)) (F32.div q' 0x3F800000#32 drive) = true) ∧
    ∃ g : ℝ → ℝ, Monotone g ∧
      Filter.Tendsto (fun x => g x / x) (nhdsWithin 0 {0}ᶜ) (nhds 1) ∧
      Filter.Tendsto (fun x => |g x|) Filter.atTop (nhds (1 / (F32.rat drive : ℝ))) ∧
      Filter.Tendsto (fun x => |g x|) Filter.atBot (nhds (1 / (F32.rat drive : ℝ))) ∧
      Differentiable ℝ g ∧
      RoundsCurve Config.freeSatRounding g (fun x => satFn .unspecified q x drive))

/-- R170 P2 of the unspecified `SATFN` on samples: it is non-decreasing up to its own rounding, which the model bounds by an
unknown number of units in the last place of the two results (notes/assumptions/6.md, DESIGN CHOICE). -/
def Obligations.SaturationIsMonotoneUpToRounding : Prop :=
  ∀ (q q' : Nat) (x y drive : Sample), inRange 0x3D800000#32 0x41800000#32 drive = true →
    F32.isFinite x = true → F32.isFinite y = true → F32.val x ≤ F32.val y →
    F32.val (satFn .unspecified q x drive) ≤ F32.val (satFn .unspecified q' y drive) +
      ((Config.freeSatRounding : Int) + 1) *
        (F32.spacing (satFn .unspecified q x drive) + F32.spacing (satFn .unspecified q' y drive) : Nat)

/-- R172: the default `SATFN` is odd exactly. -/
def Obligations.DefaultSaturationIsOdd : Prop :=
  ∀ (q : Nat) (x drive : Sample), inRange 0x3D800000#32 0x41800000#32 drive = true → F32.isNaN x = false →
    satDefault q (F32.negate x) drive = F32.negate (satDefault q x drive)

/-- R170 P1 of the default `SATFN` of R171, as the spec claims it: `|SATFN(x, drive)| <= 1.0 ⊘ drive` for every legal
drive and every `x` that is no NaN. Expected to FAIL under binary32: at drive 0x3F88BCE8 and x 0x717B0D7C the quotient
rounds to one unit in the last place above the ceiling (notes/assumptions/7.md). -/
def Obligations.DefaultSaturationMeetsItsCeiling : Prop :=
  ∀ (q : Nat) (x drive : Sample), inRange 0x3D800000#32 0x41800000#32 drive = true → F32.isNaN x = false →
    F32.le (F32.abs (satDefault q x drive)) (F32.div q 0x3F800000#32 drive) = true
end

