-- ==== Sys2Proof/Laws/Encode.lean ====
section
/-! SUPPORT. The encoder's fields as shifts and ors, in the form in which the command rules of spec/ write their words. -/

namespace Sys2Proof

/-- The word of formats I, X and Z, as the command rules write it. -/
theorem encodeIX_word {op idx imm : Nat} (h : op < 64) (hi : idx < 64) (hm : imm < 1048576) :
    encodeIX op idx imm = BitVec.ofNat 32 op <<< 26 ||| BitVec.ofNat 32 idx <<< 20 ||| BitVec.ofNat 32 imm := by
  apply BitVec.eq_of_toNat_eq
  simp only [encodeIX, BitVec.toNat_append, BitVec.toNat_or, BitVec.toNat_shiftLeft, BitVec.toNat_ofNat, Nat.reducePow]
  rw [Nat.mod_eq_of_lt (b := 64) h, Nat.mod_eq_of_lt (b := 64) hi, Nat.mod_eq_of_lt (b := 1048576) hm,
    Nat.mod_eq_of_lt (a := op) (by omega), Nat.mod_eq_of_lt (a := idx) (by omega),
    Nat.mod_eq_of_lt (a := imm) (by omega), Nat.mod_eq_of_lt (a := op <<< 26) (by rw [Nat.shiftLeft_eq]; omega),
    Nat.mod_eq_of_lt (a := idx <<< 20) (by rw [Nat.shiftLeft_eq]; omega), Nat.shiftLeft_or_distrib,
    ← Nat.shiftLeft_add]

/-- The word of format A, as the command rules write it. -/
theorem encodeA_word {op addr : Nat} (h : op < 64) (ha : addr < 4096) :
    encodeA op addr = BitVec.ofNat 32 op <<< 26 ||| BitVec.ofNat 32 addr := by
  apply BitVec.eq_of_toNat_eq
  simp only [encodeA, BitVec.toNat_append, BitVec.toNat_or, BitVec.toNat_shiftLeft, BitVec.toNat_ofNat, Nat.reducePow]
  rw [Nat.mod_eq_of_lt (b := 64) h, Nat.mod_eq_of_lt (b := 4096) ha, Nat.mod_eq_of_lt (a := op) (by omega),
    Nat.mod_eq_of_lt (a := addr) (by omega), Nat.mod_eq_of_lt (a := op <<< 26) (by rw [Nat.shiftLeft_eq]; omega)]
  simp [← Nat.shiftLeft_add]

/-- The word of format M, as the command rules write it. -/
theorem encodeM_word {op mask : Nat} (h : op < 64) (hm : mask < 4) :
    encodeM op mask = BitVec.ofNat 32 op <<< 26 ||| BitVec.ofNat 32 mask := by
  apply BitVec.eq_of_toNat_eq
  simp only [encodeM, BitVec.toNat_append, BitVec.toNat_or, BitVec.toNat_shiftLeft, BitVec.toNat_ofNat, Nat.reducePow]
  rw [Nat.mod_eq_of_lt (b := 64) h, Nat.mod_eq_of_lt (b := 4) hm, Nat.mod_eq_of_lt (a := op) (by omega),
    Nat.mod_eq_of_lt (a := mask) (by omega), Nat.mod_eq_of_lt (a := op <<< 26) (by rw [Nat.shiftLeft_eq]; omega)]
  simp [← Nat.shiftLeft_add]

end Sys2Proof
end

