-- ==== Sys2Proof/Laws/State.lean ====
section
/-! SUPPORT. One lemma per field per update of `State`, so that no proof unfolds a record update; then what each update
does to the field it changes. -/

namespace Sys2Proof.Machine

open Sys2Proof

section Fields

variable (s : State)

/-! ### `setBuf` -/

@[simp] theorem State.setBuf_impl (b : Nat) (B : Buffer) : (s.setBuf b B).impl = s.impl := rfl
@[simp] theorem State.setBuf_params (b : Nat) (B : Buffer) : (s.setBuf b B).params = s.params := rfl
@[simp] theorem State.setBuf_filters (b : Nat) (B : Buffer) : (s.setBuf b B).filters = s.filters := rfl
@[simp] theorem State.setBuf_dout (b : Nat) (B : Buffer) : (s.setBuf b B).dout = s.dout := rfl
@[simp] theorem State.setBuf_record (b : Nat) (B : Buffer) : (s.setBuf b B).record = s.record := rfl
@[simp] theorem State.setBuf_portC (b : Nat) (B : Buffer) : (s.setBuf b B).portC = s.portC := rfl
@[simp] theorem State.setBuf_portP (b : Nat) (B : Buffer) : (s.setBuf b B).portP = s.portP := rfl
@[simp] theorem State.setBuf_req (b : Nat) (B : Buffer) : (s.setBuf b B).req = s.req := rfl
@[simp] theorem State.setBuf_sched (b : Nat) (B : Buffer) : (s.setBuf b B).sched = s.sched := rfl
@[simp] theorem State.setBuf_draws (b : Nat) (B : Buffer) : (s.setBuf b B).draws = s.draws := rfl
@[simp] theorem State.setBuf_resetLine (b : Nat) (B : Buffer) : (s.setBuf b B).resetLine = s.resetLine := rfl

/-! ### `setCombLast` -/

@[simp] theorem State.setCombLast_impl (j : Nat) (v : Sample) : (s.setCombLast j v).impl = s.impl := rfl
@[simp] theorem State.setCombLast_bufs (j : Nat) (v : Sample) : (s.setCombLast j v).bufs = s.bufs := rfl
@[simp] theorem State.setCombLast_params (j : Nat) (v : Sample) : (s.setCombLast j v).params = s.params := rfl
@[simp] theorem State.setCombLast_dout (j : Nat) (v : Sample) : (s.setCombLast j v).dout = s.dout := rfl
@[simp] theorem State.setCombLast_record (j : Nat) (v : Sample) : (s.setCombLast j v).record = s.record := rfl
@[simp] theorem State.setCombLast_portC (j : Nat) (v : Sample) : (s.setCombLast j v).portC = s.portC := rfl
@[simp] theorem State.setCombLast_portP (j : Nat) (v : Sample) : (s.setCombLast j v).portP = s.portP := rfl
@[simp] theorem State.setCombLast_req (j : Nat) (v : Sample) : (s.setCombLast j v).req = s.req := rfl
@[simp] theorem State.setCombLast_sched (j : Nat) (v : Sample) : (s.setCombLast j v).sched = s.sched := rfl
@[simp] theorem State.setCombLast_draws (j : Nat) (v : Sample) : (s.setCombLast j v).draws = s.draws := rfl
@[simp] theorem State.setCombLast_resetLine (j : Nat) (v : Sample) : (s.setCombLast j v).resetLine = s.resetLine := rfl

/-! ### `setToneState` -/

@[simp] theorem State.setToneState_impl (c : Nat) (v : Sample) : (s.setToneState c v).impl = s.impl := rfl
@[simp] theorem State.setToneState_bufs (c : Nat) (v : Sample) : (s.setToneState c v).bufs = s.bufs := rfl
@[simp] theorem State.setToneState_params (c : Nat) (v : Sample) : (s.setToneState c v).params = s.params := rfl
@[simp] theorem State.setToneState_dout (c : Nat) (v : Sample) : (s.setToneState c v).dout = s.dout := rfl
@[simp] theorem State.setToneState_record (c : Nat) (v : Sample) : (s.setToneState c v).record = s.record := rfl
@[simp] theorem State.setToneState_portC (c : Nat) (v : Sample) : (s.setToneState c v).portC = s.portC := rfl
@[simp] theorem State.setToneState_portP (c : Nat) (v : Sample) : (s.setToneState c v).portP = s.portP := rfl
@[simp] theorem State.setToneState_req (c : Nat) (v : Sample) : (s.setToneState c v).req = s.req := rfl
@[simp] theorem State.setToneState_sched (c : Nat) (v : Sample) : (s.setToneState c v).sched = s.sched := rfl
@[simp] theorem State.setToneState_draws (c : Nat) (v : Sample) : (s.setToneState c v).draws = s.draws := rfl
@[simp] theorem State.setToneState_resetLine (c : Nat) (v : Sample) : (s.setToneState c v).resetLine = s.resetLine := rfl

/-! ### `setFlutter` -/

@[simp] theorem State.setFlutter_impl (p m : Sample) : (s.setFlutter p m).impl = s.impl := rfl
@[simp] theorem State.setFlutter_bufs (p m : Sample) : (s.setFlutter p m).bufs = s.bufs := rfl
@[simp] theorem State.setFlutter_params (p m : Sample) : (s.setFlutter p m).params = s.params := rfl
@[simp] theorem State.setFlutter_dout (p m : Sample) : (s.setFlutter p m).dout = s.dout := rfl
@[simp] theorem State.setFlutter_record (p m : Sample) : (s.setFlutter p m).record = s.record := rfl
@[simp] theorem State.setFlutter_portC (p m : Sample) : (s.setFlutter p m).portC = s.portC := rfl
@[simp] theorem State.setFlutter_portP (p m : Sample) : (s.setFlutter p m).portP = s.portP := rfl
@[simp] theorem State.setFlutter_req (p m : Sample) : (s.setFlutter p m).req = s.req := rfl
@[simp] theorem State.setFlutter_sched (p m : Sample) : (s.setFlutter p m).sched = s.sched := rfl
@[simp] theorem State.setFlutter_draws (p m : Sample) : (s.setFlutter p m).draws = s.draws := rfl
@[simp] theorem State.setFlutter_resetLine (p m : Sample) : (s.setFlutter p m).resetLine = s.resetLine := rfl

/-! ### `advanceDraws` -/

@[simp] theorem State.advanceDraws_impl (n : Nat) : (s.advanceDraws n).impl = s.impl := rfl
@[simp] theorem State.advanceDraws_bufs (n : Nat) : (s.advanceDraws n).bufs = s.bufs := rfl
@[simp] theorem State.advanceDraws_params (n : Nat) : (s.advanceDraws n).params = s.params := rfl
@[simp] theorem State.advanceDraws_filters (n : Nat) : (s.advanceDraws n).filters = s.filters := rfl
@[simp] theorem State.advanceDraws_dout (n : Nat) : (s.advanceDraws n).dout = s.dout := rfl
@[simp] theorem State.advanceDraws_record (n : Nat) : (s.advanceDraws n).record = s.record := rfl
@[simp] theorem State.advanceDraws_portC (n : Nat) : (s.advanceDraws n).portC = s.portC := rfl
@[simp] theorem State.advanceDraws_portP (n : Nat) : (s.advanceDraws n).portP = s.portP := rfl
@[simp] theorem State.advanceDraws_req (n : Nat) : (s.advanceDraws n).req = s.req := rfl
@[simp] theorem State.advanceDraws_sched (n : Nat) : (s.advanceDraws n).sched = s.sched := rfl
@[simp] theorem State.advanceDraws_resetLine (n : Nat) : (s.advanceDraws n).resetLine = s.resetLine := rfl

/-! ### `writeReg` -/

@[simp] theorem State.writeReg_impl (r : Reg) (w : Word) : (s.writeReg r w).impl = s.impl := rfl
@[simp] theorem State.writeReg_bufs (r : Reg) (w : Word) : (s.writeReg r w).bufs = s.bufs := rfl
@[simp] theorem State.writeReg_filters (r : Reg) (w : Word) : (s.writeReg r w).filters = s.filters := rfl
@[simp] theorem State.writeReg_dout (r : Reg) (w : Word) : (s.writeReg r w).dout = s.dout := rfl
@[simp] theorem State.writeReg_record (r : Reg) (w : Word) : (s.writeReg r w).record = s.record := rfl
@[simp] theorem State.writeReg_portC (r : Reg) (w : Word) : (s.writeReg r w).portC = s.portC := rfl
@[simp] theorem State.writeReg_portP (r : Reg) (w : Word) : (s.writeReg r w).portP = s.portP := rfl
@[simp] theorem State.writeReg_req (r : Reg) (w : Word) : (s.writeReg r w).req = s.req := rfl
@[simp] theorem State.writeReg_sched (r : Reg) (w : Word) : (s.writeReg r w).sched = s.sched := rfl
@[simp] theorem State.writeReg_draws (r : Reg) (w : Word) : (s.writeReg r w).draws = s.draws := rfl
@[simp] theorem State.writeReg_resetLine (r : Reg) (w : Word) : (s.writeReg r w).resetLine = s.resetLine := rfl

/-! ### `respond` -/

@[simp] theorem State.respond_impl (st : RespStatus) (q : Word) : (s.respond st q).impl = s.impl := by unfold State.respond; split <;> rfl
@[simp] theorem State.respond_bufs (st : RespStatus) (q : Word) : (s.respond st q).bufs = s.bufs := by unfold State.respond; split <;> rfl
@[simp] theorem State.respond_params (st : RespStatus) (q : Word) : (s.respond st q).params = s.params := by unfold State.respond; split <;> rfl
@[simp] theorem State.respond_filters (st : RespStatus) (q : Word) : (s.respond st q).filters = s.filters := by unfold State.respond; split <;> rfl
@[simp] theorem State.respond_dout (st : RespStatus) (q : Word) : (s.respond st q).dout = s.dout := by unfold State.respond; split <;> rfl
@[simp] theorem State.respond_record (st : RespStatus) (q : Word) : (s.respond st q).record = s.record := by unfold State.respond; split <;> rfl
@[simp] theorem State.respond_req (st : RespStatus) (q : Word) : (s.respond st q).req = s.req := by unfold State.respond; split <;> rfl
@[simp] theorem State.respond_sched (st : RespStatus) (q : Word) : (s.respond st q).sched = s.sched := by unfold State.respond; split <;> rfl
@[simp] theorem State.respond_draws (st : RespStatus) (q : Word) : (s.respond st q).draws = s.draws := by unfold State.respond; split <;> rfl
@[simp] theorem State.respond_resetLine (st : RespStatus) (q : Word) : (s.respond st q).resetLine = s.resetLine := by unfold State.respond; split <;> rfl

/-! ### `complete` -/

@[simp] theorem State.complete_impl : (s.complete).impl = s.impl := State.respond_impl _ _ _
@[simp] theorem State.complete_bufs : (s.complete).bufs = s.bufs := State.respond_bufs _ _ _
@[simp] theorem State.complete_params : (s.complete).params = s.params := State.respond_params _ _ _
@[simp] theorem State.complete_filters : (s.complete).filters = s.filters := State.respond_filters _ _ _
@[simp] theorem State.complete_dout : (s.complete).dout = s.dout := State.respond_dout _ _ _
@[simp] theorem State.complete_record : (s.complete).record = s.record := State.respond_record _ _ _
@[simp] theorem State.complete_req : (s.complete).req = s.req := State.respond_req _ _ _
@[simp] theorem State.complete_sched : (s.complete).sched = s.sched := State.respond_sched _ _ _
@[simp] theorem State.complete_draws : (s.complete).draws = s.draws := State.respond_draws _ _ _
@[simp] theorem State.complete_resetLine : (s.complete).resetLine = s.resetLine := State.respond_resetLine _ _ _

/-! ### `result` -/

@[simp] theorem State.result_impl (v : Sample) : (s.result v).impl = s.impl := State.respond_impl _ _ _
@[simp] theorem State.result_bufs (v : Sample) : (s.result v).bufs = s.bufs := State.respond_bufs _ _ _
@[simp] theorem State.result_params (v : Sample) : (s.result v).params = s.params := State.respond_params _ _ _
@[simp] theorem State.result_filters (v : Sample) : (s.result v).filters = s.filters := State.respond_filters _ _ _
@[simp] theorem State.result_record (v : Sample) : (s.result v).record = s.record := State.respond_record _ _ _
@[simp] theorem State.result_req (v : Sample) : (s.result v).req = s.req := State.respond_req _ _ _
@[simp] theorem State.result_sched (v : Sample) : (s.result v).sched = s.sched := State.respond_sched _ _ _
@[simp] theorem State.result_draws (v : Sample) : (s.result v).draws = s.draws := State.respond_draws _ _ _
@[simp] theorem State.result_resetLine (v : Sample) : (s.result v).resetLine = s.resetLine := State.respond_resetLine _ _ _

/-! ### `recordFault` -/

@[simp] theorem State.recordFault_impl (c : Cause) : (s.recordFault c).impl = s.impl := by unfold State.recordFault; split <;> rfl
@[simp] theorem State.recordFault_bufs (c : Cause) : (s.recordFault c).bufs = s.bufs := by unfold State.recordFault; split <;> rfl
@[simp] theorem State.recordFault_params (c : Cause) : (s.recordFault c).params = s.params := by unfold State.recordFault; split <;> rfl
@[simp] theorem State.recordFault_filters (c : Cause) : (s.recordFault c).filters = s.filters := by unfold State.recordFault; split <;> rfl
@[simp] theorem State.recordFault_dout (c : Cause) : (s.recordFault c).dout = s.dout := by unfold State.recordFault; split <;> rfl
@[simp] theorem State.recordFault_portC (c : Cause) : (s.recordFault c).portC = s.portC := by unfold State.recordFault; split <;> rfl
@[simp] theorem State.recordFault_portP (c : Cause) : (s.recordFault c).portP = s.portP := by unfold State.recordFault; split <;> rfl
@[simp] theorem State.recordFault_req (c : Cause) : (s.recordFault c).req = s.req := by unfold State.recordFault; split <;> rfl
@[simp] theorem State.recordFault_sched (c : Cause) : (s.recordFault c).sched = s.sched := by unfold State.recordFault; split <;> rfl
@[simp] theorem State.recordFault_draws (c : Cause) : (s.recordFault c).draws = s.draws := by unfold State.recordFault; split <;> rfl
@[simp] theorem State.recordFault_resetLine (c : Cause) : (s.recordFault c).resetLine = s.resetLine := by unfold State.recordFault; split <;> rfl

/-! ### `spendChoice` -/

@[simp] theorem State.spendChoice_impl : (s.spendChoice).impl = s.impl := by unfold State.spendChoice; split <;> rfl
@[simp] theorem State.spendChoice_bufs : (s.spendChoice).bufs = s.bufs := by unfold State.spendChoice; split <;> rfl
@[simp] theorem State.spendChoice_params : (s.spendChoice).params = s.params := by unfold State.spendChoice; split <;> rfl
@[simp] theorem State.spendChoice_filters : (s.spendChoice).filters = s.filters := by unfold State.spendChoice; split <;> rfl
@[simp] theorem State.spendChoice_dout : (s.spendChoice).dout = s.dout := by unfold State.spendChoice; split <;> rfl
@[simp] theorem State.spendChoice_record : (s.spendChoice).record = s.record := by unfold State.spendChoice; split <;> rfl
@[simp] theorem State.spendChoice_portC : (s.spendChoice).portC = s.portC := by unfold State.spendChoice; split <;> rfl
@[simp] theorem State.spendChoice_portP : (s.spendChoice).portP = s.portP := by unfold State.spendChoice; split <;> rfl
@[simp] theorem State.spendChoice_req : (s.spendChoice).req = s.req := by unfold State.spendChoice; split <;> rfl
@[simp] theorem State.spendChoice_resetLine : (s.spendChoice).resetLine = s.resetLine := by unfold State.spendChoice; split <;> rfl

/-! ### `raiseFault` -/

@[simp] theorem raiseFault_impl (c : Cause) : (raiseFault c s).impl = s.impl := by simp [raiseFault]
@[simp] theorem raiseFault_bufs (c : Cause) : (raiseFault c s).bufs = s.bufs := by simp [raiseFault]
@[simp] theorem raiseFault_params (c : Cause) : (raiseFault c s).params = s.params := by simp [raiseFault]
@[simp] theorem raiseFault_filters (c : Cause) : (raiseFault c s).filters = s.filters := by simp [raiseFault]
@[simp] theorem raiseFault_dout (c : Cause) : (raiseFault c s).dout = s.dout := by simp [raiseFault]
@[simp] theorem raiseFault_req (c : Cause) : (raiseFault c s).req = s.req := by simp [raiseFault]
@[simp] theorem raiseFault_sched (c : Cause) : (raiseFault c s).sched = s.sched := by simp [raiseFault]
@[simp] theorem raiseFault_draws (c : Cause) : (raiseFault c s).draws = s.draws := by simp [raiseFault]
@[simp] theorem raiseFault_resetLine (c : Cause) : (raiseFault c s).resetLine = s.resetLine := by simp [raiseFault]

/-! ### `refuse` -/

@[simp] theorem refuse_impl : (refuse s).impl = s.impl := by simp [refuse]
@[simp] theorem refuse_bufs : (refuse s).bufs = s.bufs := by simp [refuse]
@[simp] theorem refuse_params : (refuse s).params = s.params := by simp [refuse]
@[simp] theorem refuse_filters : (refuse s).filters = s.filters := by simp [refuse]
@[simp] theorem refuse_dout : (refuse s).dout = s.dout := by simp [refuse]
@[simp] theorem refuse_record : (refuse s).record = s.record := by simp [refuse]
@[simp] theorem refuse_req : (refuse s).req = s.req := by simp [refuse]
@[simp] theorem refuse_sched : (refuse s).sched = s.sched := by simp [refuse]
@[simp] theorem refuse_draws : (refuse s).draws = s.draws := by simp [refuse]
@[simp] theorem refuse_resetLine : (refuse s).resetLine = s.resetLine := by simp [refuse]

/-! ### `deny` -/

@[simp] theorem deny_impl : (deny s).impl = s.impl := by simp [deny]
@[simp] theorem deny_bufs : (deny s).bufs = s.bufs := by simp [deny]
@[simp] theorem deny_params : (deny s).params = s.params := by simp [deny]
@[simp] theorem deny_filters : (deny s).filters = s.filters := by simp [deny]
@[simp] theorem deny_dout : (deny s).dout = s.dout := by simp [deny]
@[simp] theorem deny_record : (deny s).record = s.record := by simp [deny]
@[simp] theorem deny_req : (deny s).req = s.req := by simp [deny]
@[simp] theorem deny_sched : (deny s).sched = s.sched := by simp [deny]
@[simp] theorem deny_draws : (deny s).draws = s.draws := by simp [deny]
@[simp] theorem deny_resetLine : (deny s).resetLine = s.resetLine := by simp [deny]

end Fields
/-! ## The fields an update changes -/

@[simp] theorem State.setBuf_bufs (s : State) (b : Nat) (B : Buffer) :
    (s.setBuf b B).bufs = s.bufs.setIfInBounds b B := rfl

@[simp] theorem State.setCombLast_filters (s : State) (j : Nat) (v : Sample) :
    (s.setCombLast j v).filters =
      { s.filters with combLast := s.filters.combLast.setIfInBounds j v } := rfl

@[simp] theorem State.setToneState_filters (s : State) (c : Nat) (v : Sample) :
    (s.setToneState c v).filters =
      { s.filters with toneState := s.filters.toneState.setIfInBounds c v } := rfl

@[simp] theorem State.setFlutter_filters (s : State) (p m : Sample) :
    (s.setFlutter p m).filters = { s.filters with flutPhase := p, modDly := m } := rfl

@[simp] theorem State.advanceDraws_draws (s : State) (n : Nat) : (s.advanceDraws n).draws = s.draws + n := rfl

@[simp] theorem State.writeReg_params (s : State) (r : Reg) (w : Word) :
    (s.writeReg r w).params = s.params.writeReg r w := rfl

@[simp] theorem State.result_dout (s : State) (v : Sample) : (s.result v).dout = v :=
  State.respond_dout _ _ _

@[simp] theorem raiseFault_record (c : Cause) (s : State) : (raiseFault c s).record = (s.recordFault c).record := by
  simp [raiseFault]



theorem State.recordFault_of_faulted {s : State} (c : Cause) (h : s.faulted = true) : s.recordFault c = s := by
  simp [State.recordFault, h]

theorem State.recordFault_record_of_clear {s : State} (c : Cause) (h : s.faulted = false) :
    (s.recordFault c).record = { status := c.statusWord, fcmd := s.req.word, fdata := s.req.data } := by
  simp [State.recordFault, h]

/-! ## Indexed elements -/

/-- `getD` by way of the optional element. -/
theorem getD_eq_option {α : Type} {n : Nat} (v : Vector α n) (j : Nat) (d : α) : v.getD j d = v[j]?.getD d := by
  simp [Vector.getD]

/-- Reading a vector after one element was written. -/
theorem getD_setIfInBounds {α : Type} {n : Nat} (v : Vector α n) (i j : Nat) (x d : α) :
    (v.setIfInBounds i x).getD j d = if i = j ∧ i < n then x else v.getD j d := by
  simp only [getD_eq_option, Vector.getElem?_setIfInBounds]
  by_cases h : i = j
  · by_cases h' : i < n
    · simp [h, h ▸ h']
    · subst h
      simp [h']
  · simp [h]

/-- A vector of one value read anywhere within its length. -/
theorem getD_replicate {α : Type} (n i : Nat) (x d : α) :
    (Vector.replicate n x).getD i d = if i < n then x else d := by
  simp only [getD_eq_option, Vector.getElem?_replicate]
  split <;> simp

theorem State.buf_setBuf (s : State) (b b' : Nat) (B : Buffer) :
    (s.setBuf b B).buf b' = if b = b' ∧ b < 15 then B else s.buf b' :=
  getD_setIfInBounds _ _ _ _ _

@[simp] theorem State.buf_setBuf_self (s : State) {b : Nat} (B : Buffer) (h : b < 15) :
    (s.setBuf b B).buf b = B := by
  simp [State.buf_setBuf, h]

theorem State.buf_setBuf_ne (s : State) {b b' : Nat} (B : Buffer) (h : b' ≠ b) :
    (s.setBuf b B).buf b' = s.buf b' := by
  simp [State.buf_setBuf, Ne.symm h]

theorem State.combLast_setCombLast (s : State) (j j' : Nat) (v : Sample) :
    (s.setCombLast j v).combLast j' = if j = j' ∧ j < 8 then v else s.combLast j' :=
  getD_setIfInBounds _ _ _ _ _

theorem State.toneState_setToneState (s : State) (c c' : Nat) (v : Sample) :
    (s.setToneState c v).toneState c' = if c = c' ∧ c < 2 then v else s.toneState c' :=
  getD_setIfInBounds _ _ _ _ _

/-- A buffer is read from `bufs` alone. -/
theorem State.buf_congr {s t : State} (h : t.bufs = s.bufs) (b : Nat) : t.buf b = s.buf b := by
  simp [State.buf, h]

/-! ## Responses -/

theorem State.respond_queue_self (s : State) (st : RespStatus) (q : Word) :
    (s.respond st q).queue s.req.port = (s.queue s.req.port).answer { st := st, q := q } := by
  unfold State.respond
  split <;> rename_i h <;> simp [State.queue, h]

theorem State.respond_queue_ne (s : State) (st : RespStatus) (q : Word) {p : Port} (h : p ≠ s.req.port) :
    (s.respond st q).queue p = s.queue p := by
  cases hp : s.req.port <;> cases p <;> simp_all [State.respond, State.queue]

/-- What a response does to the two ports (R15): one more response on the request's port, nothing on the other. -/
theorem State.respond_answeredWith (s : State) (st : RespStatus) (q : Word) :
    answeredWith s (s.respond st q) { st := st, q := q } :=
  ⟨s.respond_queue_self st q, fun _ h => s.respond_queue_ne st q h⟩

@[simp] theorem State.faulted_respond (s : State) (st : RespStatus) (q : Word) :
    (s.respond st q).faulted = s.faulted := by
  simp [State.faulted]

end Sys2Proof.Machine
end

