-- ==== Sys2Proof/Laws/Memory.lean ====
section
/-! SUPPORT. What each memory operation does to every cell, that it keeps the canonical form and names existing cells
only; the index arithmetic and the Delay Buffer operations over it. -/

namespace Sys2Proof.Machine

open Sys2Proof

/-! ## Reading after an update -/

@[simp] theorem Mem.read_nil (k : Nat) : Mem.read [] k = unlistedSample := rfl

/-- Reading a memory from which entries were filtered out by their index. -/
theorem Mem.read_filter (p : Nat → Bool) (m : Mem) (k : Nat) :
    Mem.read (m.filter (fun c => p c.1)) k = if p k then Mem.read m k else unlistedSample := by
  induction m with
  | nil => simp
  | cons c m ih =>
    obtain ⟨a, v⟩ := c
    by_cases ha : p a
    · rw [List.filter_cons_of_pos (by simpa using ha)]
      by_cases hk : a = k
      · subst hk; simp [ha, Mem.read]
      · simp [hk, Mem.read, ih]
    · rw [List.filter_cons_of_neg (by simpa using ha), ih]
      by_cases hk : a = k
      · subst hk; simp [ha]
      · simp [Mem.read, hk]

theorem Mem.read_erase (m : Mem) (k k' : Nat) :
    Mem.read (Mem.erase m k) k' = if k' = k then unlistedSample else Mem.read m k' := by
  unfold Mem.erase
  rw [Mem.read_filter (fun a => a != k)]
  by_cases h : k' = k <;> simp [h]

theorem Mem.read_insert (m : Mem) (k k' : Nat) (v : Sample) (hk : ∀ c ∈ m, c.1 ≠ k) :
    Mem.read (Mem.insert m k v) k' = if k' = k then v else Mem.read m k' := by
  induction m with
  | nil => simp [Mem.insert, Mem.read, eq_comm]
  | cons c m ih =>
    obtain ⟨a, w⟩ := c
    have ha : a ≠ k := hk (a, w) (by simp)
    have ih := ih (fun c hc => hk c (by simp [hc]))
    unfold Mem.insert
    split
    · simp [Mem.read, eq_comm]
    · simp only [Mem.read, ih]
      by_cases h : a = k'
      · subst h; simp [ha]
      · simp [h]

/-- Read after write: the written cell holds the value, every other cell is as it was. -/
theorem Mem.read_write (m : Mem) (k k' : Nat) (v : Sample) :
    Mem.read (Mem.write m k v) k' = if k' = k then v else Mem.read m k' := by
  unfold Mem.write
  split
  · rename_i h; simp [Mem.read_erase, h]
  · rw [Mem.read_insert _ _ _ _ (by simp [Mem.erase]), Mem.read_erase]
    by_cases h : k' = k <;> simp [h]

/-- The cells below `n` read `+0.0`, the others as before. -/
theorem Mem.read_clearBelow (m : Mem) (n k : Nat) :
    Mem.read (Mem.clearBelow m n) k = if k < n then unlistedSample else Mem.read m k := by
  unfold Mem.clearBelow
  rw [Mem.read_filter (fun a => decide (n ≤ a))]
  by_cases h : k < n
  · simp [h, Nat.not_le.mpr h]
  · simp [h, Nat.not_lt.mp h]

/-! ## The canonical form is kept -/

theorem Mem.wf_iff (m : Mem) :
    Mem.wf m = true ↔ m.Pairwise (fun x y => x.1 < y.1) ∧ ∀ c ∈ m, c.2 ≠ unlistedSample := by
  simp [Mem.wf]

@[simp] theorem Mem.wf_nil : Mem.wf [] = true := by simp [Mem.wf]

theorem Mem.wf_filter (p : Nat × Sample → Bool) {m : Mem} (h : Mem.wf m = true) : Mem.wf (m.filter p) = true := by
  rw [Mem.wf_iff] at h ⊢
  exact ⟨h.1.filter p, fun c hc => h.2 c (List.mem_of_mem_filter hc)⟩

theorem Mem.mem_insert {m : Mem} {k : Nat} {v : Sample} {c : Nat × Sample} :
    c ∈ Mem.insert m k v ↔ c = (k, v) ∨ c ∈ m := by
  induction m with
  | nil => simp [Mem.insert]
  | cons a m ih =>
    obtain ⟨a, w⟩ := a
    unfold Mem.insert
    split
    · simp
    · simp [ih, or_left_comm]

theorem Mem.pairwise_insert {m : Mem} {k : Nat} {v : Sample} (h : m.Pairwise (fun x y => x.1 < y.1))
    (hk : ∀ c ∈ m, c.1 ≠ k) : (Mem.insert m k v).Pairwise (fun x y => x.1 < y.1) := by
  induction m with
  | nil => simp [Mem.insert]
  | cons a m ih =>
    obtain ⟨a, w⟩ := a
    have hak : a ≠ k := hk (a, w) (by simp)
    obtain ⟨h1, h2⟩ := List.pairwise_cons.mp h
    unfold Mem.insert
    split
    · rename_i hlt
      refine List.pairwise_cons.mpr ⟨fun c hc => ?_, h⟩
      rcases List.mem_cons.mp hc with rfl | hc
      · exact hlt
      · exact Nat.lt_trans hlt (h1 c hc)
    · rename_i hlt
      refine List.pairwise_cons.mpr ⟨fun c hc => ?_, ih h2 (fun c hc => hk c (by simp [hc]))⟩
      rcases Mem.mem_insert.mp hc with rfl | hc
      · show a < k
        omega
      · exact h1 c hc

theorem Mem.wf_write {m : Mem} (k : Nat) (v : Sample) (h : Mem.wf m = true) : Mem.wf (Mem.write m k v) = true := by
  have he : Mem.wf (Mem.erase m k) = true := Mem.wf_filter _ h
  unfold Mem.write
  split
  · exact he
  · rename_i hv
    rw [Mem.wf_iff] at he ⊢
    refine ⟨Mem.pairwise_insert he.1 (by simp [Mem.erase]), fun c hc => ?_⟩
    rcases Mem.mem_insert.mp hc with rfl | hc
    · exact hv
    · exact he.2 c hc

theorem Mem.wf_clearBelow {m : Mem} (n : Nat) (h : Mem.wf m = true) : Mem.wf (Mem.clearBelow m n) = true :=
  Mem.wf_filter _ h

theorem Mem.mem_write {m : Mem} {k : Nat} {v : Sample} {c : Nat × Sample} (h : c ∈ Mem.write m k v) :
    c.1 = k ∨ c ∈ m := by
  unfold Mem.write at h
  split at h
  · exact .inr (List.mem_of_mem_filter h)
  · rcases Mem.mem_insert.mp h with rfl | h
    · exact .inl rfl
    · exact .inr (List.mem_of_mem_filter h)

theorem Mem.mem_clearBelow {m : Mem} {n : Nat} {c : Nat × Sample} (h : c ∈ Mem.clearBelow m n) : c ∈ m :=
  List.mem_of_mem_filter h

/-- A canonical memory is read off its entries: two canonical memories with the same cells are the same data. -/
theorem Mem.read_of_mem {m : Mem} (h : Mem.wf m = true) {c : Nat × Sample} (hc : c ∈ m) : Mem.read m c.1 = c.2 := by
  rw [Mem.wf_iff] at h
  induction m with
  | nil => simp at hc
  | cons a m ih =>
    obtain ⟨h1, h2⟩ := List.pairwise_cons.mp h.1
    rcases List.mem_cons.mp hc with rfl | hc'
    · simp [Mem.read]
    · have hne : a.1 ≠ c.1 := Nat.ne_of_lt (h1 c hc')
      show (if a.1 = c.1 then a.2 else Mem.read m c.1) = c.2
      rw [if_neg hne]
      exact ih ⟨h2, fun d hd => h.2 d (by simp [hd])⟩ hc'

/-! ## Index arithmetic (R64) -/

/-- R64: within `0 <= n <= SIZE`, the residue is `CUR - n`, or that plus `SIZE` where it would be negative. -/
theorem Buffer.idx_eq {B : Buffer} (hc : B.cur < B.size) {n : Nat} (hn : n ≤ B.size) :
    B.idx n = if n ≤ B.cur then B.cur - n else B.cur + B.size - n := by
  unfold Buffer.idx
  split
  · rw [Int.emod_eq_of_lt (by omega) (by omega)]
    omega
  · rw [← Int.add_emod_right, Int.emod_eq_of_lt (by omega) (by omega)]
    omega

/-- R64: an index of a sized buffer lies in `[0, SIZE)`. -/
theorem Buffer.idx_lt {B : Buffer} (h : B.size ≠ 0) (n : Nat) : B.idx n < B.size := by
  unfold Buffer.idx
  have h1 : 0 ≤ ((B.cur : Int) - n) % (B.size : Int) := Int.emod_nonneg _ (by omega)
  have h2 := Int.emod_lt_of_pos ((B.cur : Int) - n) (b := (B.size : Int)) (by omega)
  omega

/-- R64: `(CUR + 1) mod SIZE` is 0 at the last cell, else one more. -/
theorem Buffer.succ_mod {B : Buffer} (hc : B.cur < B.size) :
    (B.cur + 1) % B.size = if B.cur + 1 = B.size then 0 else B.cur + 1 := by
  split
  · rename_i h; rw [h, Nat.mod_self]
  · exact Nat.mod_eq_of_lt (by omega)

/-! ## Delay Buffer operations -/

@[simp] theorem Buffer.push_size (B : Buffer) (v : Sample) : (B.push v).size = B.size := rfl
@[simp] theorem Buffer.push_cur (B : Buffer) (v : Sample) : (B.push v).cur = (B.cur + 1) % B.size := rfl
@[simp] theorem Buffer.push_mem (B : Buffer) (v : Sample) : (B.push v).mem = Mem.write B.mem B.cur v := rfl
@[simp] theorem Buffer.clear_size (B : Buffer) : B.clear.size = B.size := rfl
@[simp] theorem Buffer.clear_cur (B : Buffer) : B.clear.cur = 0 := rfl
@[simp] theorem Buffer.clear_mem (B : Buffer) : B.clear.mem = Mem.clearBelow B.mem B.size := rfl
@[simp] theorem Buffer.resize_size (B : Buffer) (n : Nat) : (B.resize n).size = n := rfl
@[simp] theorem Buffer.resize_cur (B : Buffer) (n : Nat) : (B.resize n).cur = 0 := rfl
@[simp] theorem Buffer.resize_mem (B : Buffer) (n : Nat) : (B.resize n).mem = Mem.clearBelow B.mem n := rfl

theorem Buffer.memInv_push {B : Buffer} {cap : Nat} (v : Sample) (h : B.memInv cap) (hc : B.cur < cap) :
    (B.push v).memInv cap := by
  refine ⟨Mem.wf_write _ _ h.1, fun c hc' => ?_⟩
  rcases Mem.mem_write hc' with h' | h'
  · omega
  · exact h.2 c h'

theorem Buffer.memInv_clear {B : Buffer} {cap : Nat} (h : B.memInv cap) : B.clear.memInv cap :=
  ⟨Mem.wf_clearBelow _ h.1, fun c hc => h.2 c (Mem.mem_clearBelow hc)⟩

theorem Buffer.memInv_resize {B : Buffer} {cap : Nat} (n : Nat) (h : B.memInv cap) : (B.resize n).memInv cap :=
  ⟨Mem.wf_clearBelow _ h.1, fun c hc => h.2 c (Mem.mem_clearBelow hc)⟩

theorem Buffer.cursorInv_push {B : Buffer} {cap : Nat} (v : Sample) (h : B.cursorInv cap) (hs : B.size ≠ 0) :
    (B.push v).cursorInv cap :=
  ⟨h.1, fun h0 => absurd h0 hs, fun _ => Nat.mod_lt _ (Nat.pos_of_ne_zero hs)⟩

theorem Buffer.cursorInv_clear {B : Buffer} {cap : Nat} (h : B.cursorInv cap) : B.clear.cursorInv cap :=
  ⟨h.1, fun _ => rfl, fun h0 => Nat.pos_of_ne_zero h0⟩

/-! ## Cells of the state under the buffer updates -/

theorem State.cell_setBuf_ne (s : State) {b b' : Nat} (B : Buffer) (k : Nat) (h : b' ≠ b) :
    (s.setBuf b B).cell b' k = s.cell b' k := by
  simp [State.cell, State.buf_setBuf_ne s B h]

/-- Every cell of buffer `b` after one `BufWrite` (R122). -/
theorem State.cell_push (s : State) {b : Nat} (hb : b < 15) (v : Sample) (k : Nat) :
    (s.setBuf b ((s.buf b).push v)).cell b k = if k = (s.buf b).cur then v else s.cell b k := by
  simp [State.cell, hb, Mem.read_write]

/-- Every cell of buffer `b` after a `SETSIZE` (R120). -/
theorem State.cell_resize (s : State) {b : Nat} (hb : b < 15) (n k : Nat) :
    (s.setBuf b ((s.buf b).resize n)).cell b k = if k < n then unlistedSample else s.cell b k := by
  simp [State.cell, hb, Mem.read_clearBelow]

/-- Every cell of buffer `b` after a `CLEAR` (R126). -/
theorem State.cell_clear (s : State) {b : Nat} (hb : b < 15) (k : Nat) :
    (s.setBuf b (s.buf b).clear).cell b k = if k < (s.buf b).size then unlistedSample else s.cell b k := by
  simp [State.cell, hb, Mem.read_clearBelow]

end Sys2Proof.Machine
end

