-- ==== Sys2Proof/Laws/Exec.lean ====
section
/-! SUPPORT. Serving a request said once: every command is `serve` of its port right, its faulted-state right, its
admission checks and its pseudocode (`exec_eq_serve`), and `serve` does one of four things (`serve_cases`). -/

namespace Sys2Proof.Machine

open Sys2Proof

/-! ## The four outcomes of serving a request (R223) -/

section Serve

variable {onP whenFaulted : Bool} {check : State → Option Cause} {run : State → State} {s : State}

/-- Everything `serve` can do. -/
theorem serve_cases (onP whenFaulted : Bool) (check : State → Option Cause) (run : State → State) (s : State) :
    (s.req.port = .P ∧ onP = false ∧ serve onP whenFaulted check run s = deny s) ∨
    (¬(s.req.port = .P ∧ onP = false) ∧ s.faulted = true ∧ whenFaulted = false ∧
      serve onP whenFaulted check run s = refuse s) ∨
    (¬(s.req.port = .P ∧ onP = false) ∧ ¬(s.faulted = true ∧ whenFaulted = false) ∧
      ∃ c, check s = some c ∧ serve onP whenFaulted check run s = raiseFault c s) ∨
    (¬(s.req.port = .P ∧ onP = false) ∧ ¬(s.faulted = true ∧ whenFaulted = false) ∧
      check s = none ∧ serve onP whenFaulted check run s = run s) := by
  unfold serve
  split
  · rename_i h; exact .inl ⟨h.1, h.2, rfl⟩
  · rename_i h
    split
    · rename_i h'; exact .inr (.inl ⟨h, h'.1, h'.2, rfl⟩)
    · rename_i h'
      split
      · rename_i c hc; exact .inr (.inr (.inl ⟨h, h', c, hc, rfl⟩))
      · rename_i hc; exact .inr (.inr (.inr ⟨h, h', hc, rfl⟩))

theorem serve_denied (hp : s.req.port = .P) (h : onP = false) : serve onP whenFaulted check run s = deny s := by
  simp [serve, hp, h]

theorem serve_refused (hp : s.req.port = .C ∨ onP = true) (hf : s.faulted = true) (h : whenFaulted = false) :
    serve onP whenFaulted check run s = refuse s := by
  have hd : ¬(s.req.port = .P ∧ onP = false) := by rcases hp with h' | h' <;> simp [h']
  simp [serve, hd, hf, h]

theorem serve_raised {c : Cause} (hp : s.req.port = .C ∨ onP = true) (hf : s.faulted = false ∨ whenFaulted = true)
    (hc : check s = some c) : serve onP whenFaulted check run s = raiseFault c s := by
  have hd : ¬(s.req.port = .P ∧ onP = false) := by rcases hp with h' | h' <;> simp [h']
  have hg : ¬(s.faulted = true ∧ whenFaulted = false) := by rcases hf with h' | h' <;> simp [h']
  simp [serve, hd, hg, hc]

theorem serve_ran (hp : s.req.port = .C ∨ onP = true) (hf : s.faulted = false ∨ whenFaulted = true)
    (hc : check s = none) : serve onP whenFaulted check run s = run s := by
  have hd : ¬(s.req.port = .P ∧ onP = false) := by rcases hp with h' | h' <;> simp [h']
  have hg : ¬(s.faulted = true ∧ whenFaulted = false) := by rcases hf with h' | h' <;> simp [h']
  simp [serve, hd, hg, hc]

end Serve

/-! ## The checks and the pseudocode of each command -/

/-- The admission checks of a command: the first that fails (R224). -/
def admission : Instr → State → Option Cause
  | .nop => fun _ => none
  | .setsize b n => setsizeCheck b n
  | .write b => writeCheck b
  | .read b n => readCheck b n
  | .readi b => readiCheck b
  | .clear b => clearCheck b
  | .apf i => apfCheck i
  | .comb j => combCheck j
  | .flut => fun _ => none
  | .tape c => tapeCheck c
  | .sat => fun _ => none
  | .rdreg a => rdregCheck a
  | .wrreg a => wrregCheck a
  | .sreset _ => fun _ => none

/-- The pseudocode of a command with its response. -/
def effect : Instr → State → State
  | .nop => State.complete
  | .setsize b n => setsizeRun b n
  | .write b => writeRun b
  | .read b n => readRun b n
  | .readi b => readiRun b
  | .clear b => clearRun b
  | .apf i => apfRun i
  | .comb j => combRun j
  | .flut => flutRun
  | .tape c => tapeRun c
  | .sat => satRun
  | .rdreg a => rdregRun a
  | .wrreg a => wrregRun a
  | .sreset m => fun s => (resetGroups m s).complete

/-- Every command is served in one way (R223). -/
theorem exec_eq_serve (i : Instr) (s : State) :
    exec i s = .next (serve (permittedOnPortP i) (runsWhenFaulted i) (admission i) (effect i) s) := by
  cases i <;> rfl

/-! ## The checks, resolved -/

theorem firstFailing_none {l : List (Bool × Cause)} : firstFailing l = none ↔ ∀ p ∈ l, p.1 = false := by
  induction l with
  | nil => simp [firstFailing]
  | cons a l ih =>
    obtain ⟨f, c⟩ := a
    cases f <;> simp [firstFailing, ih]

theorem writeCheck_none {b : Nat} {s : State} :
    writeCheck b s = none ↔ b < Config.nBuf ∧ (s.buf b).size ≠ 0 := by
  simp [writeCheck, firstFailing_none, badBuffer, unprepared, Buffer.unsized]

theorem setsizeCheck_none {b n : Nat} {s : State} :
    setsizeCheck b n s = none ↔ b < Config.nBuf ∧ n ≠ 0 ∧ n ≤ s.physCap b := by
  simp [setsizeCheck, firstFailing_none, badBuffer]

theorem readCheck_none {b n : Nat} {s : State} :
    readCheck b n s = none ↔ b < Config.nBuf ∧ (s.buf b).size ≠ 0 ∧ n < (s.buf b).size := by
  simp [readCheck, firstFailing_none, badBuffer, unprepared, Buffer.unsized, Buffer.delayBad]

theorem readiCheck_none {b : Nat} {s : State} :
    readiCheck b s = none ↔
      b < Config.nBuf ∧ (s.buf b).size ≠ 0 ∧ (s.buf b).fracDelayBad s.dataWord = false := by
  simp [readiCheck, firstFailing_none, badBuffer, unprepared, Buffer.unsized]

theorem clearCheck_none {b : Nat} {s : State} : clearCheck b s = none ↔ b < Config.nBuf := by
  simp [clearCheck, firstFailing_none, badBuffer]

theorem apfCheck_none {i : Nat} {s : State} :
    apfCheck i s = none ↔
      i < Config.nAp ∧ (s.buf (apBuf i)).size ≠ 0 ∧ s.apDelay i < (s.buf (apBuf i)).size := by
  simp [apfCheck, firstFailing_none, Buffer.unsized, Buffer.delayBad]

theorem combCheck_none {j : Nat} {s : State} :
    combCheck j s = none ↔
      j < Config.nComb ∧ (s.buf (cBuf j)).size ≠ 0 ∧ s.combDelay j < (s.buf (cBuf j)).size := by
  simp [combCheck, firstFailing_none, Buffer.unsized, Buffer.delayBad]

theorem tapeCheck_none {c : Nat} {s : State} :
    tapeCheck c s = none ↔
      c < Config.nTape ∧ (s.buf (tBuf c)).size ≠ 0 ∧ (s.buf (tBuf c)).fracDelayBad s.filters.modDly = false := by
  simp [tapeCheck, firstFailing_none, Buffer.unsized]

theorem rdregCheck_none {a : Nat} {s : State} : rdregCheck a s = none ↔ addrMapped a = true := by
  simp [rdregCheck, firstFailing_none]

theorem wrregCheck_none {a : Nat} {s : State} : wrregCheck a s = none ↔ addrWritable a = true := by
  simp [wrregCheck, firstFailing_none]

/-- A legal fractional delay, in the words of R214. -/
theorem fracDelayBad_false {B : Buffer} {d : Sample} :
    B.fracDelayBad d = false ↔
      F32.isNaN d = false ∧ F32.lt d F32.zero = false ∧ F32.lt (F32.toS (B.size - 1)) d = false := by
  simp [Buffer.fracDelayBad, and_assoc]

/-! ## `SRESET`'s loop over buffers -/

@[simp] theorem State.clearBuffers_nil (s : State) : s.clearBuffers [] = s := rfl

theorem State.clearBuffers_cons (s : State) (b : Nat) (bs : List Nat) :
    s.clearBuffers (b :: bs) = (s.setBuf b (s.buf b).clear).clearBuffers bs := rfl

/-- Only the buffers change. -/
theorem State.clearBuffers_eq (s : State) (bs : List Nat) :
    s.clearBuffers bs = { s with bufs := (s.clearBuffers bs).bufs } := by
  induction bs generalizing s with
  | nil => rfl
  | cons b bs ih =>
    rw [State.clearBuffers_cons, ih (s.setBuf b (s.buf b).clear)]
    rfl

theorem Mem.clearBelow_twice (m : Mem) (n : Nat) : Mem.clearBelow (Mem.clearBelow m n) n = Mem.clearBelow m n := by
  simp [Mem.clearBelow, List.filter_filter]

theorem Buffer.clear_clear (B : Buffer) : B.clear.clear = B.clear := by
  simp only [Buffer.clear, Mem.clearBelow_twice]

/-- Each buffer of the list is cleared, each other one is as it was (R194). -/
theorem State.buf_clearBuffers (s : State) (bs : List Nat) (h : ∀ b ∈ bs, b < 15) (b : Nat) :
    (s.clearBuffers bs).buf b = if b ∈ bs then (s.buf b).clear else s.buf b := by
  induction bs generalizing s with
  | nil => simp
  | cons a bs ih =>
    rw [State.clearBuffers_cons, ih _ (fun b hb => h b (by simp [hb])), State.buf_setBuf]
    have ha : a < 15 := h a (by simp)
    by_cases hab : a = b
    · subst hab
      by_cases hm : a ∈ bs <;> simp [hm, ha, Buffer.clear_clear]
    · have : ¬ b = a := fun e => hab e.symm
      simp [hab, this]

/-! ## What each way of answering does, in the words of Sys2Proof/Safety.lean -/

/-- The checks of R223 phase 3, in the order Safety.lean writes them, are the command's own. -/
theorem firstFailure_eq (i : Instr) (s : State) : firstFailure i s = admission i s := by
  cases i <;>
    simp only [firstFailure, admission, indexOutOfRange, registerRefused, sizeOutOfRange, bufferUsed, delayOutOfRange,
      setsizeCheck, writeCheck, readCheck, readiCheck, clearCheck, apfCheck, combCheck, tapeCheck, rdregCheck,
      wrregCheck, firstFailing, badBuffer, unprepared, Buffer.unsized, Buffer.delayBad, Option.any_some, Option.any_none,
      Bool.false_eq_true, if_false] <;> rfl

/-- R15: a response goes to the port of the request and to no other. -/
theorem answeredWith_respond (s : State) (st : RespStatus) (q : Word) :
    answeredWith s (s.respond st q) { st := st, q := q } := by
  unfold answeredWith State.respond
  cases h : s.req.port <;> simp [State.queue] <;> intro p <;> cases p <;> simp

/-- R222: denial answers and changes nothing. -/
theorem onlyAnswers_deny (s : State) : onlyAnswers s (.next (deny s)) .denied :=
  ⟨_, rfl, by simp [sameMachine], by simp [sameSetting], answeredWith_respond s _ _⟩

/-- R217: refusal answers and changes nothing. -/
theorem onlyAnswers_refuse (s : State) : onlyAnswers s (.next (refuse s)) .refused :=
  ⟨_, rfl, by simp [sameMachine], by simp [sameSetting], answeredWith_respond s _ _⟩

/-- R215: the first fault is recorded and answered, and nothing else changes. -/
theorem entersFault_raiseFault {s : State} (c : Cause) (h : s.faulted = false) :
    entersFault s (.next (raiseFault c s)) c := by
  have ha := answeredWith_respond (s.recordFault c) .fault 0#32
  have hq : ∀ p, (s.recordFault c).queue p = s.queue p := by intro p; cases p <;> simp [State.queue]
  refine ⟨_, rfl, ?_, raiseFault_bufs .., raiseFault_params .., raiseFault_filters .., raiseFault_dout ..,
    raiseFault_draws .., by simp [sameSetting], ?_⟩
  · simp [raiseFault, State.recordFault, h]
  · simpa [answeredWith, hq, raiseFault] using ha

/-- R215(b): a later fault is answered and changes nothing. -/
theorem onlyAnswers_raiseFault {s : State} (c : Cause) (h : s.faulted = true) :
    onlyAnswers s (.next (raiseFault c s)) .fault := by
  have hs : s.recordFault c = s := by simp [State.recordFault, h]
  exact ⟨_, rfl, by simp [sameMachine, raiseFault, hs], by simp [sameSetting],
    by rw [raiseFault, hs]; exact answeredWith_respond s _ _⟩

end Sys2Proof.Machine
end

