-- ==== Sys2Proof/Tests/Slice0.lean ====
section
/-! SUPPORT. The model's own tests: ill-formed terms refused, words written out from spec/30_encoding.md decoded, one step
of each command with values of spec/95_test_vectors.md (the vector is named), and a witness for the hypotheses of each
statement (`witness_<statement>`). -/

namespace Sys2Proof.Tests

set_option Elab.async false

open Sys2Proof Sys2Proof.Machine Host

/-! ## Well-formedness: each check refuses a term -/

theorem test_wf_setsize_index : wellFormed (.setsize 64 0) = false := by decide
theorem test_wf_setsize_size : wellFormed (.setsize 0 1048576) = false := by decide
theorem test_wf_write : wellFormed (.write 64) = false := by decide
theorem test_wf_read_index : wellFormed (.read 64 0) = false := by decide
theorem test_wf_read_delay : wellFormed (.read 0 1048576) = false := by decide
theorem test_wf_readi : wellFormed (.readi 64) = false := by decide
theorem test_wf_clear : wellFormed (.clear 64) = false := by decide
theorem test_wf_apf : wellFormed (.apf 64) = false := by decide
theorem test_wf_comb : wellFormed (.comb 64) = false := by decide
theorem test_wf_tape : wellFormed (.tape 64) = false := by decide
theorem test_wf_rdreg : wellFormed (.rdreg 4096) = false := by decide
theorem test_wf_wrreg : wellFormed (.wrreg 4096) = false := by decide
theorem test_wf_sreset : wellFormed (.sreset 4) = false := by decide

/-! ## Decoding: words laid out field by field as R91 and R96 say (values of V1, V2, R102) -/

theorem test_decode_nop : decode (0b000000#6 ++ 0b000000#6 ++ 0#20) = .ok .nop := by decide
theorem test_decode_setsize :
    decode (0b000001#6 ++ 0b001101#6 ++ 0b00000000000000001000#20) = .ok (.setsize 13 8) := by decide
theorem test_decode_write : decode (0b000010#6 ++ 0b001110#6 ++ 0#20) = .ok (.write 14) := by decide
theorem test_decode_read :
    decode (0b000011#6 ++ 0b001100#6 ++ 0b11111111111111111111#20) = .ok (.read 12 1048575) := by decide +kernel
theorem test_decode_readi : decode (0b000100#6 ++ 0b001101#6 ++ 0#20) = .ok (.readi 13) := by decide
theorem test_decode_clear : decode (0b000101#6 ++ 0b001110#6 ++ 0#20) = .ok (.clear 14) := by decide
theorem test_decode_apf : decode (0b001000#6 ++ 0b000011#6 ++ 0#20) = .ok (.apf 3) := by decide
theorem test_decode_comb : decode (0b001001#6 ++ 0b000101#6 ++ 0#20) = .ok (.comb 5) := by decide
theorem test_decode_flut : decode (0b001100#6 ++ 0b000000#6 ++ 0#20) = .ok .flut := by decide
theorem test_decode_tape : decode (0b001101#6 ++ 0b000001#6 ++ 0#20) = .ok (.tape 1) := by decide
theorem test_decode_sat : decode (0b001110#6 ++ 0b000000#6 ++ 0#20) = .ok .sat := by decide
theorem test_decode_rdreg : decode (0b010000#6 ++ 0#14 ++ 0b001100011111#12) = .ok (.rdreg 0x31F) := by decide
theorem test_decode_wrreg : decode (0b010001#6 ++ 0#14 ++ 0b001100000001#12) = .ok (.wrreg 0x301) := by decide
theorem test_decode_sreset : decode (0b010010#6 ++ 0#24 ++ 0b11#2) = .ok (.sreset 3) := by decide

/-- V2: the illegal words of each kind, and indices that decode but name nothing. -/
theorem test_decode_illegal :
    decode 0x18000000#32 = .error .unassignedOpcode ∧
    decode 0x1C000000#32 = .error .unassignedOpcode ∧
    decode 0x3C000000#32 = .error .unassignedOpcode ∧
    decode 0x4C000000#32 = .error .unassignedOpcode ∧
    decode 0xFFFFFFFF#32 = .error .unassignedOpcode ∧
    decode 0x00100000#32 = .error .nonzeroField ∧
    decode 0x08000001#32 = .error .nonzeroField ∧
    decode 0x38100000#32 = .error .nonzeroField ∧
    decode 0x40001000#32 = .error .nonzeroField ∧
    decode 0x48000004#32 = .error .nonzeroField ∧
    decode 0x07F00001#32 = .ok (.setsize 63 1) ∧
    decode 0x20400000#32 = .ok (.apf 4) := by
  decide +kernel

/-- Words as the host asks for them: two rows of the opcode table and a word of none. -/
theorem test_decodeTableWord :
    decodeTableWord 32 0x44000000 = some (.wrreg 0) ∧ decodeTableWord 32 0x48000000 = some (.sreset 0) ∧
    decodeTableWord 32 0x18000000 = none := by decide

/-! ## Helpers: small states -/

/-- A request on port `C`. -/
def onC (s : State) (w d : Word) : State := { s with req := { port := .C, word := w, data := d } }

/-- A request on port `P`. -/
def onP (s : State) (w d : Word) : State := { s with req := { port := .P, word := w, data := d } }

/-- The state after reset with one buffer as given. -/
def withBuffer (b : Nat) (mem : Mem) (size cur : Nat) : State :=
  State.reset.setBuf b { mem := mem, size := size, cur := cur }

/-- A state already faulted, with a record (the first fault of P5). -/
def faultedState : State :=
  { State.reset with record := { status := 0x601#32, fcmd := 0x0C000004#32, fdata := 0x12345678#32 } }

/-- The state a step leads to. -/
def after (o : Outcome State Fault Refusal) : State :=
  match o with
  | .next t => t
  | .fault _ => State.reset
  | .refused _ => State.reset

/-- The latest response on a port. -/
def lastC (s : State) : Option Response := s.portC.answered.getLast?

/-- The end state of V10: `[5, 6, 3, 4]`, cursor 2. -/
def v10 : State :=
  withBuffer 0 [(0, 0x40A00000#32), (1, 0x40C00000#32), (2, 0x40400000#32), (3, 0x40800000#32)] 4 2

/-- The allpass stage of V20 before `t = 2`. -/
def v20 : State :=
  let s := withBuffer 1 [(0, 0x3F800000#32)] 3 2
  { s with params := { s.params with apDelay := s.params.apDelay.setIfInBounds 0 2 } }

/-- The comb stage of V30 before `t = 6`. -/
def v30 : State :=
  let s := withBuffer 5 [(0, 0x3DC00000#32), (1, 0x3CC00000#32), (3, 0x3EC00000#32)] 4 2
  ({ s with params :=
      { s.params with
        combDelay := s.params.combDelay.setIfInBounds 0 3
        combFb := s.params.combFb.setIfInBounds 0 0x3F000000#32
        combDamp := s.params.combDamp.setIfInBounds 0 0x3E800000#32 } }).setCombLast 0 0x3D400000#32

/-- The tape channel of P4 before frame 2's TAPE, with the tone coefficient 0. -/
def p4 : State :=
  let s := withBuffer 13 [(0, 0x3F800000#32)] 8 2
  ({ s with params :=
      { s.params with tapeBase := 0x40200000#32, flutInc := 0x3F000000#32, tapeFb := 0x3F000000#32 } }).setFlutter
    0x3FC00000#32 0x40200000#32

/-- The tape channel of V51 before its second TAPE. -/
def v51 : State :=
  let s := withBuffer 14 [(0, 0x3F800000#32)] 4 1
  ({ s with params := { s.params with tapeBase := 0x3F800000#32, tapeTone := 0x3F000000#32 } }).setFlutter
    0x00000000#32 0x3F800000#32

/-- The flutter oscillator of V42 before its first FLUT, with a given phase. -/
def v42 (phase : Sample) : State :=
  ({ State.reset with params :=
      { Params.reset with tapeBase := 0x40800000#32, flutDepth := 0x3F800000#32, flutInc := 0x3F000000#32 } }).setFlutter
    phase 0x00000000#32

/-- The state after reset with a drive. -/
def withDrive (drive : Sample) : State :=
  { State.reset with params := { Params.reset with tapeDrive := drive } }

/-! ## One step of each command -/

/-- P5, request 5: NOP executes in the faulted state. -/
theorem test_nop :
    lastC (after (exec .nop (onC faultedState 0#32 0#32))) = some { st := .ok, q := 0#32 } := by decide +kernel

/-- V15: SETSIZE discards the content. -/
theorem test_setsize :
    let t := after (exec (.setsize 0 2) (onC v10 0x04000002#32 0#32))
    (t.buf 0).size = 2 ∧ (t.buf 0).cur = 0 ∧ t.cell 0 0 = 0#32 ∧ t.cell 0 1 = 0#32 := by decide +kernel

/-- V80: a size of 0 is SIZE_RANGE. -/
theorem test_setsize_zero :
    (after (exec (.setsize 0 0) (onC State.reset 0x04000000#32 0#32))).record =
      { status := 0x401#32, fcmd := 0x04000000#32, fdata := 0#32 } := by decide +kernel

/-- V10: the cursor wraps. -/
theorem test_write :
    let t := after (exec (.write 0) (onC (withBuffer 0 [(0, 0x3F800000#32)] 4 3) 0x08000000#32 0x40800000#32))
    t.cell 0 3 = 0x40800000#32 ∧ (t.buf 0).cur = 0 ∧ t.dout = 0#32 := by decide +kernel

/-- V80: a write to an unsized buffer is NOT_PREPARED. -/
theorem test_write_unsized :
    (after (exec (.write 0) (onC State.reset 0x08000000#32 0x3F800000#32))).record =
      { status := 0x501#32, fcmd := 0x08000000#32, fdata := 0x3F800000#32 } := by decide +kernel

/-- V11: delay 0 is the oldest cell, delay 1 the newest. -/
theorem test_read :
    (after (exec (.read 0 0) (onC v10 0x0C000000#32 0#32))).dout = 0x40400000#32 ∧
    (after (exec (.read 0 1) (onC v10 0x0C000001#32 0#32))).dout = 0x40C00000#32 := by decide +kernel

/-- V11: delay `SIZE` is out of range. -/
theorem test_read_range :
    (after (exec (.read 0 4) (onC v10 0x0C000004#32 0#32))).record.status = 0x601#32 := by decide +kernel

/-- V12: 2.75 lies between the cells 5.0 and 4.0; 0.5 between the oldest and the newest. -/
theorem test_readi :
    (after (exec (.readi 0) (onC v10 0x10000000#32 0x40300000#32))).dout = 0x40880000#32 ∧
    (after (exec (.readi 0) (onC v10 0x10000000#32 0x3F000000#32))).dout = 0x40900000#32 := by decide +kernel

/-- V12: 3.25 is out of range, 3.0 is not. -/
theorem test_readi_range :
    (after (exec (.readi 0) (onC v10 0x10000000#32 0x40500000#32))).record.status = 0x601#32 ∧
    (after (exec (.readi 0) (onC v10 0x10000000#32 0x40400000#32))).dout = 0x40800000#32 := by decide +kernel

/-- V14(a): CLEAR zeroes the cells and the cursor, not the size. -/
theorem test_clear :
    (after (exec (.clear 0) (onC v10 0x14000000#32 0#32))).buf 0 = { mem := [], size := 4, cur := 0 } := by
  decide +kernel

/-- V14(b): CLEAR of an unsized buffer is accepted. -/
theorem test_clear_unsized :
    lastC (after (exec (.clear 3) (onC State.reset 0x14300000#32 0#32))) = some { st := .ok, q := 0#32 } := by
  decide +kernel

/-- V20, t = 2: the result is 1.0 and the cell written is the gain. -/
theorem test_apf :
    let t := after (exec (.apf 0) (onC v20 0x20000000#32 0#32))
    t.dout = 0x3F800000#32 ∧ t.cell 1 2 = 0x3F333333#32 ∧ (t.buf 1).cur = 0 := by decide +kernel

/-- V20, t = 0: the result is the negated gain. -/
theorem test_apf_impulse :
    (after (exec (.apf 0) (onC (withBuffer 1 [] 3 0) 0x20000000#32 0x3F800000#32))).dout = 0xBF333333#32 := by
  decide +kernel

/-- V30, t = 6: tap, filter state, written value. -/
theorem test_comb :
    let t := after (exec (.comb 0) (onC v30 0x24000000#32 0#32))
    t.dout = 0x3EC00000#32 ∧ t.combLast 0 = 0x3E960000#32 ∧ t.cell 5 2 = 0x3E160000#32 := by decide +kernel

/-- V33: a delay register at the size is out of range. -/
theorem test_comb_range :
    let s := { v30 with params := { v30.params with combDelay := v30.params.combDelay.setIfInBounds 0 4 } }
    (after (exec (.comb 0) (onC s 0x24000000#32 0#32))).record.status = 0x601#32 := by decide +kernel

/-- V42, first FLUT: phase 0.5, delay 4.0 plus the sine of 0.5. -/
theorem test_flut :
    let t := after (exec .flut (onC (v42 0#32) 0x30000000#32 0#32))
    t.filters.flutPhase = 0x3F000000#32 ∧ t.filters.modDly = 0x408F5774#32 := by decide +kernel

/-- V41: 6.0 and 0.5 pass TWO_PI. -/
theorem test_flut_wrap :
    (after (exec .flut (onC (v42 0x40C00000#32) 0x30000000#32 0#32))).filters.flutPhase = 0x3E5E04A0#32 := by
  decide +kernel

/-- P4, frame 2: half the impulse, and its saturated half in the loop. -/
theorem test_tape :
    let t := after (exec (.tape 0) (onC p4 0x34000000#32 0#32))
    t.dout = 0x3F000000#32 ∧ t.cell 13 2 = 0x3E2AAAAB#32 ∧ t.toneState 0 = 0x3F000000#32 := by decide +kernel

/-- V51, second TAPE: the tone filter. -/
theorem test_tape_tone :
    let t := after (exec (.tape 1) (onC v51 0x34100000#32 0x3F800000#32))
    t.dout = 0x3F000000#32 ∧ t.cell 14 1 = 0x3F800000#32 ∧ t.toneState 0 = 0#32 := by decide +kernel

/-- V61: drive 2.0 and x = -3.0. -/
theorem test_sat :
    (after (exec .sat (onC (withDrive 0x40000000#32) 0x38000000#32 0xC0400000#32))).dout = 0xBEDB6DB7#32 := by
  decide +kernel

/-- V61: the limit branch where the product overflows. -/
theorem test_sat_limit :
    (after (exec .sat (onC (withDrive 0x41800000#32) 0x38000000#32 0xFE967699#32))).dout = 0xBD800000#32 := by
  decide +kernel

/-- P5, request 13: STATUS read on port P in the faulted state. -/
theorem test_rdreg :
    (after (exec (.rdreg 0x002) (onP faultedState 0x40000002#32 0#32))).portP.answered =
      [{ st := .ok, q := 0x601#32 }] := by decide +kernel

/-- P5, request 16: an unmapped address in the faulted state is a fault that is not recorded. -/
theorem test_rdreg_unmapped :
    let t := after (exec (.rdreg 0x103) (onC faultedState 0x40000103#32 0#32))
    lastC t = some { st := .fault, q := 0#32 } ∧ t.record = faultedState.record := by decide +kernel

/-- V72: one unit above POLE_MAX, and a NaN. -/
theorem test_wrreg :
    (after (exec (.wrreg 0x302) (onC State.reset 0x44000302#32 0x3F7C0001#32))).combDamp 0 = 0x3F7C0000#32 ∧
    (after (exec (.wrreg 0x017) (onC State.reset 0x44000017#32 0x7FC00000#32))).params.tapeDrive = 0x3D800000#32 := by
  decide +kernel

/-- V83: an RO register on port P is denied and raises nothing. -/
theorem test_wrreg_ro :
    let t := after (exec (.wrreg 0x013) (onP State.reset 0x44000013#32 0#32))
    t.portP.answered = [{ st := .denied, q := 0#32 }] ∧ t.record.status = 0#32 := by decide +kernel

/-- V74(a): SRESET 1 clears the comb and keeps its parameters and DOUT. -/
theorem test_sreset_plate :
    let t := after (exec (.sreset 1) (onC { v30 with dout := 0x3F800000#32 } 0x48000001#32 0#32))
    t.buf 5 = { mem := [], size := 4, cur := 0 } ∧ t.combLast 0 = 0#32 ∧ t.combDelay 0 = 3 ∧ t.dout = 0x3F800000#32 := by
  decide +kernel

/-- V74(b), V74(c): SRESET 2 clears the tape and its oscillator, SRESET 1 does not. -/
theorem test_sreset_tape :
    let t := after (exec (.sreset 2) (onC p4 0x48000002#32 0#32))
    let u := after (exec (.sreset 1) (onC p4 0x48000001#32 0#32))
    t.buf 13 = { mem := [], size := 8, cur := 0 } ∧ t.filters.flutPhase = 0#32 ∧ t.filters.modDly = 0#32 ∧
    t.params = p4.params ∧ u.buf 13 = p4.buf 13 ∧ u.filters = p4.filters := by decide +kernel

/-- V71: 98 addresses are mapped, 34 of them RW. -/
theorem test_register_counts :
    ((List.range 4096).filter addrMapped).length = 98 ∧ ((List.range 4096).filter addrWritable).length = 34 := by
  decide +kernel

/-- A word placed with `withFetchWord` after reset is the one the next step runs. -/
theorem test_withFetchWord :
    ((after (step (State.reset.withFetchWord 32 0x04D00008))).buf 13).size = 8 ∧
    (after (step (State.reset.withFetchWord 32 0x18000000))).record.status = 0x101#32 := by decide +kernel

/-! ## Witnesses: concrete states and operands that meet the hypotheses of each statement, at the edges of their ranges -/

/-- A state with requests pending on both ports, port `P` to go first. -/
def bothPending : State :=
  { State.reset with
    portC := { pending := [⟨0x04D00008#32, 0#32⟩], answered := [] }
    portP := { pending := [⟨0x40000000#32, 0#32⟩], answered := [] }
    sched := [.P] }

/-- The state after reset with an illegal word pending on port `P` alone. -/
def illegalOnP : State :=
  { State.reset with portP := { pending := [⟨0xFFFFFFFF#32, 0#32⟩], answered := [] } }

theorem witness_DecodeOfEncode :
    WellFormed (.read 63 1048575) ∧ WellFormed (.wrreg 4095) ∧ WellFormed (.sreset 3) := by decide

theorem witness_EncodeOfDecode :
    decode 0x07FFFFFF#32 = .ok (.setsize 63 1048575) ∧ decode 0x40000FFF#32 = .ok (.rdreg 4095) := by decide +kernel

theorem witness_DecodesByMatchingRow :
    (∃ r ∈ encodingTable, r.matchesWord 0x0FFFFFFF#32 = true) ∧
    (∀ r ∈ encodingTable, r.matchesWord 0x18000000#32 = false) := by decide +kernel

theorem witness_StepRunsDecodedRequest :
    (bothPending.resetLine = false ∧ bothPending.grant = some .P ∧ decode 0x40000000#32 = .ok (.rdreg 0)) ∧
    ((State.reset.withFetchWord 32 0x30000000).grant = some .C ∧ decode 0x30000000#32 = .ok .flut) ∧
    (illegalOnP.grant = some .P ∧ decode 0xFFFFFFFF#32 = .error .unassignedOpcode) := by decide +kernel

theorem witness_EveryRequestOneResponse :
    bothPending.resetLine = false ∧ bothPending.grant = some .P ∧ illegalOnP.grant = some .P := by decide +kernel

theorem witness_StepAlwaysNext :
    State.reset.resetLine = false ∧ State.reset.portC.pending = [] ∧ State.reset.portP.pending = [] := by decide +kernel

theorem witness_EveryMergeIsPossible :
    bothPending.resetLine = false ∧
    (∀ order ∈ [[Port.C, Port.P], [Port.P, Port.C]], ∀ p ∈ [Port.C, Port.P],
      order.count p = (bothPending.queue p).pending.length) := by decide +kernel

theorem witness_SequencerOrder :
    ((onP State.reset 0#32 0#32).req.port = .P ∧ permittedOnPortP .nop = false) ∧
    (faultedState.req.port = .C ∧ faultedState.faulted = true ∧ runsWhenFaulted (.write 0) = false) ∧
    (State.reset.req.port = .C ∧ State.reset.faulted = false ∧
      firstFailure (.setsize 15 0) State.reset = some .badIndex ∧ firstFailure (.read 0 5) State.reset = some .notPrepared ∧
      firstFailure (.setsize 14 0) State.reset = some .sizeRange ∧ firstFailure (.wrreg 0x013) State.reset = some .badReg ∧
      firstFailure (.read 0 4) v10 = some .delayRange) ∧
    (permittedOnPortP (.rdreg 0x31F) = true ∧ runsWhenFaulted (.rdreg 0x31F) = true ∧
      firstFailure (.rdreg 0x31F) (onP faultedState 0x4000031F#32 0#32) = none) ∧
    firstFailure (.read 0 3) v10 = none := by decide +kernel

theorem witness_IllegalWordAnswer :
    (decode (onC State.reset 0x18000000#32 0#32).req.word = .error .unassignedOpcode ∧
      (onC State.reset 0x18000000#32 0#32).accepting) ∧
    (decode (onC faultedState 0x08000001#32 0#32).req.word = .error .nonzeroField ∧
      (onC faultedState 0x08000001#32 0#32).faulted = true) ∧
    (onP State.reset 0x18000000#32 0#32).req.port = .P := by decide +kernel

theorem witness_ResponseSummary :
    (decode (onC State.reset 0#32 0#32).req.word = .ok .nop ∧ (onC State.reset 0#32 0#32).req.port = .C) ∧
    (decode (onC State.reset 0x40000006#32 0#32).req.word = .ok (.rdreg 6) ∧ regAt 6 = some .apGain) ∧
    (decode (onC faultedState 0x40000007#32 0#32).req.word = .ok (.rdreg 7) ∧ regAt 7 = none) ∧
    (decode (onC v10 0x0C000003#32 0#32).req.word = .ok (.read 0 3) ∧ firstFailure (.read 0 3) v10 = none ∧
      v10.faulted = false) ∧
    (decode (onC v10 0x0C000004#32 0#32).req.word = .ok (.read 0 4) ∧
      firstFailure (.read 0 4) v10 = some .delayRange) ∧
    (decode (onP faultedState 0x44000203#32 0#32).req.word = .ok (.wrreg 0x203) ∧
      regAt 0x203 = some (.apDelay 3) ∧ (Reg.apDelay 3).writable = true) ∧
    (decode (onP State.reset 0x44000204#32 0#32).req.word = .ok (.wrreg 0x204) ∧
      permittedOnPortP (.wrreg 0x204) = false) ∧
    decode 0xFFFFFFFF#32 = .error .unassignedOpcode := by decide +kernel

theorem witness_FaultsArePrecise :
    let s := onC State.reset 0x18000000#32 0xAAAAAAAA#32
    let u := onC faultedState 0x40000103#32 0#32
    (∃ t, execRequest s = .next t ∧ t.portC = s.portC.answer { st := .fault, q := 0#32 } ∧ t.portP = s.portP ∧
      s.faulted = false) ∧
    (∃ t, execRequest u = .next t ∧ t.portC = u.portC.answer { st := .fault, q := 0#32 } ∧ t.portP = u.portP ∧
      u.faulted = true) :=
  ⟨⟨_, rfl, by decide +kernel, by decide +kernel, by decide +kernel⟩,
    ⟨_, rfl, by decide +kernel, by decide +kernel, by decide +kernel⟩⟩

theorem witness_FaultedStateIsFrozen :
    let s := faultedState.withFetchWord 32 0x04000004
    s.faulted = true ∧ s.resetLine = false ∧ s.grant = some .C ∧ ∃ t, step s = .next t :=
  ⟨by decide +kernel, by decide +kernel, by decide +kernel, _, rfl⟩

theorem witness_DenialOnPortP :
    (onP State.reset 0#32 0#32).req.port = .P ∧ decode 0xFFFFFFFF#32 = .error .unassignedOpcode ∧
    decode 0x14000000#32 = .ok (.clear 0) ∧
    (decode 0x40000103#32 = .ok (.rdreg 0x103) ∧ regAt 0x103 = none) ∧
    (decode 0x44000013#32 = .ok (.wrreg 0x013) ∧ regAt 0x013 = some .flutPhase ∧ Reg.flutPhase.writable = false) ∧
    (decode 0x44000016#32 = .ok (.wrreg 0x016) ∧ regAt 0x016 = some .tapeFb ∧ Reg.tapeFb.writable = true ∧
      (onP faultedState 0x44000016#32 0#32).faulted = true) ∧
    (decode 0x40000002#32 = .ok (.rdreg 0x002) ∧ regAt 0x002 = some .status) := by decide +kernel

theorem witness_PortPReachesOnlyParameters :
    let s := onP State.reset 0x44000016#32 0x3F000000#32
    s.req.port = .P ∧ ∃ t, execRequest s = .next t ∧ t.params.tapeFb = 0x3F000000#32 :=
  ⟨by decide +kernel, _, rfl, by decide +kernel⟩

theorem witness_RunIsGoodIffNotFaulted :
    let s := State.reset.withFetchWord 32 0x04D00008
    s.faulted = false ∧ s.resetLine = false ∧ ∃ t : State, Sys2Proof.core.run 1 s = .next t ∧ (t.buf 13).size = 8 :=
  ⟨by decide +kernel, by decide +kernel, _, rfl, by decide +kernel⟩

theorem witness_HardwareReset : ({ faultedState with resetLine := true } : State).resetLine = true := by decide +kernel

theorem witness_OnlyResetUnfaultsAndUnsizes :
    let s := { v10 with record := faultedState.record }.withFetchWord 32 0x04000001
    s.resetLine = false ∧ s.faulted = true ∧ (s.buf 0).size ≠ 0 ∧ ∃ t, step s = .next t :=
  ⟨by decide +kernel, by decide +kernel, by decide +kernel, _, rfl⟩

theorem witness_WritersOfEachElement :
    (∃ t, exec .nop State.reset = .next t) ∧ (∃ t, exec (.comb 0) v30 = .next t) := ⟨⟨_, rfl⟩, ⟨_, rfl⟩⟩

theorem witness_NopResult : faultedState.req.port = .C ∧ (onP faultedState 0#32 0#32).req.port = .P := by decide +kernel

theorem witness_SetsizeResult :
    State.reset.accepting ∧ State.reset.physCap 14 < 1048576 ∧ 1048575 ≤ State.reset.physCap 14 ∧
    1 ≤ State.reset.physCap 14 := by decide +kernel

theorem witness_WriteResult :
    v10.accepting ∧ (v10.buf 0).size ≠ 0 ∧ (v10.buf 14).size = 0 := by decide +kernel

theorem witness_ReadResult :
    v10.accepting ∧ (v10.buf 14).size = 0 ∧ (v10.buf 0).size ≤ 4 ∧ 3 < (v10.buf 0).size := by decide +kernel

theorem witness_ReadiResult :
    let s := onC v10 0x10000000#32 0x40400000#32
    let u := onC v10 0x10000000#32 0x40400001#32
    let n := onC v10 0x10000000#32 0x7FC00000#32
    let m := onC v10 0x10000000#32 0x80000001#32
    let z := onC v10 0x10000000#32 0x80000000#32
    s.accepting ∧ (s.buf 14).size = 0 ∧ (s.buf 0).size ≠ 0 ∧ (s.buf 0).fracDelayBad s.req.data = false ∧
    (u.accepting ∧ F32.lt (F32.toS ((u.buf 0).size - 1)) u.req.data = true) ∧ F32.isNaN n.req.data = true ∧
    F32.lt m.req.data 0x00000000#32 = true ∧ (z.buf 0).fracDelayBad z.req.data = false := by decide +kernel

theorem witness_ClearResult : v10.accepting ∧ (v10.buf 0).size ≠ 0 ∧ (v10.buf 14).size = 0 := by decide +kernel

theorem witness_ApfResult :
    let s := { v20 with params := { v20.params with apDelay := v20.params.apDelay.setIfInBounds 0 3 } }
    v20.accepting ∧ v20.apDelay 0 < (v20.buf 1).size ∧ (v20.buf 4).size = 0 ∧
    (s.accepting ∧ (s.buf 1).size ≠ 0 ∧ (s.buf 1).size ≤ s.apDelay 0) := by decide +kernel

theorem witness_CombResult :
    let s := { v30 with params := { v30.params with combDelay := v30.params.combDelay.setIfInBounds 0 4 } }
    v30.accepting ∧ v30.combDelay 0 < (v30.buf 5).size ∧ (v30.buf 12).size = 0 ∧
    (s.accepting ∧ (s.buf 5).size ≠ 0 ∧ (s.buf 5).size ≤ s.combDelay 0) := by decide +kernel

theorem witness_FlutResult : (v42 0x40C00000#32).accepting := by decide +kernel

theorem witness_TapeResult :
    let s := p4.setFlutter 0#32 0x40E00000#32
    let u := p4.setFlutter 0#32 0x40E00001#32
    p4.accepting ∧ (p4.buf 13).size ≠ 0 ∧ (p4.buf 14).size = 0 ∧
    (s.accepting ∧ (s.buf 13).fracDelayBad s.filters.modDly = false) ∧
    (u.accepting ∧ F32.lt (F32.toS ((u.buf 13).size - 1)) u.filters.modDly = true) := by decide +kernel

theorem witness_SatResult :
    let s := onC (withDrive 0x41800000#32) 0x38000000#32 0x7F7FFFFF#32
    let n := onC (withDrive 0x3D800000#32) 0x38000000#32 0x7FC00000#32
    (s.accepting ∧ s.impl.sat = .byDefault ∧ F32.isNaN s.req.data = false ∧
      F32.mul 0 s.params.tapeDrive (F32.abs s.req.data) = 0x7F800000#32) ∧
    (n.accepting ∧ n.impl.sat = .byDefault ∧ F32.isNaN n.req.data = true) := by decide +kernel

theorem witness_RdregResult :
    regAt 0x13A = some (.physCap 14) ∧ regAt 0x13B = none ∧ State.reset.accepting ∧ faultedState.faulted = true ∧
    faultedState.req.port = .C ∧ (onP State.reset 0#32 0#32).req.port = .P := by decide +kernel

theorem witness_WrregResult :
    (regAt 0x31E = some (.combDamp 7) ∧ (Reg.combDamp 7).writable = true ∧ State.reset.faulted = false) ∧
    (regAt 0x31F = some (.combLast 7) ∧ (Reg.combLast 7).writable = false ∧ State.reset.accepting) ∧
    (regAt 0x320 = none ∧ (onP State.reset 0#32 0#32).req.port = .P) := by decide +kernel

theorem witness_SresetResult :
    v30.accepting ∧ p4.accepting ∧ (onP State.reset 0#32 0#32).req.port = .P ∧
    (faultedState.req.port = .C ∧ faultedState.faulted = true) := by decide +kernel

theorem witness_DelayNamesNthMostRecentWrite : (v10.buf 0).size ≠ 0 ∧ 1 ≤ 4 ∧ 4 ≤ (v10.buf 0).size := by decide +kernel

theorem witness_InterpolatedReadAgreesAtIntegers :
    let B := v10.buf 0
    3 < B.size ∧ B.size ≤ 1048575 ∧ F32.isFinite (F32.sub 0 (B.read 4) (B.read 3)) = true ∧
    B.read 3 ≠ 0x80000000#32 := by decide +kernel

theorem witness_EqualTapsInterpolateToTheTap :
    F32.isFinite 0x80000000#32 = true ∧ F32.isFinite 0x00000000#32 = true ∧
    F32.val 0x80000000#32 = F32.val 0x00000000#32 ∧ F32.le 0x00000000#32 0x3F7FFFFF#32 = true ∧
    F32.lt 0x3F7FFFFF#32 0x3F800000#32 = true := by decide +kernel

/-- The largest phase, increment, base and depth. -/
def widestFlutter : State :=
  ({ State.reset with params :=
      { Params.reset with tapeBase := 0x497FFFF0#32, flutDepth := 0x497FFFF0#32, flutInc := 0x40490FDB#32 } }).setFlutter
    0x40C90FDA#32 0x00000000#32

theorem witness_StepKeepsInvariant : State.reset.Inv ∧ ∃ t, step State.reset = .next t :=
  ⟨⟨by decide +kernel, by decide +kernel, by decide +kernel, by decide +kernel, by decide +kernel, by decide +kernel⟩,
    _, rfl⟩

theorem witness_PhaseStaysInRange :
    widestFlutter.PhaseInv ∧ inRange 0x00000000#32 0x40490FDB#32 widestFlutter.params.flutInc = true ∧
    ∃ t, exec .flut widestFlutter = .next t := ⟨by decide +kernel, by decide +kernel, _, rfl⟩

theorem witness_ModulatedDelayWithinDepth :
    widestFlutter.accepting ∧ widestFlutter.PhaseInv ∧
    inRange 0x00000000#32 0x40490FDB#32 widestFlutter.params.flutInc = true ∧
    inRange 0x00000000#32 0x497FFFF0#32 widestFlutter.params.tapeBase = true ∧
    inRange 0x00000000#32 0x497FFFF0#32 widestFlutter.params.flutDepth = true := by decide +kernel

/-- Base 4.0 and depth 3.0 on a buffer of 8 cells: the bounds of the delay are 1.0 and 7.0. -/
theorem witness_TapeAfterFlutDoesNotFault :
    let s := { p4 with params := { p4.params with tapeBase := 0x40800000#32, flutDepth := 0x40400000#32 } }
    s.accepting ∧ s.PhaseInv ∧ inRange 0x00000000#32 0x40490FDB#32 s.params.flutInc = true ∧
    inRange 0x00000000#32 0x497FFFF0#32 s.params.tapeBase = true ∧
    inRange 0x00000000#32 0x497FFFF0#32 s.params.flutDepth = true ∧ (s.buf 13).size ≠ 0 ∧ (s.buf 13).size ≤ 1048575 ∧
    F32.le 0x00000000#32 (F32.sub 0 s.params.tapeBase s.params.flutDepth) = true ∧
    F32.le (F32.add 0 s.params.tapeBase s.params.flutDepth) (F32.toS ((s.buf 13).size - 1)) = true := by decide +kernel

theorem witness_SilenceIsFixedOnThePlate :
    let s := withBuffer 4 [(2, 0x3F800000#32)] 2 1
    let u := withBuffer 12 [(0, 0x80000000#32), (2, 0x3F800000#32)] 2 1
    (s.accepting ∧ s.ParamInv ∧ F32.isZero s.req.data = true ∧ s.apDelay 3 < (s.buf 4).size ∧
      ∀ k < (s.buf 4).size, F32.isZero (s.cell 4 k) = true) ∧
    (u.accepting ∧ u.ParamInv ∧ u.combDelay 7 < (u.buf 12).size ∧ F32.isZero (u.combLast 7) = true ∧
      ∀ k < (u.buf 12).size, F32.isZero (u.cell 12 k) = true) := by decide +kernel

theorem witness_SilenceIsFixedOnTheTape :
    let s := (withBuffer 14 [(4, 0x3F800000#32)] 4 2).setFlutter 0#32 0x40400000#32
    s.accepting ∧ s.ParamInv ∧ F32.isZero s.req.data = true ∧ (s.buf 14).size ≠ 0 ∧ (s.buf 14).size ≤ 1048575 ∧
    (s.buf 14).fracDelayBad s.filters.modDly = false ∧ F32.isZero (s.toneState 1) = true ∧
    ∀ k < (s.buf 14).size, F32.isZero (s.cell 14 k) = true := by decide +kernel

theorem witness_CombStagesCommute :
    let s := v30.setBuf 12 { mem := [(0, 0x3F800000#32)], size := 2, cur := 1 }
    s.accepting ∧ s.combDelay 0 < (s.buf 5).size ∧ s.combDelay 7 < (s.buf 12).size := by decide +kernel

theorem witness_UndampedFilterPassesTheTap :
    F32.isZero 0x80000000#32 = true ∧ F32.isFinite 0xFF7FFFFF#32 = true ∧ F32.isNaN 0x7F800000#32 = false := by
  decide +kernel

theorem witness_FlutterWithoutDepthIsBase :
    p4.accepting ∧ p4.PhaseInv ∧ inRange 0x00000000#32 0x40490FDB#32 p4.params.flutInc = true ∧
    F32.isZero p4.params.flutDepth = true ∧ F32.isNaN p4.params.tapeBase = false := by decide +kernel

theorem witness_NoRegisterIsAliased : regAt 0x138 = some (.size 14) := by decide +kernel

theorem witness_WrittenValuesAreLegal :
    (regAt 0x017 = some .tapeDrive ∧ Reg.tapeDrive.writable = true ∧ State.reset.faulted = false) ∧
    legalValue .tapeDrive (onC State.reset 0x44000017#32 0x41800000#32).req.data = true ∧
    legalValue .tapeFb 0x80000000#32 = true := by decide +kernel

theorem witness_ClampCases :
    F32.le 0x3D800000#32 0x41800000#32 = true ∧ F32.isNaN 0x7FC00000#32 = true ∧
    F32.lt 0x3D7FFFFF#32 0x3D800000#32 = true ∧ F32.lt 0x41800000#32 0x41800001#32 = true ∧
    F32.le 0x3D800000#32 0x3D800000#32 = true := by decide +kernel

/-- The largest finite sample, the least subnormal, a tie (1.0 and 2^-24), and sums at the overflow midpoint (2^103 above the
largest finite sample) and below it. -/
theorem witness_ArithmeticRoundsToNearestEven :
    F32.isFinite 0x7F7FFFFF#32 = true ∧ F32.isFinite 0x80000001#32 = true ∧ F32.isZero 0x80000001#32 = false ∧
    F32.isFinite (F32.add 0 0x3F800000#32 0x33800000#32) = true ∧
    ((2 : Int) ^ 25 - 1) * 2 ^ 253 = 2 * (F32.val 0x7F7FFFFF#32 + F32.val 0x73000000#32) ∧
    F32.isFinite (F32.add 0 0x7F7FFFFF#32 0x73000000#32) = false ∧
    F32.isFinite (F32.add 0 0x7F7FFFFF#32 0x72FFFFFF#32) = true := by decide +kernel

theorem witness_SpecialOperands :
    F32.isNaN 0x7F800001#32 = true ∧ (F32.isNaN 0x00000001#32 = false ∧ F32.isZero 0x00000001#32 = false) ∧
    F32.isZero 0x80000000#32 = true ∧ F32.isFinite 0x7F7FFFFF#32 = true ∧ F32.isInf 0xFF800000#32 = true := by
  decide +kernel

theorem witness_FractionIsExact :
    F32.le 0x00000000#32 0x497FFFF0#32 = true ∧ F32.le 0x497FFFF0#32 0x497FFFF0#32 = true ∧
    F32.le 0x00000000#32 0x80000000#32 = true := by decide +kernel

theorem witness_SineProperties :
    sameValue 0x80000000#32 0x00000000#32 = true ∧ F32.isFinite 0x40C90FDA#32 = true := by decide +kernel

theorem witness_SaturationProperties :
    inRange 0x3D800000#32 0x41800000#32 0x41800000#32 = true ∧ F32.isNaN 0xFF800000#32 = false ∧
    F32.isZero 0x80000000#32 = true ∧ F32.isNaN 0x7FC00000#32 = true := by decide +kernel

theorem witness_SaturationIsMonotoneUpToRounding :
    inRange 0x3D800000#32 0x41800000#32 0x3D800000#32 = true ∧ F32.isFinite 0xFF7FFFFF#32 = true ∧
    F32.isFinite 0x7F7FFFFF#32 = true ∧ F32.val 0xFF7FFFFF#32 ≤ F32.val 0x7F7FFFFF#32 := by decide +kernel

theorem witness_DefaultSaturationIsOdd :
    inRange 0x3D800000#32 0x41800000#32 0x3D800000#32 = true ∧ F32.isNaN 0x7F7FFFFF#32 = false := by decide +kernel

theorem witness_DefaultSaturationMeetsItsCeiling :
    inRange 0x3D800000#32 0x41800000#32 0x3F88BCE8#32 = true ∧ F32.isNaN 0x717B0D7C#32 = false := by decide +kernel

end Sys2Proof.Tests
end

/-! # The order of samples and the two clamps (R12, R13) -/

namespace Sys2Proof.Machine.F32

open Sys2Proof

theorem lt_iff {a b : Sample} :
    lt a b = true ↔ isNaN a = false ∧ isNaN b = false ∧ val a < val b := by
  simp [lt, and_assoc]

theorem le_iff {a b : Sample} :
    le a b = true ↔ isNaN a = false ∧ isNaN b = false ∧ val a ≤ val b := by
  simp [le, and_assoc]

/-- Where `a ≤ b` holds, `b < a` does not. -/
theorem lt_eq_false_of_le {a b : Sample} (h : le a b = true) : lt b a = false := by
  obtain ⟨-, -, hab⟩ := le_iff.mp h
  rw [← Bool.not_eq_true, lt_iff]
  omega

theorem le_of_lt {a b : Sample} (h : lt a b = true) : le a b = true := by
  obtain ⟨ha, hb, hab⟩ := lt_iff.mp h
  exact le_iff.mpr ⟨ha, hb, hab.le⟩

theorem le_trans {a b c : Sample} (h : le a b = true) (h' : le b c = true) : le a c = true := by
  obtain ⟨ha, -, hab⟩ := le_iff.mp h
  obtain ⟨-, hc, hbc⟩ := le_iff.mp h'
  exact le_iff.mpr ⟨ha, hc, hab.trans hbc⟩

theorem clampS_of_not_ge {v lo hi : Sample} (h : isNaN v = true ∨ lt v lo = true) :
    clampS v lo hi = lo := by
  rcases h with h | h <;> simp [clampS, h]

theorem clampS_of_gt {v lo hi : Sample} (hb : le lo hi = true) (h : lt hi v = true) :
    clampS v lo hi = hi := by
  have hv : isNaN v = false := (lt_iff.mp h).2.1
  have hlo : lt v lo = false := lt_eq_false_of_le (le_trans hb (le_of_lt h))
  simp [clampS, hv, hlo, h]

theorem clampS_of_mem {v lo hi : Sample} (h : le lo v = true) (h' : le v hi = true) :
    clampS v lo hi = v := by
  obtain ⟨hv, -, -⟩ := le_iff.mp h'
  simp [clampS, hv, lt_eq_false_of_le h, lt_eq_false_of_le h']

/-- Settles O52: each case of the clamp is one of the lemmas above, and `clampI` is the minimum by definition. -/
theorem clampCases : Obligations.ClampCases :=
  ⟨fun _ _ _ hb => ⟨clampS_of_not_ge, clampS_of_gt hb, clampS_of_mem⟩, fun _ => rfl⟩

end Sys2Proof.Machine.F32

/-! # The sequencer's step: what it takes and how it is answered (R15, R71, R223) -/

namespace Sys2Proof.Machine

open Sys2Proof

/-! ## Taking a request (R15, R71) -/

/-- R14, R71: the port that is granted has a request to take. -/
theorem State.pending_of_grant {s : State} {p : Port} (h : s.grant = some p) :
    ∃ r rest, (s.queue p).pending = r :: rest := by
  unfold State.grant at h
  split at h
  · cases h
  · rename_i hC _
    cases h
    exact ⟨_, _, hC⟩
  · rename_i hP
    cases h
    exact ⟨_, _, hP⟩
  · rename_i hC hP
    cases p with
    | C => exact ⟨_, _, hC⟩
    | P => exact ⟨_, _, hP⟩

/-- Without a waiting request no port is granted. -/
theorem State.grant_of_idle {s : State} (hC : s.portC.pending = []) (hP : s.portP.pending = []) : s.grant = none := by
  simp [State.grant, hC, hP]

/-- An arbitration changes the model's own schedule and draw counter alone. -/
theorem State.spendChoice_frame (s : State) :
    ∃ sched draws, s.spendChoice = { s with sched := sched, draws := draws } := by
  unfold State.spendChoice
  split <;> exact ⟨_, _, rfl⟩

/-- What taking a request can change: the two ports, the latched request, and the model's own schedule and draw counter. -/
theorem State.take_frame (s : State) (p : Port) :
    ∃ C P req sched draws,
      s.take p = { s with portC := C, portP := P, req := req, sched := sched, draws := draws } := by
  obtain ⟨sched, draws, ht⟩ : ∃ sched draws,
      (if s.contended then s.spendChoice else s) = { s with sched := sched, draws := draws } := by
    split
    · exact s.spendChoice_frame
    · exact ⟨_, _, rfl⟩
  unfold State.take
  rw [ht]
  split <;> exact ⟨_, _, _, _, _, rfl⟩

/-- R15: the oldest request of the granted port leaves its queue and is the one being executed; the other port is left
alone. -/
theorem State.take_request {s : State} {p : Port} {r : Presented} {rest : List Presented}
    (h : (s.queue p).pending = r :: rest) :
    (s.take p).req = { port := p, word := r.word, data := r.data } ∧
      (s.take p).queue p = { (s.queue p) with pending := rest } ∧
      ∀ p', p' ≠ p → (s.take p).queue p' = s.queue p' := by
  cases p with
  | C =>
    have hC : s.portC.pending = r :: rest := h
    refine ⟨by simp [State.take, hC], by simp [State.take, hC, State.queue, PortQueue.pop], fun p' hp => ?_⟩
    cases p' with
    | C => exact absurd rfl hp
    | P => cases hc : s.contended <;> simp [State.take, hC, State.queue, hc]
  | P =>
    have hP : s.portP.pending = r :: rest := h
    refine ⟨by simp [State.take, hP], by simp [State.take, hP, State.queue, PortQueue.pop], fun p' hp => ?_⟩
    cases p' with
    | P => exact absurd rfl hp
    | C => cases hc : s.contended <;> simp [State.take, hP, State.queue, hc]

/-! ## One step, by what it finds -/

theorem step_of_idle {s : State} (hr : s.resetLine = false) (h : s.grant = none) : step s = .next s := by
  simp [step, hr, h]

theorem step_of_grant {s : State} {p : Port} (hr : s.resetLine = false) (h : s.grant = some p) :
    step s = execRequest (s.take p) := by
  simp [step, hr, h]

theorem step_of_resetLine {s : State} (hr : s.resetLine = true) : step s = .next (hardwareReset s) := by
  simp [step, hr]

theorem execRequest_of_decode {s : State} {i : Instr} (h : decode s.req.word = .ok i) : execRequest s = exec i s := by
  simp [execRequest, h]

theorem execRequest_of_illegal {s : State} {e : DecodeError} (h : decode s.req.word = .error e) :
    execRequest s = .next (illegalCommand s) := by
  simp [execRequest, h]

/-! ## Every way of serving a request answers it once -/

/-- A response given in a state with the same request and the same ports is a response in the earlier state. -/
theorem answeredWith_respond_of_same {s t : State} (hC : t.portC = s.portC) (hP : t.portP = s.portP)
    (hr : t.req = s.req) (st : RespStatus) (q : Word) : answeredWith s (t.respond st q) { st := st, q := q } := by
  have hq : ∀ p, t.queue p = s.queue p := by
    intro p
    cases p with
    | C => exact hC
    | P => exact hP
  simpa only [answeredWith, hq, hr] using answeredWith_respond t st q

/-- `SRESET` (R194) leaves the ports and the request alone. -/
theorem resetGroups_ports (m : Nat) (s : State) :
    (resetGroups m s).portC = s.portC ∧ (resetGroups m s).portP = s.portP ∧ (resetGroups m s).req = s.req := by
  have hplate : ∀ t, (resetPlate t).portC = t.portC ∧ (resetPlate t).portP = t.portP ∧ (resetPlate t).req = t.req := by
    intro t
    rw [resetPlate, State.clearBuffers_eq]
    exact ⟨rfl, rfl, rfl⟩
  have htape : ∀ t, (resetTape t).portC = t.portC ∧ (resetTape t).portP = t.portP ∧ (resetTape t).req = t.req := by
    intro t
    rw [resetTape, State.clearBuffers_eq]
    exact ⟨rfl, rfl, rfl⟩
  unfold resetGroups
  cases maskPlate m <;> cases maskTape m <;> simp [hplate, htape]

/-- R15, R80: a command that passes its admission checks answers once. The checks matter for RDREG and WRREG, whose
address names a register only where they pass. -/
theorem effect_answers {i : Instr} {s : State} (h : admission i s = none) : ∃ r, answeredWith s (effect i s) r := by
  cases i with
  | nop | setsize | write | read | readi | clear | apf | comb | flut | tape | sat =>
    exact ⟨_, answeredWith_respond_of_same rfl rfl rfl _ _⟩
  | rdreg a =>
    obtain ⟨reg, hreg⟩ := Option.isSome_iff_exists.mp ((rdregCheck_none (s := s)).mp h)
    refine ⟨{ st := .ok, q := s.readReg reg }, ?_⟩
    simpa only [effect, rdregRun, hreg] using answeredWith_respond s _ _
  | wrreg a =>
    obtain ⟨reg, hreg, -⟩ := (Option.any_eq_true _ _).mp ((wrregCheck_none (s := s)).mp h)
    have he : effect (.wrreg a) s = (s.writeReg reg s.dataWord).complete := by simp [effect, wrregRun, hreg]
    rw [he]
    exact ⟨_, answeredWith_respond_of_same rfl rfl rfl _ _⟩
  | sreset m =>
    obtain ⟨hC, hP, hr⟩ := resetGroups_ports m s
    exact ⟨_, answeredWith_respond_of_same hC hP hr _ _⟩

/-- R15: whatever becomes of a request, it is answered once, provided the command's own pseudocode answers. -/
theorem serve_answers {onP whenFaulted : Bool} {check : State → Option Cause} {run : State → State} {s : State}
    (h : check s = none → ∃ r, answeredWith s (run s) r) :
    ∃ r, answeredWith s (serve onP whenFaulted check run s) r := by
  obtain ⟨-, -, e⟩ | ⟨-, -, -, e⟩ | ⟨-, -, c, -, e⟩ | ⟨-, -, hc, e⟩ := serve_cases onP whenFaulted check run s
  all_goals rw [e]
  · exact ⟨_, answeredWith_respond s _ _⟩
  · exact ⟨_, answeredWith_respond s _ _⟩
  · exact ⟨_, answeredWith_respond_of_same (s.recordFault_portC c) (s.recordFault_portP c) (s.recordFault_req c) _ _⟩
  · exact h hc

/-- R15, R223: executing the latched request, whatever its word, ends in a next state with one more response. -/
theorem execRequest_answers (s : State) : ∃ t r, execRequest s = .next t ∧ answeredWith s t r := by
  cases hd : decode s.req.word with
  | ok i =>
    obtain ⟨r, hr⟩ := serve_answers (onP := permittedOnPortP i) (whenFaulted := runsWhenFaulted i)
      (effect_answers (i := i) (s := s))
    exact ⟨_, r, (execRequest_of_decode hd).trans (exec_eq_serve i s), hr⟩
  | error e =>
    obtain ⟨r, hr⟩ := serve_answers (onP := false) (whenFaulted := false) (check := fun _ => some .illegalCmd)
      (run := fun t => t) (s := s) (fun h => nomatch h)
    exact ⟨_, r, execRequest_of_illegal hd, hr⟩

/-- Settles O7: taking the request pops it from its port, and executing it answers it there. -/
theorem everyRequestOneResponse : Obligations.EveryRequestOneResponse := by
  intro s p hr hg
  obtain ⟨w, rest, hpend⟩ := State.pending_of_grant hg
  obtain ⟨hreq, hself, hother⟩ := State.take_request hpend
  obtain ⟨t, r, ht, hans, hframe⟩ := execRequest_answers (s.take p)
  rw [hreq] at hans hframe
  refine ⟨t, r, (step_of_grant hr hg).trans ht, ?_, ?_, fun p' hp => (hframe p' hp).trans (hother p' hp)⟩
  · simp [hans, hself, hpend, PortQueue.answer]
  · simp [hans, hself, PortQueue.answer]

/-- Settles O6: the step is the request taken, by what its word decodes to. -/
theorem stepRunsDecodedRequest : Obligations.StepRunsDecodedRequest := by
  intro s p hr hg
  obtain ⟨r, rest, hpend⟩ := State.pending_of_grant hg
  obtain ⟨hreq, hself, hother⟩ := State.take_request hpend
  obtain ⟨_, _, _, _, _, hframe⟩ := s.take_frame p
  refine ⟨r, rest, hpend, hreq, hself, hother, by rw [hframe], by rw [hframe], by rw [hframe], by rw [hframe],
    by rw [hframe], by rw [hframe], by rw [hframe], fun i hi => ?_, fun e he => ?_⟩
  · rw [step_of_grant hr hg, execRequest_of_decode (by rw [hreq]; exact hi)]
  · rw [step_of_grant hr hg, execRequest_of_illegal (by rw [hreq]; exact he)]

/-- Settles O8: a reset, an idle step and a served request each have a next state. -/
theorem stepAlwaysNext : Obligations.StepAlwaysNext := by
  intro s
  constructor
  · cases hr : s.resetLine with
    | true => exact ⟨_, step_of_resetLine hr⟩
    | false =>
      cases hg : s.grant with
      | none => exact ⟨_, step_of_idle hr hg⟩
      | some p =>
        obtain ⟨t, _, ht, -⟩ := execRequest_answers (s.take p)
        exact ⟨t, (step_of_grant hr hg).trans ht⟩
  · intro hr hC hP
    exact step_of_idle hr (State.grant_of_idle hC hP)

end Sys2Proof.Machine

/-! # Rounding to nearest even: one rounding of the exact result (R9, R75(b)) -/

namespace Sys2Proof.Machine.F32

open Sys2Proof

/-! ## Bits and values -/

theorem toNat_mod_two (a : Sample) : a.toNat % 2 = magBits a % 2 := by
  unfold magBits
  omega

theorem natAbs_val (a : Sample) : (val a).natAbs = mag a := by
  unfold val
  cases neg a <;> simp

theorem isFinite_false_iff (a : Sample) : isFinite a = false ↔ infBits ≤ magBits a := by
  rw [← Bool.not_eq_true, isFinite_iff, Nat.not_lt]

theorem isFinite_negate (a : Sample) : isFinite (negate a) = isFinite a := by
  rw [Bool.eq_iff_iff, isFinite_iff, isFinite_iff, magBits_negate]

/-- A positive factor does not change the sign. -/
theorem mul_pos_neg_iff {x c : Int} (hc : 0 < c) : x * c < 0 ↔ x < 0 := by
  rw [mul_neg_iff]
  omega

/-- The sign of a nonzero value. -/
theorem val_neg_iff {a : Sample} (h : val a ≠ 0) : val a < 0 ↔ neg a = true := by
  unfold val at h ⊢
  cases hn : neg a with
  | false => simp
  | true =>
    simp only [hn, if_true, iff_true] at h ⊢
    omega

theorem val_pos_iff {a : Sample} (h : val a ≠ 0) : 0 < val a ↔ neg a = false := by
  rw [← Bool.not_eq_true, ← val_neg_iff h]
  omega

/-! ## The rounded magnitude -/

/-- No magnitude lies nearer to `N / D` than the rounded one, and where another lies as near, the rounded one has even
bits (R9, R75(b)). -/
theorem rawRound_nearest {N D : Nat} (hD : 0 < D) (k : Nat) :
    |(magOf (rawRound N D) : Int) * D - N| ≤ |(magOf k : Int) * D - N| ∧
      (|(magOf (rawRound N D) : Int) * D - N| = |(magOf k : Int) * D - N| → k ≠ rawRound N D →
        rawRound N D % 2 = 0) := by
  obtain ⟨r, hlow, hhigh, hr⟩ := rawRound_cases (num := N) hD
  have hside : k = r ∨ magOf k * D < magOf r * D ∨ k = r + 1 ∨ magOf (r + 1) * D < magOf k * D := by
    rcases Nat.lt_trichotomy k r with h | h | h
    · exact .inr (.inl (Nat.mul_lt_mul_of_pos_right (magOf_lt_iff.mpr h) hD))
    · exact .inl h
    · rcases Nat.lt_or_ge (r + 1) k with h' | h'
      · exact .inr (.inr (.inr (Nat.mul_lt_mul_of_pos_right (magOf_lt_iff.mpr h') hD)))
      · exact .inr (.inr (.inl (by omega)))
  rw [Nat.add_mul] at hr
  simp only [Int.abs_eq_natAbs, ← Int.natCast_mul]
  rcases hr with ⟨hr, hmid⟩ | ⟨hr, hmid⟩
  · rw [hr]
    rcases hside with rfl | hk | rfl | hk <;> omega
  · rw [hr]
    rcases hside with rfl | hk | rfl | hk <;> omega

/-- The overflow midpoint, half a unit in the last place above the largest finite sample. -/
theorem magOf_overflow_midpoint : magOf (infBits - 1) + magOf infBits = 33554431 * 2 ^ 253 := by decide +kernel

/-- R75(b): a magnitude is rounded to infinity exactly from the overflow midpoint on; at the midpoint itself because the
largest finite sample has odd bits. -/
theorem infBits_le_rawRound_iff {N D : Nat} (hD : 0 < D) :
    infBits ≤ rawRound N D ↔ 33554431 * 2 ^ 253 * D ≤ 2 * N := by
  rw [← magOf_overflow_midpoint]
  have hodd : (infBits - 1) % 2 = 1 := by decide
  have hsucc : infBits - 1 + 1 = infBits := by decide
  constructor
  · intro h
    calc (magOf (infBits - 1) + magOf infBits) * D
        ≤ (magOf (rawRound N D - 1) + magOf (rawRound N D)) * D :=
          Nat.mul_le_mul_right _ (Nat.add_le_add (magOf_le_iff.mpr (by omega)) (magOf_le_iff.mpr h))
      _ ≤ 2 * N := (rawRound_between hD).1 (by omega)
  · intro h
    by_contra hlt
    obtain ⟨r, -, hhigh, hr⟩ := rawRound_cases (num := N) hD
    rcases Nat.lt_or_ge r (infBits - 1) with hr' | hr'
    · have h1 : magOf (r + 1) * D ≤ magOf (infBits - 1) * D := Nat.mul_le_mul_right _ (magOf_le_iff.mpr (by omega))
      have h2 : magOf (infBits - 1) * D ≤ magOf infBits * D := Nat.mul_le_mul_right _ (magOf_le_iff.mpr (by omega))
      rw [Nat.add_mul] at h
      omega
    · obtain rfl : r = infBits - 1 := by omega
      rw [hsucc] at hr
      omega

/-! ## A result against the exact quotient -/

/-- `r` is the exact quotient `num / den` rounded as R9 and R75(b) say: nearest, ties to even, an infinity from the
overflow midpoint on. The words of `Obligations.ArithmeticRoundsToNearestEven`, which that statement applies to each
operation. -/
def RoundsExact (r : Sample) (num den : Int) : Prop :=
  (isFinite r = true → ∀ y : Sample, isFinite y = true →
    |val r * den - num| ≤ |val y * den - num| ∧
    (|val r * den - num| = |val y * den - num| → val y ≠ val r → r.toNat % 2 = 0)) ∧
  (isFinite r = false → (2 ^ 25 - 1) * 2 ^ 253 * |den| ≤ 2 * |num|) ∧
  ((2 ^ 25 - 1) * 2 ^ 253 * |den| ≤ 2 * |num| → isInf r = true ∧ (neg r = true ↔ num * den < 0))

/-- `e` is the sign of the quotient `num / den`: turned by it, the quotient is that of the magnitudes. -/
def IsSign (e num den : Int) : Prop := (e = 1 ∨ e = -1) ∧ e * (den.sign * num) = |num|

/-- A distance to the quotient is one to the quotient of the magnitudes, both turned by its sign. -/
theorem IsSign.distance {e num den : Int} (h : IsSign e num den) (hd : den ≠ 0) (v : Int) :
    |v * den - num| = |e * v * (den.natAbs : Int) - (num.natAbs : Int)| := by
  obtain ⟨he, hnum⟩ := h
  have hunit : |e * den.sign| = 1 := by
    rw [abs_mul, Int.abs_sign_of_ne_zero hd]
    rcases he with rfl | rfl <;> rfl
  rw [Int.natCast_natAbs, Int.natCast_natAbs, ← hnum, ← Int.sign_mul_self_eq_abs den]
  calc |v * den - num| = |e * den.sign| * |v * den - num| := by rw [hunit, one_mul]
    _ = |e * v * (den.sign * den) - e * (den.sign * num)| := by rw [← abs_mul]; ring_nf

/-- A sign bit that is right wherever the quotient is not 0 gives the quotient's sign. -/
theorem isSign_of_iff {sign : Bool} {num den : Int} (hd : den ≠ 0)
    (hs : num ≠ 0 → (sign = true ↔ num * den < 0)) : IsSign (if sign then -1 else 1) num den := by
  have hmul : num * den = den.sign * num * |den| := by
    rw [mul_right_comm, Int.sign_mul_abs, mul_comm]
  have habs : |den.sign * num| = |num| := by rw [abs_mul, Int.abs_sign_of_ne_zero hd, one_mul]
  refine ⟨by cases sign <;> simp, ?_⟩
  rw [← habs]
  by_cases h0 : num = 0
  · simp [h0]
  · have hneg : sign = true ↔ den.sign * num < 0 := by
      rw [hs h0, hmul, mul_pos_neg_iff (abs_pos.mpr hd)]
    cases sign with
    | true => rw [abs_of_neg (hneg.mp rfl)]; simp
    | false => rw [abs_of_nonneg (by simpa using hneg)]; simp

/-- `rawRound_nearest` for signed candidates: those of the other sign are farther away. -/
theorem rawRound_nearest_signed {N D : Nat} (hD : 0 < D) {u : Int} {k : Nat} (hu : u.natAbs = magOf k) :
    |(magOf (rawRound N D) : Int) * D - N| ≤ |u * D - N| ∧
      (|(magOf (rawRound N D) : Int) * D - N| = |u * D - N| → u ≠ magOf (rawRound N D) → rawRound N D % 2 = 0) := by
  rcases lt_or_ge u 0 with hneg | hpos
  · have hzero := (rawRound_nearest (N := N) hD 0).1
    have hfar : 0 < -u * (D : Int) := Int.mul_pos (by omega) (by omega)
    have hlt : |(magOf (rawRound N D) : Int) * D - N| < |u * D - N| := by
      rw [magOf_zero] at hzero
      rw [Int.neg_mul] at hfar
      simp only [Int.abs_eq_natAbs] at hzero ⊢
      omega
    exact ⟨hlt.le, fun h => absurd h hlt.ne⟩
  · obtain rfl : u = magOf k := by omega
    obtain ⟨hle, htie⟩ := rawRound_nearest (N := N) hD k
    exact ⟨hle, fun h hne => htie h fun hk => hne (by rw [hk])⟩

/-- A finite rounded sample lies nearest to the quotient `num / den` whose sign it has, ties to even (R9). -/
theorem round_nearest {sign : Bool} {num den : Int} (hd : den ≠ 0) (hs : IsSign (if sign then -1 else 1) num den)
    (hfin : isFinite (round sign num.natAbs den.natAbs) = true) (y : Sample) :
    |val (round sign num.natAbs den.natAbs) * den - num| ≤ |val y * den - num| ∧
      (|val (round sign num.natAbs den.natAbs) * den - num| = |val y * den - num| →
        val y ≠ val (round sign num.natAbs den.natAbs) → (round sign num.natAbs den.natAbs).toNat % 2 = 0) := by
  have hraw : roundMag num.natAbs den.natAbs = rawRound num.natAbs den.natAbs := by
    rw [isFinite_iff, magBits_round, roundMag_eq] at hfin
    rw [roundMag_eq]
    omega
  have hval : (if sign then -1 else 1) * val (round sign num.natAbs den.natAbs)
      = magOf (rawRound num.natAbs den.natAbs) := by
    rw [val_eq, neg_round, magBits_round, hraw]
    cases sign <;> simp
  have hy : ((if sign then -1 else 1) * val y).natAbs = magOf (magBits y) := by
    rw [← mag_eq, ← natAbs_val]
    cases sign <;> simp
  obtain ⟨hle, htie⟩ := rawRound_nearest_signed (N := num.natAbs) (Int.natAbs_pos.mpr hd) hy
  rw [hs.distance hd, hs.distance hd, hval]
  refine ⟨hle, fun heq hne => ?_⟩
  rw [toNat_mod_two, magBits_round, hraw]
  refine htie heq fun h => hne ?_
  rw [← hval] at h
  exact mul_left_cancel₀ (by cases sign <;> decide) h

/-- A rounded sample is not finite exactly from the overflow midpoint on (R75(b)). -/
theorem round_overflow_iff (sign : Bool) {num den : Int} (hd : den ≠ 0) :
    isFinite (round sign num.natAbs den.natAbs) = false ↔ (2 ^ 25 - 1) * 2 ^ 253 * |den| ≤ 2 * |num| := by
  have hc : (2 : Int) ^ 25 - 1 = 33554431 := by norm_num
  rw [isFinite_false_iff, magBits_round, roundMag_eq, Nat.le_min, and_iff_left le_rfl,
    infBits_le_rawRound_iff (Int.natAbs_pos.mpr hd), hc, ← Int.natCast_natAbs, ← Int.natCast_natAbs]
  norm_cast

/-- Rounding the magnitudes' quotient once and giving it the sign of the exact quotient is what R75(b) asks for. -/
theorem roundsExact_round {sign : Bool} {num den : Int} (hd : den ≠ 0)
    (hs : num ≠ 0 → (sign = true ↔ num * den < 0)) :
    RoundsExact (round sign num.natAbs den.natAbs) num den := by
  have hover := round_overflow_iff sign (num := num) hd
  refine ⟨fun hfin y _ => round_nearest hd (isSign_of_iff hd hs) hfin y, hover.mp, fun hbig => ⟨?_, ?_⟩⟩
  · have hinf := inf_or_finite (isNaN_round sign num.natAbs den.natAbs)
    rwa [hover.mpr hbig, or_iff_left Bool.false_ne_true] at hinf
  · rw [neg_round]
    refine hs fun h0 => ?_
    have hpos : 0 < (2 ^ 25 - 1) * 2 ^ 253 * |den| := mul_pos (by norm_num) (abs_pos.mpr hd)
    rw [h0, abs_zero, mul_zero] at hbig
    exact hpos.not_ge hbig

/-- The sum of finite samples is the exact sum, rounded; an exact zero takes its sign from the operands. -/
theorem add_roundsExact {q : Nat} {a b : Sample} (ha : isFinite a = true) (hb : isFinite b = true) :
    RoundsExact (add q a b) (val a + val b) 1 := by
  rw [add_finite ha hb]
  split
  · rename_i h0
    have hr : mk (neg a && neg b) 0 = round (neg a && neg b) (val a + val b).natAbs (1 : Int).natAbs := by
      rw [round, h0, Int.natAbs_zero, roundMag_zero (by decide)]
    rw [hr]
    exact roundsExact_round (by decide) (fun h => absurd h0 h)
  · exact roundsExact_round (den := 1) (by decide) (fun _ => by simp)

/-- A difference is a sum with the second operand negated. -/
theorem sub_roundsExact {q : Nat} {a b : Sample} (ha : isFinite a = true) (hb : isFinite b = true) :
    RoundsExact (sub q a b) (val a - val b) 1 := by
  rw [sub, Int.sub_eq_add_neg, ← val_negate]
  exact add_roundsExact ha ((isFinite_negate b).trans hb)

/-- The signs of two nonzero values differ exactly where their product is negative. -/
theorem neg_bne_iff {a b : Sample} (h : val a * val b ≠ 0) : (neg a != neg b) = true ↔ val a * val b < 0 := by
  have ha := left_ne_zero_of_mul h
  have hb := right_ne_zero_of_mul h
  rw [mul_neg_iff, val_neg_iff ha, val_neg_iff hb, val_pos_iff ha, val_pos_iff hb]
  cases neg a <;> simp

/-- `2^149`, the unit of the values, as the magnitude of an integer. -/
theorem natAbs_unit : ((2 : Int) ^ 149).natAbs = 2 ^ 149 := by
  rw [Int.natAbs_pow]
  rfl

theorem unit_pos : (0 : Int) < 2 ^ 149 := by positivity

/-- A product of finite samples: the exact product, in units of 2^-298, over 2^149. -/
theorem mul_roundsExact {q : Nat} {a b : Sample} (ha : isFinite a = true) (hb : isFinite b = true) :
    RoundsExact (mul q a b) (val a * val b) (2 ^ 149) := by
  rw [mul_finite ha hb, ← natAbs_val a, ← natAbs_val b, ← Int.natAbs_mul, ← natAbs_unit]
  refine roundsExact_round unit_pos.ne' fun h => ?_
  rw [neg_bne_iff h, mul_pos_neg_iff unit_pos]

/-- A quotient of finite samples: the exact quotient of the values, times 2^149. -/
theorem div_roundsExact {q : Nat} {a b : Sample} (ha : isFinite a = true) (hb : isFinite b = true)
    (h0 : isZero b = false) : RoundsExact (div q a b) (val a * 2 ^ 149) (val b) := by
  have hb0 : val b ≠ 0 := by
    rw [← Int.natAbs_ne_zero, natAbs_val, Ne, mag_eq_zero_iff]
    exact (isZero_false_iff b).mp h0
  rw [div_finite ha hb h0, ← natAbs_val a, ← natAbs_val b, ← natAbs_unit, ← Int.natAbs_mul]
  refine roundsExact_round hb0 fun h => ?_
  rw [neg_bne_iff (mul_ne_zero (left_ne_zero_of_mul h) hb0), mul_right_comm, mul_pos_neg_iff unit_pos]

/-- Settles O53: each operation rounds its exact result once. -/
theorem arithmeticRoundsToNearestEven : Obligations.ArithmeticRoundsToNearestEven := by
  intro q a b ha hb
  exact ⟨add_roundsExact ha hb, sub_roundsExact ha hb, mul_roundsExact ha hb, div_roundsExact ha hb⟩

end Sys2Proof.Machine.F32

/-! # The register map and the legal values of its registers (R25, R30, R45) -/

namespace Sys2Proof.Machine

open Sys2Proof

/-! ## The map by its inverse: each register has one address (R30, R45) -/

/-- The index of the register lies below the count of its kind (R6, R30). -/
def Reg.inBounds : Reg → Prop
  | .toneState c => c < 2
  | .size b | .cur b | .physCap b => b < 15
  | .apDelay i => i < 4
  | .combDelay j | .combFb j | .combDamp j | .combLast j => j < 8
  | _ => True

/-- The address of a register (R30); `regAt_eq_some_iff` ties it to the model's map. -/
def Reg.addr : Reg → Nat
  | .id => 0x000
  | .config => 0x001
  | .status => 0x002
  | .fcmd => 0x003
  | .fdata => 0x004
  | .dout => 0x005
  | .apGain => 0x006
  | .tapeBase => 0x010
  | .flutDepth => 0x011
  | .flutInc => 0x012
  | .flutPhase => 0x013
  | .modDly => 0x014
  | .tapeTone => 0x015
  | .tapeFb => 0x016
  | .tapeDrive => 0x017
  | .toneState c => 0x018 + c
  | .size b => 0x100 + 4 * b
  | .cur b => 0x101 + 4 * b
  | .physCap b => 0x102 + 4 * b
  | .apDelay i => 0x200 + i
  | .combDelay j => 0x300 + 4 * j
  | .combFb j => 0x301 + 4 * j
  | .combDamp j => 0x302 + 4 * j
  | .combLast j => 0x303 + 4 * j

/-- The map with the counts of R6 as numbers. -/
theorem regAt_eq (a : Nat) :
    regAt a =
      if a < 0x100 then regLow a
      else if a < 0x13C then regBuffer (a - 0x100)
      else if 0x200 ≤ a ∧ a < 0x204 then some (.apDelay (a - 0x200))
      else if 0x300 ≤ a ∧ a < 0x320 then regComb (a - 0x300)
      else none := rfl

theorem regLow_some {a : Nat} {r : Reg} (h : regLow a = some r) : r.inBounds ∧ r.addr = a := by
  unfold regLow at h
  split at h <;> cases h <;> simp [Reg.inBounds, Reg.addr]

theorem regBuffer_some {o : Nat} {r : Reg} (ho : o < 60) (h : regBuffer o = some r) :
    r.inBounds ∧ r.addr = 0x100 + o := by
  unfold regBuffer at h
  split at h <;> cases h <;> simp only [Reg.inBounds, Reg.addr] <;> omega

theorem regComb_some {o : Nat} {r : Reg} (ho : o < 32) (h : regComb o = some r) :
    r.inBounds ∧ r.addr = 0x300 + o := by
  have hmod : o % 4 = 0 ∨ o % 4 = 1 ∨ o % 4 = 2 ∨ o % 4 = 3 := by omega
  rcases hmod with hm | hm | hm | hm <;> simp only [regComb, hm] at h <;> cases h <;>
    simp only [Reg.inBounds, Reg.addr] <;> omega

/-- What an address names is a register within its bounds, and the address is that register's own. -/
theorem regAt_some {a : Nat} {r : Reg} (h : regAt a = some r) : r.inBounds ∧ r.addr = a := by
  rw [regAt_eq] at h
  split at h
  · exact regLow_some h
  split at h
  · obtain ⟨hb, ha⟩ := regBuffer_some (by omega) h
    exact ⟨hb, by omega⟩
  split at h
  · cases h
    simp only [Reg.inBounds, Reg.addr]
    omega
  split at h
  · obtain ⟨hb, ha⟩ := regComb_some (by omega) h
    exact ⟨hb, by omega⟩
  · cases h

theorem regAt_buffer {b k : Nat} (hb : b < 15) (hk : k < 4) : regAt (0x100 + k + 4 * b) = regBuffer (k + 4 * b) := by
  rw [regAt_eq, if_neg (by omega), if_pos (by omega), Nat.add_assoc, Nat.add_sub_cancel_left]

theorem regAt_comb {j k : Nat} (hj : j < 8) (hk : k < 4) : regAt (0x300 + k + 4 * j) = regComb (k + 4 * j) := by
  rw [regAt_eq, if_neg (by omega), if_neg (by omega), if_neg (by omega), if_pos (by omega), Nat.add_assoc,
    Nat.add_sub_cancel_left]

/-- A register within its bounds is reached at its address. -/
theorem regAt_addr {r : Reg} (h : r.inBounds) : regAt r.addr = some r := by
  cases r with
  | toneState c =>
    obtain rfl | rfl : c = 0 ∨ c = 1 := by simp only [Reg.inBounds] at h; omega
    all_goals rfl
  | size b => exact (regAt_buffer (k := 0) h (by decide)).trans (by simp [regBuffer])
  | cur b => exact (regAt_buffer (k := 1) h (by decide)).trans (by simp [regBuffer, Nat.add_mul_div_left])
  | physCap b => exact (regAt_buffer (k := 2) h (by decide)).trans (by simp [regBuffer, Nat.add_mul_div_left])
  | apDelay i =>
    have hi : i < 4 := h
    rw [Reg.addr, regAt_eq, if_neg (by omega), if_neg (by omega), if_pos (by omega), Nat.add_sub_cancel_left]
  | combDelay j => exact (regAt_comb (k := 0) h (by decide)).trans (by simp [regComb])
  | combFb j => exact (regAt_comb (k := 1) h (by decide)).trans (by simp [regComb, Nat.add_mul_div_left])
  | combDamp j => exact (regAt_comb (k := 2) h (by decide)).trans (by simp [regComb, Nat.add_mul_div_left])
  | combLast j => exact (regAt_comb (k := 3) h (by decide)).trans (by simp [regComb, Nat.add_mul_div_left])
  | _ => rfl

/-- R30, R45: the map and `Reg.addr` are inverse to each other. -/
theorem regAt_eq_some_iff {a : Nat} {r : Reg} : regAt a = some r ↔ r.inBounds ∧ r.addr = a :=
  ⟨regAt_some, fun ⟨hb, ha⟩ => ha ▸ regAt_addr hb⟩

/-- Settles O50: a register has one address. -/
theorem noRegisterIsAliased : Obligations.NoRegisterIsAliased := by
  intro a a' r h h'
  exact (regAt_some h).2.symm.trans (regAt_some h').2

/-- Settles O49: each entry of the table is a register in bounds at its address with its class, and each register in
bounds has its entry. -/
theorem registerMap : Obligations.RegisterMap := by
  unfold Obligations.RegisterMap
  intro fixed buffers aps combs map
  have hentry : ∀ e ∈ map, (e.2.1.inBounds ∧ e.2.1.addr = e.1) ∧ e.2.1.writable = e.2.2 := by
    simp only [map, List.forall_mem_append]
    refine ⟨⟨⟨?_, ?_⟩, ?_⟩, ?_⟩
    · simp [fixed, Reg.inBounds, Reg.addr, Reg.writable]
    · intro e he
      obtain ⟨b, hb, he⟩ := List.mem_flatMap.mp he
      simp only [List.mem_cons, List.not_mem_nil, or_false] at he
      obtain rfl | rfl | rfl := he
      all_goals exact ⟨⟨List.mem_range.mp hb, rfl⟩, rfl⟩
    · intro e he
      obtain ⟨i, hi, rfl⟩ := List.mem_map.mp he
      exact ⟨⟨List.mem_range.mp hi, rfl⟩, rfl⟩
    · intro e he
      obtain ⟨j, hj, he⟩ := List.mem_flatMap.mp he
      simp only [List.mem_cons, List.not_mem_nil, or_false] at he
      obtain rfl | rfl | rfl | rfl := he
      all_goals exact ⟨⟨List.mem_range.mp hj, rfl⟩, rfl⟩
  have hlisted : ∀ r : Reg, r.inBounds → (r.addr, r, r.writable) ∈ map := by
    intro r hr
    simp only [map, List.mem_append]
    cases r with
    | size b | cur b | physCap b =>
      exact .inl (.inl (.inr (List.mem_flatMap.mpr ⟨b, List.mem_range.mpr hr, by simp [Reg.addr, Reg.writable]⟩)))
    | apDelay i => exact .inl (.inr (List.mem_map.mpr ⟨i, List.mem_range.mpr hr, rfl⟩))
    | combDelay j | combFb j | combDamp j | combLast j =>
      exact .inr (List.mem_flatMap.mpr ⟨j, List.mem_range.mpr hr, by simp [Reg.addr, Reg.writable]⟩)
    | toneState c =>
      obtain rfl | rfl : c = 0 ∨ c = 1 := by simp only [Reg.inBounds] at hr; omega
      all_goals exact .inl (.inl (.inl (by simp [fixed, Reg.addr, Reg.writable])))
    | _ => exact .inl (.inl (.inl (by simp [fixed, Reg.addr, Reg.writable])))
  refine ⟨fun e he => ?_, fun a hfree => ?_⟩
  · obtain ⟨hreg, hclass⟩ := hentry e he
    exact ⟨regAt_eq_some_iff.mpr hreg, hclass⟩
  · by_contra hmapped
    obtain ⟨r, hr⟩ := Option.ne_none_iff_exists'.mp hmapped
    obtain ⟨hb, ha⟩ := regAt_some hr
    exact hfree _ (hlisted r hb) ha

/-! ## Legal values (R25) -/

/-- A sample clamped into a range that is not empty lies in it (R13). -/
theorem inRange_clampS {lo hi : Sample} (h : F32.le lo hi = true) (v : Sample) :
    inRange lo hi (F32.clampS v lo hi) = true := by
  obtain ⟨hlo, hhi, hle⟩ := F32.le_iff.mp h
  simp only [inRange, Bool.and_eq_true, F32.le_iff]
  obtain ⟨e, -⟩ | ⟨e, -⟩ | ⟨e, hv, hlow, hhigh⟩ := F32.clampS_cases v lo hi
  · simp [e, hlo, hhi, hle]
  · simp [e, hlo, hhi, hle]
  · rw [← Bool.not_eq_true, F32.lt_iff] at hlow hhigh
    simp_all

/-- A sample in the range is left as it is (R13). -/
theorem clampS_of_inRange {lo hi v : Sample} (h : inRange lo hi v = true) : F32.clampS v lo hi = v := by
  obtain ⟨hlo, hhi⟩ := Bool.and_eq_true_iff.mp h
  exact F32.clampS_of_mem hlo hhi

/-! The ranges of R25 are not empty. -/

theorem zero_le_fbMax : F32.le F32.zero Config.fbMax = true := by decide +kernel
theorem zero_le_poleMax : F32.le F32.zero Config.poleMax = true := by decide +kernel
theorem zero_le_dlyMax : F32.le F32.zero Config.dlyMax = true := by decide +kernel
theorem zero_le_pi : F32.le F32.zero Config.pi = true := by decide +kernel
theorem driveMin_le_driveMax : F32.le Config.driveMin Config.driveMax = true := by decide +kernel

theorem clampI_le (w : Word) : F32.clampI w ≤ Config.u20Max := Nat.min_le_right _ _

/-- The word R25's table gives is legal. -/
theorem legalValue_legalWord (r : Reg) (w : Word) : legalValue r (legalWord r w) = true := by
  cases r with
  | apDelay | combDelay =>
    simp only [legalValue, legalWord, BitVec.toNat_ofNat, decide_eq_true_eq]
    omega
  | combFb | tapeFb => exact inRange_clampS zero_le_fbMax w
  | combDamp | tapeTone => exact inRange_clampS zero_le_poleMax w
  | tapeBase | flutDepth => exact inRange_clampS zero_le_dlyMax w
  | flutInc => exact inRange_clampS zero_le_pi w
  | tapeDrive => exact inRange_clampS driveMin_le_driveMax w
  | _ => rfl

/-- R25: a legal word is not changed. -/
theorem legalWord_of_legalValue {r : Reg} {w : Word} (h : legalValue r w = true) : legalWord r w = w := by
  cases r with
  | apDelay | combDelay =>
    have hw : w.toNat ≤ 1048575 := of_decide_eq_true h
    simp [legalWord, Nat.min_eq_left hw]
  | combFb | tapeFb | combDamp | tapeTone | tapeBase | flutDepth | flutInc | tapeDrive => exact clampS_of_inRange h
  | _ => rfl

/-- A response changes what no register reads as. -/
@[simp] theorem State.readReg_respond (s : State) (st : RespStatus) (q : Word) (r : Reg) :
    (s.respond st q).readReg r = s.readReg r := by
  cases r <;>
    simp [State.readReg, State.toneState, State.buf, State.physCap, State.apDelay, State.combDelay, State.combFb,
      State.combDamp, State.combLast]

/-- R193: an `RW` register reads as the legal word after a write. -/
theorem State.readReg_writeReg_self (s : State) {r : Reg} (hb : r.inBounds) (hw : r.writable = true) (w : Word) :
    (s.writeReg r w).readReg r = legalWord r w := by
  cases r with
  | apDelay i =>
    have hi : i < 4 := hb
    simp [State.readReg, State.apDelay, Params.writeReg, getD_setIfInBounds, hi, zext32, legalWord, F32.clampI]
  | combDelay j =>
    have hj : j < 8 := hb
    simp [State.readReg, State.combDelay, Params.writeReg, getD_setIfInBounds, hj, zext32, legalWord, F32.clampI]
  | combFb j =>
    have hj : j < 8 := hb
    simp [State.readReg, State.combFb, Params.writeReg, getD_setIfInBounds, hj, legalWord, legalFb, F32.zero,
      Config.fbMax]
  | combDamp j =>
    have hj : j < 8 := hb
    simp [State.readReg, State.combDamp, Params.writeReg, getD_setIfInBounds, hj, legalWord, legalPole, F32.zero,
      Config.poleMax]
  | tapeBase | flutDepth | flutInc | tapeTone | tapeFb | tapeDrive => rfl
  | _ => cases hw

theorem wrregRun_of_regAt {a : Nat} {r : Reg} (h : regAt a = some r) (s : State) :
    wrregRun a s = (s.writeReg r s.dataWord).complete := by
  simp [wrregRun, h]

/-- R193: a write to an `RW` register is executed on either port where the unit is not faulted. -/
theorem exec_wrreg_of_writable {s : State} {a : Nat} {r : Reg} (h : regAt a = some r) (hw : r.writable = true)
    (hf : s.faulted = false) : exec (.wrreg a) s = .next (s.writeReg r s.dataWord).complete := by
  have ha : addrWritable a = true := by simp [addrWritable, h, hw]
  exact congrArg _ ((serve_ran (.inr ha) (.inl hf) (wrregCheck_none.mpr ha)).trans (wrregRun_of_regAt h s))

/-- Settles O51: the register reads as the legal word of what was written. -/
theorem writtenValuesAreLegal : Obligations.WrittenValuesAreLegal := by
  intro s a r h hw hf
  have hread : (s.writeReg r s.dataWord).complete.readReg r = legalWord r s.req.data :=
    (State.readReg_respond _ _ _ _).trans (s.readReg_writeReg_self (regAt_some h).1 hw _)
  refine ⟨_, exec_wrreg_of_writable h hw hf, ?_⟩
  rw [hread]
  exact ⟨legalValue_legalWord r _, legalWord_of_legalValue⟩

end Sys2Proof.Machine

/-! # Which command writes which element (R20) -/

namespace Sys2Proof.Machine

open Sys2Proof

/-! ## What a command can do, and what it leaves when it is turned away -/

/-- R223: a command is turned away, taken as a fault, or passes its checks and runs its pseudocode. -/
theorem exec_cases {i : Instr} {s t : State} (h : exec i s = .next t) :
    t = deny s ∨ t = refuse s ∨ (∃ c, t = raiseFault c s) ∨ (admission i s = none ∧ t = effect i s) := by
  rw [exec_eq_serve] at h
  obtain ⟨-, -, e⟩ | ⟨-, -, -, e⟩ | ⟨-, -, c, -, e⟩ | ⟨-, -, hc, e⟩ :=
    serve_cases (permittedOnPortP i) (runsWhenFaulted i) (admission i) (effect i) s
  all_goals rw [e] at h; cases h
  · exact .inl rfl
  · exact .inr (.inl rfl)
  · exact .inr (.inr (.inl ⟨c, rfl⟩))
  · exact .inr (.inr (.inr ⟨hc, rfl⟩))

/-- R215: the fault record after taking a fault is the earlier one, or the request's where there was none. -/
theorem raiseFault_record_cases (c : Cause) (s : State) :
    (raiseFault c s).record = s.record ∨
      (s.faulted = false ∧
        (raiseFault c s).record = { status := c.statusWord, fcmd := s.req.word, fdata := s.req.data }) := by
  cases hf : s.faulted with
  | true => exact .inl (by rw [raiseFault_record, State.recordFault_of_faulted c hf])
  | false => exact .inr ⟨rfl, by rw [raiseFault_record, State.recordFault_record_of_clear c hf]⟩

/-- R20's elements but the fault record, and the implementation. -/
abbrev sameElements (s t : State) : Prop :=
  t.impl = s.impl ∧ t.bufs = s.bufs ∧ t.params = s.params ∧ t.filters = s.filters ∧ t.dout = s.dout

/-- R215, R217, R222: a command that does not run writes nothing but the fault record, and that only by a fault. -/
theorem exec_frame {i : Instr} {s t : State} (h : exec i s = .next t) :
    (sameElements s t ∧ (t.record = s.record ∨ (s.faulted = false ∧ ∃ c : Cause,
      t.record = { status := c.statusWord, fcmd := s.req.word, fdata := s.req.data }))) ∨
    (admission i s = none ∧ t = effect i s) := by
  obtain rfl | rfl | ⟨c, rfl⟩ | hrun := exec_cases h
  · exact .inl ⟨by simp [sameElements], .inl (deny_record s)⟩
  · exact .inl ⟨by simp [sameElements], .inl (refuse_record s)⟩
  · exact .inl ⟨by simp [sameElements],
      (raiseFault_record_cases c s).imp_right fun ⟨hf, hr⟩ => ⟨hf, c, hr⟩⟩
  · exact .inr hrun

/-! ## The pseudocode of `RDREG`, `WRREG` and `SRESET` by what it can change -/

/-- R192: `RDREG` changes no element. -/
theorem rdregRun_frame (a : Nat) (s : State) :
    sameElements s (rdregRun a s) ∧ (rdregRun a s).record = s.record := by
  unfold rdregRun
  split <;> simp [sameElements]

/-- R193: `WRREG` changes parameters alone. -/
theorem wrregRun_frame (a : Nat) (s : State) :
    (wrregRun a s).impl = s.impl ∧ (wrregRun a s).bufs = s.bufs ∧ (wrregRun a s).filters = s.filters ∧
      (wrregRun a s).dout = s.dout ∧ (wrregRun a s).record = s.record := by
  unfold wrregRun
  split <;> simp

theorem resetPlate_frame (s : State) :
    ∃ bufs, resetPlate s =
      { s with bufs := bufs, filters := { s.filters with combLast := Vector.replicate 8 F32.zero } } := by
  rw [resetPlate, State.clearBuffers_eq]
  exact ⟨_, rfl⟩

theorem resetTape_frame (s : State) :
    ∃ bufs, resetTape s =
      { s with
        bufs := bufs
        filters :=
          { s.filters with
            toneState := Vector.replicate 2 F32.zero, flutPhase := F32.zero, modDly := F32.zero } } := by
  rw [resetTape, State.clearBuffers_eq]
  exact ⟨_, rfl⟩

/-- R194: what both groups' resets keep, `SRESET` keeps, whatever its mask. -/
theorem resetGroups_induction {P : State → Prop} {s : State} (m : Nat) (h : P s)
    (hplate : ∀ t, P t → P (resetPlate t)) (htape : ∀ t, P t → P (resetTape t)) : P (resetGroups m s) := by
  unfold resetGroups
  cases maskPlate m <;> cases maskTape m
  · simpa using h
  · simpa using htape _ h
  · simpa using hplate _ h
  · simpa using htape _ (hplate _ h)

/-- All that `SRESET` can change (R194): buffers and filter state, the oscillator's registers only to zero. -/
def withinSreset (s t : State) : Prop :=
  ∃ bufs filters, t = { s with bufs := bufs, filters := filters } ∧
    (filters.flutPhase = s.filters.flutPhase ∨ filters.flutPhase = F32.zero) ∧
    (filters.modDly = s.filters.modDly ∨ filters.modDly = F32.zero)

theorem resetGroups_frame (m : Nat) (s : State) : withinSreset s (resetGroups m s) := by
  apply resetGroups_induction (P := withinSreset s) m
  · exact ⟨s.bufs, s.filters, rfl, .inl rfl, .inl rfl⟩
  · rintro _ ⟨bufs, filters, rfl, hphase, hmod⟩
    obtain ⟨_, hplate⟩ := resetPlate_frame { s with bufs := bufs, filters := filters }
    exact ⟨_, _, hplate, hphase, hmod⟩
  · rintro _ ⟨bufs, filters, rfl, -, -⟩
    obtain ⟨_, htape⟩ := resetTape_frame { s with bufs := bufs, filters := filters }
    exact ⟨_, _, htape, .inr rfl, .inr rfl⟩

/-- R194: `SRESET` leaves each buffer as it is or cleared. -/
theorem resetGroups_buf (m : Nat) (s : State) (b : Nat) :
    (resetGroups m s).buf b = s.buf b ∨ (resetGroups m s).buf b = (s.buf b).clear := by
  have hclear : ∀ (t u : State) (bs : List Nat), (∀ b ∈ bs, b < 15) → u.bufs = (t.clearBuffers bs).bufs →
      (t.buf b = s.buf b ∨ t.buf b = (s.buf b).clear) → (u.buf b = s.buf b ∨ u.buf b = (s.buf b).clear) := by
    intro t u bs hbs hu ht
    rw [State.buf_congr hu, State.buf_clearBuffers t bs hbs b]
    split
    · exact .inr (by obtain h | h := ht <;> simp [h, Buffer.clear_clear])
    · exact ht
  exact resetGroups_induction m (.inl rfl) (fun t => hclear t _ plateBuffers (by decide) rfl)
    (fun t => hclear t _ tapeBuffers (by decide) rfl)

/-! ## The pseudocode of every command, element by element -/

/-- No command writes the implementation's parameters or, when it runs, the fault record. -/
theorem effect_impl_record (i : Instr) (s : State) :
    (effect i s).impl = s.impl ∧ (effect i s).record = s.record := by
  cases i with
  | rdreg a =>
    obtain ⟨⟨himpl, -⟩, hrecord⟩ := rdregRun_frame a s
    exact ⟨himpl, hrecord⟩
  | wrreg a =>
    obtain ⟨himpl, -, -, -, hrecord⟩ := wrregRun_frame a s
    exact ⟨himpl, hrecord⟩
  | sreset m =>
    obtain ⟨_, _, h, -⟩ := resetGroups_frame m s
    simp [effect, h]
  | _ => simp [effect, setsizeRun, writeRun, readRun, readiRun, clearRun, apfRun, combRun, flutRun, tapeRun, satRun]

theorem effect_params {i : Instr} (h : ∀ a, i ≠ .wrreg a) (s : State) : (effect i s).params = s.params := by
  cases i with
  | wrreg a => exact absurd rfl (h a)
  | rdreg a =>
    obtain ⟨⟨-, -, hparams, -⟩, -⟩ := rdregRun_frame a s
    exact hparams
  | sreset m =>
    obtain ⟨_, _, h, -⟩ := resetGroups_frame m s
    simp [effect, h]
  | _ => simp [effect, setsizeRun, writeRun, readRun, readiRun, clearRun, apfRun, combRun, flutRun, tapeRun, satRun]

/-- R20, R26: the four filter and oscillator registers, each with the commands that can write it. -/
theorem effect_filters {i : Instr} (hreset : ∀ m, i ≠ .sreset m) (s : State) :
    ((∀ j, i ≠ .comb j) → (effect i s).filters.combLast = s.filters.combLast) ∧
      ((∀ c, i ≠ .tape c) → (effect i s).filters.toneState = s.filters.toneState) ∧
      (i ≠ .flut → (effect i s).filters.flutPhase = s.filters.flutPhase ∧
        (effect i s).filters.modDly = s.filters.modDly) := by
  cases i with
  | comb j => exact ⟨fun h => absurd rfl (h j), by simp [effect, combRun], by simp [effect, combRun]⟩
  | tape c => exact ⟨by simp [effect, tapeRun], fun h => absurd rfl (h c), by simp [effect, tapeRun]⟩
  | flut => exact ⟨by simp [effect, flutRun], by simp [effect, flutRun], fun h => absurd rfl h⟩
  | sreset m => exact absurd rfl (hreset m)
  | rdreg a =>
    obtain ⟨⟨-, -, -, hfilters, -⟩, -⟩ := rdregRun_frame a s
    simp [effect, hfilters]
  | wrreg a =>
    obtain ⟨-, -, hfilters, -⟩ := wrregRun_frame a s
    simp [effect, hfilters]
  | _ => simp [effect, setsizeRun, writeRun, readRun, readiRun, clearRun, apfRun, satRun]

/-- R80: `DOUT` is written by the commands with a result alone. -/
theorem effect_dout {i : Instr} (hread : ∀ b n, i ≠ .read b n) (hreadi : ∀ b, i ≠ .readi b) (hapf : ∀ j, i ≠ .apf j)
    (hcomb : ∀ j, i ≠ .comb j) (hflut : i ≠ .flut) (htape : ∀ c, i ≠ .tape c) (hsat : i ≠ .sat) (s : State) :
    (effect i s).dout = s.dout := by
  cases i with
  | read b n => exact absurd rfl (hread b n)
  | readi b => exact absurd rfl (hreadi b)
  | apf j => exact absurd rfl (hapf j)
  | comb j => exact absurd rfl (hcomb j)
  | flut => exact absurd rfl hflut
  | tape c => exact absurd rfl (htape c)
  | sat => exact absurd rfl hsat
  | rdreg a =>
    obtain ⟨⟨-, -, -, -, hdout⟩, -⟩ := rdregRun_frame a s
    exact hdout
  | wrreg a =>
    obtain ⟨-, -, -, hdout, -⟩ := wrregRun_frame a s
    exact hdout
  | sreset m =>
    obtain ⟨_, _, h, -⟩ := resetGroups_frame m s
    simp [effect, h]
  | nop | setsize | write | clear => simp [effect, setsizeRun, writeRun, clearRun]

/-- R20, R60: the commands that write no cell, size or cursor. -/
theorem effect_bufs {i : Instr} (hsetsize : ∀ b n, i ≠ .setsize b n) (hwrite : ∀ b, i ≠ .write b)
    (hclear : ∀ b, i ≠ .clear b) (hapf : ∀ j, i ≠ .apf j) (hcomb : ∀ j, i ≠ .comb j) (htape : ∀ c, i ≠ .tape c)
    (hreset : ∀ m, i ≠ .sreset m) (s : State) : (effect i s).bufs = s.bufs := by
  cases i with
  | setsize b n => exact absurd rfl (hsetsize b n)
  | write b => exact absurd rfl (hwrite b)
  | clear b => exact absurd rfl (hclear b)
  | apf j => exact absurd rfl (hapf j)
  | comb j => exact absurd rfl (hcomb j)
  | tape c => exact absurd rfl (htape c)
  | sreset m => exact absurd rfl (hreset m)
  | rdreg a =>
    obtain ⟨⟨-, hbufs, -⟩, -⟩ := rdregRun_frame a s
    exact hbufs
  | wrreg a =>
    obtain ⟨-, hbufs, -⟩ := wrregRun_frame a s
    exact hbufs
  | nop | read | readi | flut | sat => simp [effect, readRun, readiRun, flutRun, satRun]

/-! ## The buffers, one by one -/

/-- A buffer that one buffer's replacement leaves alone, or the replaced one. -/
theorem State.buf_setBuf_cases (s : State) (b b' : Nat) (B : Buffer) :
    (s.setBuf b B).buf b' = s.buf b' ∨ (b = b' ∧ (s.setBuf b B).buf b' = B) := by
  rw [State.buf_setBuf]
  split
  · rename_i h
    exact .inr ⟨h.1, rfl⟩
  · exact .inl rfl

/-- Everything a command can do to a Delay Buffer: nothing, one `BufWrite` to a sized one (R122), a clear (R126), a
SETSIZE within the physical depth (R120). -/
def bufferOutcome (i : Instr) (s : State) (b : Nat) (B : Buffer) : Prop :=
  B = s.buf b ∨ ((s.buf b).size ≠ 0 ∧ ∃ v, B = (s.buf b).push v) ∨ B = (s.buf b).clear ∨
    ∃ n, i = .setsize b n ∧ n ≠ 0 ∧ n ≤ s.physCap b ∧ B = (s.buf b).resize n

/-- One `BufWrite` to a sized buffer is one of the outcomes of every buffer. -/
theorem bufferOutcome_of_push {i : Instr} {s t : State} {b' : Nat} {v : Sample} (hs : (s.buf b').size ≠ 0)
    (ht : t.bufs = (s.setBuf b' ((s.buf b').push v)).bufs) (b : Nat) : bufferOutcome i s b (t.buf b) := by
  rw [State.buf_congr ht]
  obtain h | ⟨rfl, h⟩ := s.buf_setBuf_cases b' b ((s.buf b').push v)
  · exact .inl h
  · exact .inr (.inl ⟨hs, v, h⟩)

theorem effect_buf {i : Instr} {s : State} (hadm : admission i s = none) (b : Nat) :
    bufferOutcome i s b ((effect i s).buf b) := by
  cases i with
  | setsize b' n =>
    obtain ⟨-, hn, hcap⟩ := setsizeCheck_none.mp hadm
    rw [State.buf_congr (t := effect (.setsize b' n) s) (State.complete_bufs _)]
    obtain h | ⟨rfl, h⟩ := s.buf_setBuf_cases b' b ((s.buf b').resize n)
    · exact .inl h
    · exact .inr (.inr (.inr ⟨n, rfl, hn, hcap, h⟩))
  | write b' => exact bufferOutcome_of_push (writeCheck_none.mp hadm).2 (State.complete_bufs _) b
  | apf j =>
    have hsized := (apfCheck_none.mp hadm).2.1
    exact bufferOutcome_of_push (v := apfStored j s) hsized (by simp [effect, apfRun]) b
  | comb j =>
    have hsized := (combCheck_none.mp hadm).2.1
    exact bufferOutcome_of_push (v := combStored j s) hsized (by simp [effect, combRun]) b
  | tape c =>
    have hsized := (tapeCheck_none.mp hadm).2.1
    exact bufferOutcome_of_push (v := tapeStored c s) hsized (by simp [effect, tapeRun]) b
  | clear b' =>
    rw [State.buf_congr (t := effect (.clear b') s) (State.complete_bufs _)]
    obtain h | ⟨rfl, h⟩ := s.buf_setBuf_cases b' b (s.buf b').clear
    · exact .inl h
    · exact .inr (.inr (.inl h))
  | sreset m =>
    rw [State.buf_congr (t := effect (.sreset m) s) (State.complete_bufs _)]
    obtain h | h := resetGroups_buf m s b
    · exact .inl h
    · exact .inr (.inr (.inl h))
  | nop | read | readi | flut | sat | rdreg | wrreg =>
    exact .inl (State.buf_congr (effect_bufs (by simp) (by simp) (by simp) (by simp) (by simp) (by simp) (by simp) s) b)

/-- R20: no command but SETSIZE changes a size. -/
theorem effect_size {i : Instr} {s : State} (hsetsize : ∀ b n, i ≠ .setsize b n) (hadm : admission i s = none)
    (b : Nat) : ((effect i s).buf b).size = (s.buf b).size := by
  obtain h | ⟨-, v, h⟩ | h | ⟨n, hi, -⟩ := effect_buf hadm b
  · rw [h]
  · rw [h, Buffer.push_size]
  · rw [h, Buffer.clear_size]
  · exact absurd hi (hsetsize b n)

/-- Settles O21: a command that does not run writes the fault record at most; one that runs writes its own elements. -/
theorem writersOfEachElement : Obligations.WritersOfEachElement := by
  intro i s t h
  obtain ⟨⟨himpl, hbufs, hparams, hfilters, hdout⟩, hrecord⟩ | ⟨hadm, rfl⟩ := exec_frame h
  · refine ⟨fun _ => hparams, fun _ _ => by rw [hfilters], fun _ _ => by rw [hfilters],
      fun _ _ => by simp [hfilters], fun _ _ _ _ _ _ _ => hdout, fun _ b => by rw [State.buf_congr hbufs],
      fun _ _ _ _ _ _ _ => hbufs, hrecord, himpl⟩
  · obtain ⟨himpl, hrecord⟩ := effect_impl_record i s
    have hfilters := fun hreset => effect_filters (i := i) hreset s
    refine ⟨fun hi => effect_params hi s, fun hi hreset => ?_, fun hi hreset => ?_, fun hi hreset => ?_,
      fun hread hreadi hapf hcomb hflut htape hsat => effect_dout hread hreadi hapf hcomb hflut htape hsat s,
      fun hi b => effect_size hi hadm b,
      fun hsetsize hwrite hclear hapf hcomb htape hreset =>
        effect_bufs hsetsize hwrite hclear hapf hcomb htape hreset s,
      .inl hrecord, himpl⟩
    all_goals obtain ⟨hcombLast, htone, hoscillator⟩ := hfilters hreset
    · exact hcombLast hi
    · exact htone hi
    · exact hoscillator hi

end Sys2Proof.Machine

/-! # The oscillator's arithmetic stays in range (R75, R161, R163, R164) -/

namespace Sys2Proof.Machine.F32

open Sys2Proof

/-! ## Sums between zero and a sample -/

theorem isNaN_zero : isNaN zero = false := by decide

@[simp] theorem val_zero : val zero = 0 := by decide +kernel

theorem inRange_iff {lo hi v : Sample} :
    inRange lo hi v = true ↔
      isNaN lo = false ∧ isNaN hi = false ∧ isNaN v = false ∧ val lo ≤ val v ∧ val v ≤ val hi := by
  simp only [inRange, Bool.and_eq_true, le_iff]
  tauto

theorem inRange_zero_iff {hi v : Sample} :
    inRange zero hi v = true ↔ isNaN hi = false ∧ isNaN v = false ∧ 0 ≤ val v ∧ val v ≤ val hi := by
  simp [inRange_iff, isNaN_zero]

/-- A sample no larger in magnitude than a finite one is finite. -/
theorem isFinite_of_natAbs_val_le {a c : Sample} (h : (val a).natAbs ≤ (val c).natAbs) (hc : isFinite c = true) :
    isFinite a = true := by
  rw [natAbs_val, natAbs_val, mag_le_iff] at h
  rw [isFinite_iff] at hc ⊢
  exact lt_of_le_of_lt h hc

/-- A sample in a range with finite bounds is finite. -/
theorem isFinite_of_inRange {lo hi v : Sample} (h : inRange lo hi v = true) (hlo : isFinite lo = true)
    (hhi : isFinite hi = true) : isFinite v = true := by
  obtain ⟨-, -, -, hge, hle⟩ := inRange_iff.mp h
  obtain hneg | hpos := Int.le_total (val v) 0
  · exact isFinite_of_natAbs_val_le (by omega) hlo
  · exact isFinite_of_natAbs_val_le (by omega) hhi

/-- R75(b): a sum whose exact value lies between zero and a sample is rounded into that range. -/
theorem add_inRange_zero {q : Nat} {a b hi : Sample} (ha : isFinite a = true) (hb : isFinite b = true)
    (hhi : isNaN hi = false) (h0 : 0 ≤ val a + val b) (h1 : val a + val b ≤ val hi) :
    inRange zero hi (add q a b) = true := by
  rw [add_finite ha hb, inRange_zero_iff]
  split
  next h =>
    have hmk : ∀ sign, isNaN (mk sign 0) = false ∧ val (mk sign 0) = 0 := by decide +kernel
    obtain ⟨hnan, hval⟩ := hmk (neg a && neg b)
    exact ⟨hhi, hnan, hval.ge, by omega⟩
  next h =>
    have hsign : decide (val a + val b < 0) = false := decide_eq_false (by omega)
    have hmag : (val hi).natAbs = magOf (magBits hi) := by rw [natAbs_val, mag_eq]
    have hround : roundMag (val a + val b).natAbs 1 ≤ magBits hi :=
      roundMag_le_of_le one_pos ((isNaN_false_iff hi).mp hhi) (by omega)
    have hval : val (round false (val a + val b).natAbs 1) = magOf (roundMag (val a + val b).natAbs 1) := by
      simp [val_eq]
    have hle := magOf_le_iff.mpr hround
    rw [hsign, hval]
    exact ⟨hhi, isNaN_round _ _ _, by omega, by omega⟩

/-- A finite sample plus one that is no NaN is no NaN (R75(d)). -/
theorem isNaN_add_of_finite {q : Nat} {a b : Sample} (ha : isFinite a = true) (hb : isNaN b = false) :
    isNaN (add q a b) = false := by
  obtain ⟨hnan, hinf⟩ := finite_cases ha
  have hmk : ∀ sign, isNaN (mk sign 0) = false := by decide +kernel
  simp only [add, hnan, hb, hinf, Bool.or_self, Bool.false_eq_true, if_false]
  split
  · exact hb
  split
  · exact hmk _
  · exact isNaN_round _ _ _

end Sys2Proof.Machine.F32

namespace Sys2Proof.Machine

open Sys2Proof

/-! ## The phase and the modulated delay -/

/-- R163: a phase below `TWO_PI` advanced by a legal increment is at most 12.0. -/
theorem add_phase_inRange {phase inc : Sample} (q : Nat) (hphase : inRange F32.zero Config.twoPi phase = true)
    (hinc : inRange F32.zero Config.pi inc = true) :
    inRange F32.zero 0x41400000#32 (F32.add q phase inc) = true := by
  have hsum : F32.val Config.twoPi + F32.val Config.pi ≤ F32.val 0x41400000#32 := by decide +kernel
  have hfphase := F32.isFinite_of_inRange hphase (by decide) (by decide)
  have hfinc := F32.isFinite_of_inRange hinc (by decide) (by decide)
  obtain ⟨-, -, hphase0, hphase1⟩ := F32.inRange_zero_iff.mp hphase
  obtain ⟨-, -, hinc0, hinc1⟩ := F32.inRange_zero_iff.mp hinc
  exact F32.add_inRange_zero hfphase hfinc (by decide) (by omega) (by omega)

/-- R163: one subtraction of `TWO_PI` brings a phase from `[TWO_PI, 12.0]` to at most 6.0. -/
theorem sub_twoPi_inRange {p : Sample} (q : Nat) (hp : inRange F32.zero 0x41400000#32 p = true)
    (hge : F32.le Config.twoPi p = true) : inRange F32.zero 0x40C00000#32 (F32.sub q p Config.twoPi) = true := by
  have hwrap : F32.val 0x41400000#32 - F32.val Config.twoPi ≤ F32.val 0x40C00000#32 := by decide +kernel
  have hfp := F32.isFinite_of_inRange hp (by decide) (by decide)
  have hf2pi : F32.isFinite (F32.negate Config.twoPi) = true := by decide
  obtain ⟨-, -, hle⟩ := F32.le_iff.mp hge
  obtain ⟨-, -, -, hp12⟩ := F32.inRange_zero_iff.mp hp
  have hval := F32.val_negate Config.twoPi
  exact F32.add_inRange_zero hfp hf2pi (by decide) (by omega) (by omega)

/-- R163: the advanced phase stays in `[0, TWO_PI)`, because 6.0 is below `TWO_PI`. -/
theorem advancePhase_inRange {phase inc : Sample} (q : Nat) (h0 : F32.le F32.zero phase = true)
    (h1 : F32.lt phase Config.twoPi = true) (hinc : inRange F32.zero Config.pi inc = true) :
    F32.le F32.zero (advancePhase q phase inc) = true ∧ F32.lt (advancePhase q phase inc) Config.twoPi = true := by
  have hbelow : F32.val 0x40C00000#32 < F32.val Config.twoPi := by decide +kernel
  have hp := add_phase_inRange q (Bool.and_eq_true_iff.mpr ⟨h0, F32.le_of_lt h1⟩) hinc
  obtain ⟨hp0, -⟩ := Bool.and_eq_true_iff.mp hp
  simp only [advancePhase]
  split
  next hge =>
    have hw := sub_twoPi_inRange (q + 1) hp hge
    obtain ⟨-, hnan, -, hle⟩ := F32.inRange_zero_iff.mp hw
    exact ⟨(Bool.and_eq_true_iff.mp hw).1, F32.lt_iff.mpr ⟨hnan, by decide, by omega⟩⟩
  next hlt =>
    obtain ⟨-, hnan, -, -⟩ := F32.inRange_zero_iff.mp hp
    rw [F32.le_iff] at hlt
    have hn2pi : F32.isNaN Config.twoPi = false := by decide
    exact ⟨hp0, F32.lt_iff.mpr ⟨hnan, hn2pi, lt_of_not_ge fun hge => hlt ⟨hn2pi, hnan, hge⟩⟩⟩

/-- R161: `SIN` of a finite argument is finite, for both choices. -/
theorem isFinite_sinFn (c : Config.Choice) {p : Sample} (hp : F32.isFinite p = true) :
    F32.isFinite (sinFn c p) = true := by
  have hcanonical : F32.isFinite (canonicalValue p) = true := by
    unfold canonicalValue
    rw [(F32.finite_cases hp).1]
    split
    · contradiction
    split
    · decide
    · exact hp
  have hunit : F32.le F32.minusOne F32.one = true := by decide +kernel
  unfold sinFn
  simp only [hcanonical, if_true]
  split
  · decide
  · exact F32.isFinite_of_inRange (inRange_clampS hunit _) (by decide) (by decide)

/-- R164: with a finite phase and legal registers `MODDLY` is no NaN. -/
theorem flutDelay_not_nan {s : State} (hphase : F32.isFinite (flutPhaseNext s) = true)
    (hbase : F32.isFinite s.params.tapeBase = true) (hdepth : F32.isFinite s.params.flutDepth = true) :
    F32.isNaN (flutDelay s) = false := by
  unfold flutDelay
  rw [F32.mul_finite hdepth (isFinite_sinFn _ hphase)]
  exact F32.isNaN_add_of_finite hbase (F32.isNaN_round _ _ _)

end Sys2Proof.Machine

/-! # The state after reset, and the invariants that every step keeps (R25, R33, R41, R44, R50, R163, R164) -/

namespace Sys2Proof.Machine

open Sys2Proof

/-! ## Each invariant rests on its own elements -/

theorem State.ImplInv.congr {s t : State} (hs : s.ImplInv) (h : t.impl = s.impl) : t.ImplInv := by
  have hcap : ∀ b, t.physCap b = s.physCap b := fun b => by rw [State.physCap, h, State.physCap]
  intro b hb
  rw [hcap]
  exact hs b hb

theorem State.BufferInv.congr {s t : State} (hs : s.BufferInv) (himpl : t.impl = s.impl) (hbufs : t.bufs = s.bufs) :
    t.BufferInv := by
  intro b hb
  rw [State.buf_congr hbufs, State.physCap, himpl]
  exact hs b hb

theorem State.ParamInv.congr {s t : State} (hs : s.ParamInv) (h : t.params = s.params) : t.ParamInv := by
  unfold State.ParamInv State.apDelay State.combDelay State.combFb State.combDamp
  rw [h]
  exact hs

theorem State.PhaseInv.congr {s t : State} (hs : s.PhaseInv) (h : t.filters.flutPhase = s.filters.flutPhase) :
    t.PhaseInv := by
  rw [State.PhaseInv, h]
  exact hs

theorem State.ModDlyInv.congr {s t : State} (hs : s.ModDlyInv) (h : t.filters.modDly = s.filters.modDly) :
    t.ModDlyInv := by
  rw [State.ModDlyInv, h]
  exact hs

theorem State.RecordInv.congr {s t : State} (hs : s.RecordInv) (h : t.record = s.record) : t.RecordInv := by
  rw [State.RecordInv, h]
  exact hs

/-! ## The reset values (R50) -/

/-- Every buffer of a reset state is unsized. -/
theorem State.buf_of_reset {s : State} (h : s.bufs = State.reset.bufs) (b : Nat) : s.buf b = Buffer.reset := by
  rw [State.buf, h]
  exact (getD_replicate 15 b Buffer.reset Buffer.reset).trans (ite_self _)

/-- An indexed register that reset sets to what is read out of range reads so everywhere. -/
theorem getD_replicate_self {α : Type} (n i : Nat) (x : α) : (Vector.replicate n x).getD i x = x := by
  rw [getD_replicate, ite_self]

/-- Settles O18: indexed elements are replicated vectors, and the other elements are constants of `State.reset`. -/
theorem resetValues : Obligations.ResetValues := by
  have hbuf : ∀ b, State.reset.buf b = Buffer.reset := State.buf_of_reset rfl
  have hap : ∀ i, State.reset.apDelay i = 0 := fun i => getD_replicate_self 4 i 0
  have hcombDelay : ∀ j, State.reset.combDelay j = 0 := fun j => getD_replicate_self 8 j 0
  have hcombFb : ∀ j, State.reset.combFb j = 0#32 := fun j => getD_replicate_self 8 j 0#32
  have hcombDamp : ∀ j, State.reset.combDamp j = 0#32 := fun j => getD_replicate_self 8 j 0#32
  have hcombLast : ∀ j, State.reset.combLast j = 0#32 := fun j => getD_replicate_self 8 j 0#32
  have htone : ∀ c, State.reset.toneState c = 0#32 := fun c => getD_replicate_self 2 c 0#32
  refine ⟨fun b _ => by rw [hbuf]; exact ⟨rfl, rfl⟩, fun i _ => hap i,
    fun j _ => ⟨hcombDelay j, hcombFb j, hcombDamp j, hcombLast j⟩, rfl, rfl, rfl, rfl, rfl, rfl, rfl, rfl,
    fun c _ => htone c, rfl, rfl, rfl, rfl, rfl, by decide, rfl, fun _ _ => rfl⟩

/-! ## The invariants of a reset state -/

theorem Buffer.reset_inv (cap : Nat) : Buffer.reset.cursorInv cap ∧ Buffer.reset.memInv cap :=
  ⟨⟨Nat.zero_le _, fun _ => rfl, fun h => absurd rfl h⟩, Mem.wf_nil, fun _ h => absurd h List.not_mem_nil⟩

/-- R25: the reset values of the `RW` registers are legal. -/
theorem paramInv_reset : State.reset.ParamInv := by
  have hfb : inRange F32.zero Config.fbMax 0#32 = true := by decide +kernel
  have hpole : inRange F32.zero Config.poleMax 0#32 = true := by decide +kernel
  have hdelay : inRange F32.zero Config.dlyMax 0#32 = true := by decide +kernel
  have hinc : inRange F32.zero Config.pi 0#32 = true := by decide +kernel
  have hdrive : inRange Config.driveMin Config.driveMax 0x3F800000#32 = true := by decide +kernel
  obtain ⟨-, hap, hcomb, -⟩ := resetValues
  refine ⟨fun i hi => (hap i hi).trans_le (Nat.zero_le _), fun j hj => ?_, hdelay, hdelay, hinc, hpole, hfb, hdrive⟩
  obtain ⟨hd, hf, hp, -⟩ := hcomb j hj
  exact ⟨hd.trans_le (Nat.zero_le _), by rw [hf]; exact hfb, by rw [hp]; exact hpole⟩

/-- A state whose elements have their reset values meets the invariants, whatever admissible implementation it has. -/
theorem inv_of_reset_elements {s : State} (himpl : s.ImplInv) (hbufs : s.bufs = State.reset.bufs)
    (hparams : s.params = State.reset.params) (hfilters : s.filters = State.reset.filters)
    (hrecord : s.record = State.reset.record) : s.Inv where
  impl := himpl
  buffers b _ := by rw [State.buf_of_reset hbufs]; exact Buffer.reset_inv _
  params := paramInv_reset.congr hparams
  phase := by rw [State.PhaseInv, hfilters]; decide +kernel
  modDly := by rw [State.ModDlyInv, hfilters]; decide +kernel
  record := .inl hrecord

/-- Settles O39: `PHYSCAP` of the reset state is the largest admissible. -/
theorem resetMeetsInvariant : Obligations.ResetMeetsInvariant := by
  refine inv_of_reset_elements (fun b hb => ?_) rfl rfl rfl rfl
  have hcap : State.reset.physCap b = Config.u20Max := by
    simp [State.physCap, State.reset, getD_replicate, hb]
  rw [hcap]
  decide

/-! ## Being turned away keeps the invariants -/

/-- R33: each cause's word is one of the six that `STATUS` may hold. -/
theorem recordInv_of_statusWord {s : State} {c : Cause} (h : s.record.status = c.statusWord) : s.RecordInv :=
  .inr (h ▸ List.mem_map_of_mem (by cases c <;> decide))

theorem recordInv_raiseFault {s : State} (hs : s.RecordInv) (c : Cause) : (raiseFault c s).RecordInv := by
  obtain h | ⟨-, h⟩ := raiseFault_record_cases c s
  · exact hs.congr h
  · exact recordInv_of_statusWord (c := c) (by rw [h])

theorem inv_of_sameElements {s t : State} (hs : s.Inv) (h : sameElements s t) (hrecord : t.RecordInv) : t.Inv := by
  obtain ⟨himpl, hbufs, hparams, hfilters, -⟩ := h
  exact ⟨hs.impl.congr himpl, hs.buffers.congr himpl hbufs, hs.params.congr hparams,
    hs.phase.congr (by rw [hfilters]), hs.modDly.congr (by rw [hfilters]), hrecord⟩

/-- R223: what a request's pseudocode keeps, serving the request keeps. -/
theorem serve_keeps_inv {onP whenFaulted : Bool} {check : State → Option Cause} {run : State → State} {s : State}
    (hs : s.Inv) (hrun : check s = none → (run s).Inv) : (serve onP whenFaulted check run s).Inv := by
  obtain ⟨-, -, e⟩ | ⟨-, -, -, e⟩ | ⟨-, -, c, -, e⟩ | ⟨-, -, hc, e⟩ := serve_cases onP whenFaulted check run s
  all_goals rw [e]
  · exact inv_of_sameElements hs (by simp [sameElements]) (hs.record.congr (deny_record s))
  · exact inv_of_sameElements hs (by simp [sameElements]) (hs.record.congr (refuse_record s))
  · exact inv_of_sameElements hs (by simp [sameElements]) (recordInv_raiseFault hs.record c)
  · exact hrun hc

/-! ## The pseudocode of every command keeps the invariants -/

/-- R41: a buffer in range stays in range, whatever a command does to it. -/
theorem bufferOutcome_inv {i : Instr} {s : State} {b : Nat} {B : Buffer} (h : bufferOutcome i s b B)
    (hs : (s.buf b).cursorInv (s.physCap b) ∧ (s.buf b).memInv (s.physCap b)) :
    B.cursorInv (s.physCap b) ∧ B.memInv (s.physCap b) := by
  obtain ⟨hcursor, hmem⟩ := hs
  obtain rfl | ⟨hsized, v, rfl⟩ | rfl | ⟨n, -, hn, hcap, rfl⟩ := h
  · exact ⟨hcursor, hmem⟩
  · have ⟨hsize, _, hcur⟩ := hcursor
    exact ⟨Buffer.cursorInv_push v hcursor hsized, Buffer.memInv_push v hmem ((hcur hsized).trans_le hsize)⟩
  · exact ⟨Buffer.cursorInv_clear hcursor, Buffer.memInv_clear hmem⟩
  · exact ⟨⟨hcap, fun h0 => absurd h0 hn, fun _ => Nat.pos_of_ne_zero hn⟩, Buffer.memInv_resize n hmem⟩

/-- What holds of every element and of the value written holds of every element after the write. -/
theorem forall_getD_setIfInBounds {α : Type} {n : Nat} {P : α → Prop} {v : Vector α n} {d x : α} {i m : Nat}
    (hv : ∀ j < m, P (v.getD j d)) (hx : P x) : ∀ j < m, P ((v.setIfInBounds i x).getD j d) := by
  intro j hj
  rw [getD_setIfInBounds]
  split
  · exact hx
  · exact hv j hj

/-- R25, R193: a register write leaves every `RW` register legal. -/
theorem paramInv_writeReg {s : State} (hs : s.ParamInv) (r : Reg) (w : Word) : (s.writeReg r w).ParamInv := by
  obtain ⟨hap, hcomb, hbase, hdepth, hinc, htone, hfb, hdrive⟩ := hs
  have hcombDelay : ∀ j < 8, s.combDelay j ≤ Config.u20Max := fun j hj => (hcomb j hj).1
  have hcombFb : ∀ j < 8, inRange F32.zero Config.fbMax (s.combFb j) = true := fun j hj => (hcomb j hj).2.1
  have hcombDamp : ∀ j < 8, inRange F32.zero Config.poleMax (s.combDamp j) = true := fun j hj => (hcomb j hj).2.2
  cases r with
  | apDelay i =>
    exact ⟨forall_getD_setIfInBounds (P := (· ≤ Config.u20Max)) hap (clampI_le w), hcomb, hbase, hdepth, hinc, htone,
      hfb, hdrive⟩
  | combDelay i =>
    have h := forall_getD_setIfInBounds (P := (· ≤ Config.u20Max)) (i := i) hcombDelay (clampI_le w)
    exact ⟨hap, fun j hj => ⟨h j hj, hcombFb j hj, hcombDamp j hj⟩, hbase, hdepth, hinc, htone, hfb, hdrive⟩
  | combFb i =>
    have h := forall_getD_setIfInBounds (P := (inRange F32.zero Config.fbMax · = true)) (i := i) hcombFb
      (inRange_clampS zero_le_fbMax w)
    exact ⟨hap, fun j hj => ⟨hcombDelay j hj, h j hj, hcombDamp j hj⟩, hbase, hdepth, hinc, htone, hfb, hdrive⟩
  | combDamp i =>
    have h := forall_getD_setIfInBounds (P := (inRange F32.zero Config.poleMax · = true)) (i := i) hcombDamp
      (inRange_clampS zero_le_poleMax w)
    exact ⟨hap, fun j hj => ⟨hcombDelay j hj, hcombFb j hj, h j hj⟩, hbase, hdepth, hinc, htone, hfb, hdrive⟩
  | tapeBase => exact ⟨hap, hcomb, inRange_clampS zero_le_dlyMax w, hdepth, hinc, htone, hfb, hdrive⟩
  | flutDepth => exact ⟨hap, hcomb, hbase, inRange_clampS zero_le_dlyMax w, hinc, htone, hfb, hdrive⟩
  | flutInc => exact ⟨hap, hcomb, hbase, hdepth, inRange_clampS zero_le_pi w, htone, hfb, hdrive⟩
  | tapeTone => exact ⟨hap, hcomb, hbase, hdepth, hinc, inRange_clampS zero_le_poleMax w, hfb, hdrive⟩
  | tapeFb => exact ⟨hap, hcomb, hbase, hdepth, hinc, htone, inRange_clampS zero_le_fbMax w, hdrive⟩
  | tapeDrive => exact ⟨hap, hcomb, hbase, hdepth, hinc, htone, hfb, inRange_clampS driveMin_le_driveMax w⟩
  | _ => exact ⟨hap, hcomb, hbase, hdepth, hinc, htone, hfb, hdrive⟩

theorem effect_keeps_paramInv {s : State} (hs : s.ParamInv) (i : Instr) : (effect i s).ParamInv := by
  by_cases hi : ∃ a, i = .wrreg a
  · obtain ⟨a, rfl⟩ := hi
    show (wrregRun a s).ParamInv
    unfold wrregRun
    split
    · exact (paramInv_writeReg hs _ _).congr (State.complete_params _)
    · exact hs
  · exact hs.congr (effect_params (not_exists.mp hi) s)

/-- R163, R164: `FLUT` keeps the phase in range and `MODDLY` no NaN, where the registers are legal. -/
theorem flutRun_oscillator {s : State} (hphase : s.PhaseInv) (hparams : s.ParamInv) :
    (flutRun s).PhaseInv ∧ (flutRun s).ModDlyInv := by
  obtain ⟨-, -, hbase, hdepth, hinc, -⟩ := hparams
  have hfilters : (flutRun s).filters = { s.filters with flutPhase := flutPhaseNext s, modDly := flutDelay s } := by
    simp [flutRun]
  have hnext : F32.le F32.zero (flutPhaseNext s) = true ∧ F32.lt (flutPhaseNext s) Config.twoPi = true :=
    advancePhase_inRange s.draws hphase.1 hphase.2 hinc
  have hfinite : F32.isFinite (flutPhaseNext s) = true :=
    F32.isFinite_of_inRange (Bool.and_eq_true_iff.mpr ⟨hnext.1, F32.le_of_lt hnext.2⟩) (by decide) (by decide)
  rw [State.PhaseInv, State.ModDlyInv, hfilters]
  exact ⟨hnext, flutDelay_not_nan hfinite (F32.isFinite_of_inRange hbase (by decide) (by decide))
    (F32.isFinite_of_inRange hdepth (by decide) (by decide))⟩

theorem effect_keeps_oscillator {s : State} (hs : s.Inv) (i : Instr) :
    (effect i s).PhaseInv ∧ (effect i s).ModDlyInv := by
  by_cases hflut : i = .flut
  · subst hflut
    exact flutRun_oscillator hs.phase hs.params
  by_cases hreset : ∃ m, i = .sreset m
  · obtain ⟨m, rfl⟩ := hreset
    obtain ⟨bufs, filters, h, hphase, hmod⟩ := resetGroups_frame m s
    have hfilters : (effect (.sreset m) s).filters = filters := by simp [effect, h]
    constructor
    · obtain e | e := hphase
      · exact hs.phase.congr (by rw [hfilters, e])
      · rw [State.PhaseInv, hfilters, e]
        decide +kernel
    · obtain e | e := hmod
      · exact hs.modDly.congr (by rw [hfilters, e])
      · rw [State.ModDlyInv, hfilters, e]
        decide
  · obtain ⟨-, -, h⟩ := effect_filters (not_exists.mp hreset) s
    obtain ⟨hphase, hmod⟩ := h hflut
    exact ⟨hs.phase.congr hphase, hs.modDly.congr hmod⟩

theorem effect_keeps_inv {i : Instr} {s : State} (hs : s.Inv) (hadm : admission i s = none) : (effect i s).Inv := by
  obtain ⟨himpl, hrecord⟩ := effect_impl_record i s
  obtain ⟨hphase, hmodDly⟩ := effect_keeps_oscillator hs i
  refine ⟨hs.impl.congr himpl, fun b hb => ?_, effect_keeps_paramInv hs.params i, hphase, hmodDly,
    hs.record.congr hrecord⟩
  have hcap : (effect i s).physCap b = s.physCap b := by rw [State.physCap, himpl, State.physCap]
  rw [hcap]
  exact bufferOutcome_inv (effect_buf hadm b) (hs.buffers b hb)

/-! ## Every step keeps the invariants -/

theorem take_keeps_inv {s : State} (hs : s.Inv) (p : Port) : (s.take p).Inv := by
  obtain ⟨_, _, _, _, _, h⟩ := s.take_frame p
  rw [h]
  exact ⟨hs.impl, hs.buffers, hs.params, hs.phase, hs.modDly, hs.record⟩

theorem execRequest_keeps_inv {s t : State} (hs : s.Inv) (h : execRequest s = .next t) : t.Inv := by
  cases hd : decode s.req.word with
  | ok i =>
    rw [execRequest_of_decode hd, exec_eq_serve] at h
    cases h
    exact serve_keeps_inv hs (effect_keeps_inv hs)
  | error e =>
    rw [execRequest_of_illegal hd] at h
    cases h
    exact serve_keeps_inv hs fun _ => hs

/-- Settles O40: a reset sets every element, an idle step changes nothing, and a request is taken and served. -/
theorem stepKeepsInvariant : Obligations.StepKeepsInvariant := by
  intro s t hs h
  cases hr : s.resetLine with
  | true =>
    rw [step_of_resetLine hr] at h
    cases h
    exact inv_of_reset_elements hs.impl rfl rfl rfl rfl
  | false =>
    cases hg : s.grant with
    | none =>
      rw [step_of_idle hr hg] at h
      cases h
      exact hs
    | some p =>
      rw [step_of_grant hr hg] at h
      exact execRequest_keeps_inv (take_keeps_inv hs p) h

end Sys2Proof.Machine

/-! # The special operands, and sums that need no rounding (R75(c), R75(d), R75(g)) -/

namespace Sys2Proof.Machine.F32

open Sys2Proof

/-! ## Signed zeros -/

theorem isZero_mk_zero (sign : Bool) : isZero (mk sign 0) = true := by
  rw [isZero_iff, magBits_mk sign (by decide)]

/-- A zero is finite and its value is 0. -/
theorem zero_facts {z : Sample} (h : isZero z = true) : isFinite z = true ∧ mag z = 0 ∧ val z = 0 := by
  have hm := (isZero_iff z).mp h
  have hmag : mag z = 0 := mag_eq_zero_iff.mpr hm
  refine ⟨?_, hmag, ?_⟩
  · rw [isFinite_iff, hm]
    decide
  · rw [← Int.natAbs_eq_zero, natAbs_val, hmag]

theorem isNaN_of_isInf {x : Sample} (h : isInf x = true) : isNaN x = false := by
  rw [isNaN_false_iff, (isInf_iff x).mp h]

theorem val_eq_zero_iff {x : Sample} : val x = 0 ↔ isZero x = true := by
  rw [← Int.natAbs_eq_zero, natAbs_val, mag_eq_zero_iff, isZero_iff]

/-! ## An exact result that is a sample is the result -/

/-- A sample that is no NaN is its own magnitude rounded. -/
theorem round_mag_self {c : Sample} (h : isNaN c = false) : round (neg c) (mag c) 1 = c := by
  apply eq_of_neg_magBits (neg_round _ _ _)
  have hexact := roundMag_exact (m := magBits c) one_pos ((isNaN_false_iff c).mp h)
  rwa [magBits_round, mag_eq, ← Nat.mul_one (magOf (magBits c))]

/-- R75(b): a sum whose exact value is that of a nonzero sample is that sample. -/
theorem add_eq_of_val_eq {q : Nat} {a b c : Sample} (ha : isFinite a = true) (hb : isFinite b = true)
    (hc : isNaN c = false) (h0 : val c ≠ 0) (h : val a + val b = val c) : add q a b = c := by
  have hsign : decide (val c < 0) = neg c := by
    rw [Bool.eq_iff_iff, decide_eq_true_iff]
    exact val_neg_iff h0
  rw [add_finite ha hb, h, if_neg h0, hsign, natAbs_val, round_mag_self hc]

/-- R75(c): an exact zero sum is a zero, `-0` only where both operands are negative. -/
theorem add_eq_zero {q : Nat} {a b : Sample} (ha : isFinite a = true) (hb : isFinite b = true)
    (h : val a + val b = 0) : add q a b = mk (neg a && neg b) 0 := by
  rw [add_finite ha hb, if_pos h]

/-- A sum whose exact value is that of a sample has that value. -/
theorem val_add_of_val_eq {q : Nat} {a b c : Sample} (ha : isFinite a = true) (hb : isFinite b = true)
    (hc : isNaN c = false) (h : val a + val b = val c) : val (add q a b) = val c := by
  by_cases h0 : val c = 0
  · rw [add_eq_zero ha hb (h.trans h0), h0, val_eq_zero_iff]
    exact isZero_mk_zero _
  · rw [add_eq_of_val_eq ha hb hc h0 h]

/-! ## NaN operands (R75(d)) -/

theorem isNaN_of_operand {q : Nat} {a b : Sample} (h : isNaN a = true ∨ isNaN b = true) :
    isNaN (add q a b) = true ∧ isNaN (sub q a b) = true ∧ isNaN (mul q a b) = true ∧ isNaN (div q a b) = true := by
  have hor : (isNaN a || isNaN b) = true := by simpa using h
  simp [add, sub, mul, div, hor]

/-! ## Zeros and infinities (R75(c), R75(d)) -/

/-- A zero added to a nonzero operand changes no bit of it, an infinity included. -/
theorem add_zero_of_nonzero {q : Nat} {x z : Sample} (hx : isNaN x = false) (hx0 : isZero x = false)
    (hz : isZero z = true) : add q x z = x := by
  obtain ⟨hzfin, -, hzval⟩ := zero_facts hz
  obtain ⟨hznan, hzinf⟩ := finite_cases hzfin
  obtain hinf | hfin := inf_or_finite hx
  · simp [add, hx, hznan, hinf, hzinf]
  · have h0 : val x ≠ 0 := by
      rw [Ne, val_eq_zero_iff, hx0]
      decide
    exact add_eq_of_val_eq hfin hzfin hx h0 (by rw [hzval, add_zero])

theorem sub_self_of_finite {q : Nat} {x : Sample} (h : isFinite x = true) : sub q x x = 0x00000000#32 := by
  have hzero : val x + val (negate x) = 0 := by rw [val_negate, add_neg_cancel]
  rw [sub, add_eq_zero h ((isFinite_negate x).trans h) hzero, neg_negate, Bool.and_not_self]
  decide

theorem mul_zero_of_finite {q : Nat} {z x : Sample} (hz : isZero z = true) (hx : isFinite x = true) :
    mul q z x = mk (neg z != neg x) 0 := by
  obtain ⟨hzfin, hzmag, -⟩ := zero_facts hz
  rw [mul_finite hzfin hx, hzmag, Nat.zero_mul, round, roundMag_zero (Nat.two_pow_pos 149)]

theorem isNaN_mul_zero_inf {q : Nat} {z x : Sample} (hz : isZero z = true) (hx : isInf x = true) :
    isNaN (mul q z x) = true := by
  simp [mul, hz, hx, isNaN_of_isInf hx, finite_cases (zero_facts hz).1]

theorem isNaN_sub_inf_self {q : Nat} {x : Sample} (h : isInf x = true) : isNaN (sub q x x) = true := by
  simp [sub, add, h, isNaN_of_isInf h]

theorem isNaN_div_inf_self {q : Nat} {x : Sample} (h : isInf x = true) : isNaN (div q x x) = true := by
  simp [div, h, isNaN_of_isInf h]

theorem isNaN_div_zero_zero {q : Nat} {x z : Sample} (hx : isZero x = true) (hz : isZero z = true) :
    isNaN (div q x z) = true := by
  simp [div, hx, hz, finite_cases (zero_facts hx).1, finite_cases (zero_facts hz).1]

/-- Settles O54: one lemma above for each kind of special operand. -/
theorem specialOperands : Obligations.SpecialOperands := by
  intro q x y z
  refine ⟨fun hx => ?_, add_zero_of_nonzero, ?_, ?_, sub_self_of_finite, fun hz hx => ?_, isNaN_mul_zero_inf,
    fun hx => ⟨isNaN_sub_inf_self hx, isNaN_div_inf_self hx⟩, isNaN_div_zero_zero⟩
  · obtain ⟨hadd, hsub, hmul, hdiv⟩ := isNaN_of_operand (q := q) (b := y) (.inl hx)
    obtain ⟨hadd', hsub', hmul', hdiv'⟩ := isNaN_of_operand (q := q) (a := y) (.inr hx)
    exact ⟨hadd, hadd', hsub, hsub', hmul, hmul', hdiv, hdiv'⟩
  · rw [add_eq_zero (by decide) (by decide) (by decide +kernel)]
    decide
  · rw [add_eq_zero (by decide) (by decide) (by decide +kernel)]
    decide
  · rw [mul_zero_of_finite hz hx]
    exact ⟨isZero_mk_zero _, neg_mk _ (by decide)⟩

/-! ## Integers and the fraction of a delay (R75(g)) -/

/-- A finite magnitude is a significand of 24 bits, shifted. -/
theorem mag_eq_significand (a : Sample) : ∃ k e, k < 2 ^ 24 ∧ mag a = k * 2 ^ e := by
  have hfrac : frac a < 2 ^ 23 := Nat.mod_lt _ (by decide)
  unfold mag
  split
  · exact ⟨frac a, 0, by omega, by simp⟩
  · exact ⟨2 ^ 23 + frac a, expo a - 1, by omega, rfl⟩

/-- Every significand of 24 bits, shifted, is a magnitude: one that is too short is first shifted up. -/
theorem exists_magOf_eq {k : Nat} (e : Nat) (hk : k < 2 ^ 24) : ∃ m, magOf m = k * 2 ^ e := by
  induction e generalizing k with
  | zero => exact ⟨_, magOf_binade hk.le (.inl rfl)⟩
  | succ e ih =>
    obtain hshort | hfull := Nat.lt_or_ge k (2 ^ 23)
    · obtain ⟨m, hm⟩ := ih (k := 2 * k) (by omega)
      exact ⟨m, by rw [hm]; ring⟩
    · exact ⟨_, magOf_binade hk.le (.inr hfull)⟩

/-- R75(a): every significand of 24 bits, shifted, is the value of a finite sample where it does not overflow. -/
theorem exists_sample_of_significand {k e : Nat} (hk : k < 2 ^ 24) (hlt : k * 2 ^ e < magOf infBits) :
    ∃ c, isFinite c = true ∧ neg c = false ∧ mag c = k * 2 ^ e := by
  obtain ⟨m, hm⟩ := exists_magOf_eq e hk
  have hfin : m < infBits := magOf_lt_iff.mp (hm ▸ hlt)
  have hbits : m < 2 ^ 31 := hfin.trans (by decide)
  refine ⟨mk false m, ?_, neg_mk _ hbits, ?_⟩
  · rwa [isFinite_iff, magBits_mk _ hbits]
  · rw [mag_eq, magBits_mk _ hbits, hm]

theorem mag_lt_of_finite {a : Sample} (h : isFinite a = true) : mag a < magOf infBits := by
  rw [mag_eq, magOf_lt_iff]
  exact (isFinite_iff a).mp h

theorem val_of_not_neg {a : Sample} (h : neg a = false) : val a = mag a := by
  simp [val, h]

/-- `toS` of an integer that a data word can hold is exact (R75(g)). -/
theorem toS_exact {n : Nat} (hn : n ≤ Config.u20Max) :
    isFinite (toS n) = true ∧ val (toS n) = (n : Int) * 2 ^ 149 := by
  have hlt : n * 2 ^ 149 < magOf infBits :=
    (Nat.mul_le_mul_right _ hn).trans_lt (by decide +kernel)
  obtain ⟨c, hfin, hneg, hmag⟩ := exists_sample_of_significand (by unfold Config.u20Max at hn; omega) hlt
  have hc : toS n = c := by
    rw [toS, ← hmag, ← hneg]
    exact round_mag_self (finite_cases hfin).1
  rw [hc, val_of_not_neg hneg, hmag]
  exact ⟨hfin, by push_cast; rfl⟩

/-- The low part of a shifted significand is a shorter significand with the same shift. -/
theorem significand_mod (k e u : Nat) : ∃ k' ≤ k, k * 2 ^ e % 2 ^ u = k' * 2 ^ e := by
  obtain h | h := Nat.le_total e u
  · refine ⟨k % 2 ^ (u - e), Nat.mod_le _ _, ?_⟩
    rw [← Nat.mul_mod_mul_right, ← Nat.pow_add, Nat.sub_add_cancel h]
  · refine ⟨0, Nat.zero_le _, ?_⟩
    rw [Nat.zero_mul]
    exact Nat.mod_eq_zero_of_dvd ((pow_dvd_pow 2 h).mul_left k)

/-- R75(g): the part of a sample below the unit of integers is itself a sample. -/
theorem exists_sample_of_fraction {a : Sample} (h : isFinite a = true) :
    ∃ c, isFinite c = true ∧ neg c = false ∧ mag c = mag a % 2 ^ 149 := by
  obtain ⟨k, e, hk, hmag⟩ := mag_eq_significand a
  obtain ⟨k', hle, hmod⟩ := significand_mod k e 149
  have hlt := (Nat.mod_le (mag a) (2 ^ 149)).trans_lt (mag_lt_of_finite h)
  rw [hmag, hmod] at hlt ⊢
  exact exists_sample_of_significand (hle.trans_lt hk) hlt

/-- A delay in `[0, DLY_MAX]` is finite, its value is its magnitude, and its integer part fits 20 bits. -/
theorem delay_facts {a : Sample} (h : inRange zero Config.dlyMax a = true) :
    isFinite a = true ∧ val a = mag a ∧ floor a ≤ Config.u20Max := by
  have hfin := isFinite_of_inRange h (by decide) (by decide)
  obtain ⟨-, -, h0, h1⟩ := inRange_zero_iff.mp h
  have habs := natAbs_val a
  have hmax : val Config.dlyMax = 1048575 * 2 ^ 149 := by decide +kernel
  refine ⟨hfin, by omega, ?_⟩
  unfold floor Config.u20Max
  omega

/-- R75(g): the subtraction of the integer part is exact. -/
theorem val_sub_floor {q : Nat} {a : Sample} (h : inRange zero Config.dlyMax a = true) :
    val (sub q a (toS (floor a))) = val a - (floor a : Int) * 2 ^ 149 := by
  obtain ⟨hfin, hval, hfloor⟩ := delay_facts h
  obtain ⟨hSfin, hSval⟩ := toS_exact hfloor
  obtain ⟨c, hcfin, hcneg, hcmag⟩ := exists_sample_of_fraction hfin
  have hcval : val c = val a - (floor a : Int) * 2 ^ 149 := by
    have hdiv := Nat.div_add_mod (mag a) (2 ^ 149)
    rw [val_of_not_neg hcneg, hcmag, hval]
    unfold floor
    omega
  rw [← hcval]
  refine val_add_of_val_eq hfin ((isFinite_negate _).trans hSfin) (finite_cases hcfin).1 ?_
  rw [val_negate, hSval, hcval, Int.sub_eq_add_neg]

/-- Settles O55: integers of 20 bits and the fractions of a delay are samples, so that neither is rounded. -/
theorem fractionIsExact : Obligations.FractionIsExact := by
  refine ⟨fun n hn => (toS_exact hn).2, fun q a h0 h1 => ?_⟩
  have h : inRange zero Config.dlyMax a = true := Bool.and_eq_true_iff.mpr ⟨h0, h1⟩
  obtain ⟨-, hval, -⟩ := delay_facts h
  refine ⟨?_, val_sub_floor h⟩
  rw [hval]
  unfold floor
  omega

end Sys2Proof.Machine.F32

/-! # What the control thread can reach, and every merge of the two ports (R71, R221) -/

namespace Sys2Proof.Machine

open Sys2Proof

/-! ## A request on port `P` reaches only the parameters (R221) -/

/-- What a request on port `P` leaves as it was: every element of R20 but the parameters, the draw counter and port `C`. -/
abbrev sameButParameters (s t : State) : Prop :=
  t.bufs = s.bufs ∧ t.filters = s.filters ∧ t.dout = s.dout ∧ t.record = s.record ∧ t.draws = s.draws ∧
  t.portC = s.portC

/-- R15: a response on port `P` leaves port `C` alone. -/
theorem State.respond_portC_of_portP {s : State} (h : s.req.port = .P) (st : RespStatus) (q : Word) :
    (s.respond st q).portC = s.portC :=
  s.respond_queue_ne st q (p := .C) (by simp [h])

theorem sameButParameters_respond {s : State} (h : s.req.port = .P) (st : RespStatus) (q : Word) :
    sameButParameters s (s.respond st q) := by
  simp [sameButParameters, State.respond_portC_of_portP h]

/-- R221: the commands that port `P` may use, which have passed their checks by being permitted. -/
theorem permittedOnPortP_cases {i : Instr} (h : permittedOnPortP i = true) (s : State) :
    admission i s = none ∧ ((∃ a, i = .rdreg a) ∨ ∃ a, i = .wrreg a) := by
  cases i with
  | rdreg a => exact ⟨(rdregCheck_none (s := s)).mpr h, .inl ⟨a, rfl⟩⟩
  | wrreg a => exact ⟨(wrregCheck_none (s := s)).mpr h, .inr ⟨a, rfl⟩⟩
  | _ => cases h

theorem rdregRun_sameButParameters {s : State} (h : s.req.port = .P) (a : Nat) :
    sameButParameters s (rdregRun a s) := by
  unfold rdregRun
  split
  · exact sameButParameters_respond h _ _
  · simp [sameButParameters]

theorem wrregRun_sameButParameters {s : State} (h : s.req.port = .P) (a : Nat) :
    sameButParameters s (wrregRun a s) := by
  unfold wrregRun
  split
  · next r _ => exact sameButParameters_respond (s := s.writeReg r s.dataWord) h _ _
  · simp [sameButParameters]

theorem effect_sameButParameters {i : Instr} {s : State} (h : s.req.port = .P) (hi : permittedOnPortP i = true) :
    sameButParameters s (effect i s) := by
  obtain ⟨-, ⟨a, rfl⟩ | ⟨a, rfl⟩⟩ := permittedOnPortP_cases hi s
  · exact rdregRun_sameButParameters h a
  · exact wrregRun_sameButParameters h a

/-- R221, R223: on port `P` a command is denied, or refused, or it is a register access; it raises no fault. -/
theorem serve_sameButParameters {i : Instr} {s : State} (h : s.req.port = .P) :
    sameButParameters s (serve (permittedOnPortP i) (runsWhenFaulted i) (admission i) (effect i) s) := by
  cases hi : permittedOnPortP i with
  | false =>
    rw [serve_denied h rfl]
    exact sameButParameters_respond h _ _
  | true =>
    obtain ⟨-, hbad, -⟩ | ⟨-, -, -, e⟩ | ⟨-, -, c, hc, -⟩ | ⟨-, -, -, e⟩ :=
      serve_cases true (runsWhenFaulted i) (admission i) (effect i) s
    · cases hbad
    · rw [e]
      exact sameButParameters_respond h _ _
    · rw [(permittedOnPortP_cases hi s).1] at hc
      cases hc
    · rw [e]
      exact effect_sameButParameters h hi

/-- Settles O16: an illegal word on port `P` is denied, and a command is served there as said above. -/
theorem portPReachesOnlyParameters : Obligations.PortPReachesOnlyParameters := by
  intro s t hp h
  cases hd : decode s.req.word with
  | ok i =>
    rw [execRequest_of_decode hd, exec_eq_serve] at h
    cases h
    exact serve_sameButParameters hp
  | error e =>
    rw [execRequest_of_illegal hd, illegalCommand, serve_denied hp rfl] at h
    cases h
    exact sameButParameters_respond hp _ _

/-! ## Executing a request keeps the schedule and the reset line -/

theorem resetGroups_setting (m : Nat) (s : State) :
    (resetGroups m s).sched = s.sched ∧ (resetGroups m s).resetLine = s.resetLine := by
  obtain ⟨_, _, h, -⟩ := resetGroups_frame m s
  rw [h]
  exact ⟨rfl, rfl⟩

theorem effect_setting (i : Instr) (s : State) :
    (effect i s).sched = s.sched ∧ (effect i s).resetLine = s.resetLine := by
  cases i with
  | rdreg a =>
    show (rdregRun a s).sched = _ ∧ (rdregRun a s).resetLine = _
    unfold rdregRun
    split <;> simp
  | wrreg a =>
    show (wrregRun a s).sched = _ ∧ (wrregRun a s).resetLine = _
    unfold wrregRun
    split <;> simp
  | sreset m => simpa [effect] using resetGroups_setting m s
  | _ => simp [effect, setsizeRun, writeRun, readRun, readiRun, clearRun, apfRun, combRun, flutRun, tapeRun, satRun]

theorem serve_setting {onP whenFaulted : Bool} {check : State → Option Cause} {run : State → State} {s : State}
    (h : (run s).sched = s.sched ∧ (run s).resetLine = s.resetLine) :
    (serve onP whenFaulted check run s).sched = s.sched ∧
      (serve onP whenFaulted check run s).resetLine = s.resetLine := by
  obtain ⟨-, -, e⟩ | ⟨-, -, -, e⟩ | ⟨-, -, c, -, e⟩ | ⟨-, -, -, e⟩ := serve_cases onP whenFaulted check run s
  all_goals rw [e]
  · simp
  · simp
  · simp
  · exact h

theorem execRequest_setting {s t : State} (h : execRequest s = .next t) :
    t.sched = s.sched ∧ t.resetLine = s.resetLine := by
  cases hd : decode s.req.word with
  | ok i =>
    rw [execRequest_of_decode hd, exec_eq_serve] at h
    cases h
    exact serve_setting (effect_setting i s)
  | error e =>
    rw [execRequest_of_illegal hd] at h
    cases h
    exact serve_setting ⟨rfl, rfl⟩

/-! ## The arbiter follows the schedule (R71) -/

theorem State.contended_iff (s : State) : s.contended = true ↔ ∀ p, (s.queue p).pending ≠ [] := by
  have hboth : s.contended = true ↔ s.portC.pending ≠ [] ∧ s.portP.pending ≠ [] := by simp [State.contended]
  rw [hboth]
  constructor
  · rintro ⟨hC, hP⟩ p
    cases p with
    | C => exact hC
    | P => exact hP
  · intro h
    exact ⟨h .C, h .P⟩

/-- A port with a request is granted where it is the only one or the schedule names it next. -/
theorem State.grant_of_pending {s : State} {p : Port} (h : (s.queue p).pending ≠ [])
    (hsched : s.contended = true → s.sched.head? = some p) : s.grant = some p := by
  unfold State.grant
  split
  next hC hP => cases p with
    | C => exact absurd hC h
    | P => exact absurd hP h
  next hC hP => cases p with
    | C => rfl
    | P => exact absurd hP h
  next hC hP => cases p with
    | C => exact absurd hC h
    | P => rfl
  next hC hP =>
    obtain ⟨rest, hrest⟩ := List.head?_eq_some_iff.mp (hsched (by simp [State.contended, hC, hP]))
    simp [State.arbitrate, hrest]

/-- An arbitration uses up the schedule's next entry (R71). -/
theorem State.take_sched {s : State} (h : s.contended = true) (p : Port) : (s.take p).sched = s.sched.tail := by
  have hspend : s.spendChoice.sched = s.sched.tail := by
    unfold State.spendChoice
    split
    next hs => rw [hs, List.tail_cons]
    next hs => rw [hs, List.tail_nil]
  unfold State.take
  rw [if_pos h]
  split <;> exact hspend

/-! ## The run of a schedule (R71) -/

/-- `order` is a merge of the waiting requests, and where the ports are contended the schedule is that merge. Where only
one port waits the schedule is not asked. -/
structure State.Scheduled (s : State) (order : List Port) : Prop where
  released : s.resetLine = false
  merge : ∀ p, order.count p = (s.queue p).pending.length
  sched : s.contended = true → s.sched = order

/-- The port granted is the one the merge names next. -/
theorem State.Scheduled.grant {s : State} {order : List Port} (h : s.Scheduled order) : s.grant = order.head? := by
  cases order with
  | nil =>
    have hidle : ∀ p, (s.queue p).pending = [] := fun p => List.length_eq_zero_iff.mp (h.merge p).symm
    exact State.grant_of_idle (hidle .C) (hidle .P)
  | cons p rest =>
    refine State.grant_of_pending (fun hp => ?_) fun hc => by rw [h.sched hc]; rfl
    have hcount := h.merge p
    rw [hp, List.count_cons_self] at hcount
    cases hcount

/-- One step takes the oldest request of the port that the merge names, and the rest of the merge remains. -/
theorem State.Scheduled.step_next {s : State} {p : Port} {rest : List Port} (h : s.Scheduled (p :: rest)) :
    ∃ t, step s = .next t ∧ t.Scheduled rest ∧
      ∀ p', (t.queue p').pending = (s.queue p').pending.drop ([p].count p') := by
  have hgrant : s.grant = some p := h.grant
  obtain ⟨t, r, hstep, hself, -, hother⟩ := everyRequestOneResponse s p h.released hgrant
  obtain ⟨hsched, hreset⟩ := execRequest_setting ((step_of_grant h.released hgrant).symm.trans hstep)
  obtain ⟨_, _, _, _, _, htake⟩ := s.take_frame p
  have hpending : ∀ p', (t.queue p').pending = (s.queue p').pending.drop ([p].count p') := by
    intro p'
    by_cases hp : p' = p
    · subst hp
      simp [hself]
    · simp [hother p' hp, Ne.symm hp]
  refine ⟨t, hstep, ⟨?_, fun p' => ?_, fun hc => ?_⟩, hpending⟩
  · rw [hreset, htake]
    exact h.released
  · have hcount := h.merge p'
    rw [hpending, List.length_drop, ← hcount, ← List.singleton_append, List.count_append, Nat.add_sub_cancel_left]
  · have hcs : s.contended = true := by
      rw [State.contended_iff] at hc ⊢
      intro p' hnil
      exact hc p' (by rw [hpending, hnil, List.drop_nil])
    rw [hsched, State.take_sched hcs, h.sched hcs, List.tail_cons]

/-- A machine's run begins with its step. -/
theorem run_succ_of_step (M : Host.Core) {s t : M.State} (h : M.step s = .next t) (k : Nat) :
    M.run (k + 1) s = M.run k t := by
  rw [Host.Core.run, h]

/-- After `k` steps the first `k` entries of the merge have been taken, and the next is granted. -/
theorem State.Scheduled.core_run {order : List Port} {s : State} (h : s.Scheduled order) {k : Nat}
    (hk : k ≤ order.length) :
    ∃ t : State, Sys2Proof.core.run k s = .next t ∧ t.grant = order[k]? ∧
      ∀ p, (t.queue p).pending = (s.queue p).pending.drop ((order.take k).count p) := by
  induction k generalizing s order with
  | zero => exact ⟨s, rfl, h.grant.trans List.head?_eq_getElem?, fun p => by simp⟩
  | succ k ih =>
    cases order with
    | nil => cases hk
    | cons p rest =>
      obtain ⟨t, hstep, ht, hpending⟩ := h.step_next
      obtain ⟨u, hrun, hgrant, hu⟩ := ih ht (Nat.le_of_succ_le_succ hk)
      refine ⟨u, (run_succ_of_step Sys2Proof.core hstep k).trans hrun, by simpa using hgrant, fun p' => ?_⟩
      rw [hu, hpending, List.drop_drop, List.take_succ_cons, ← List.count_append, List.singleton_append]

/-- Settles O9: the merge itself is the schedule. -/
theorem everyMergeIsPossible : Obligations.EveryMergeIsPossible := by
  intro s order hreset hmerge
  have hqueue : ∀ p, ({ s with sched := order } : State).queue p = s.queue p := by
    intro p
    cases p <;> rfl
  have h : ({ s with sched := order } : State).Scheduled order :=
    ⟨hreset, fun p => by rw [hqueue, hmerge p], fun _ => rfl⟩
  exact ⟨order, fun k hk => by simpa only [hqueue] using h.core_run hk⟩

end Sys2Proof.Machine

/-! # The encoding: the fields of a word, its formats, and the decoder as the encoder's inverse (R91 to R97, R102) -/

namespace Sys2Proof

open Sys2Proof.Laws

/-! ## A word as three fields in a row -/

section Layout

variable {a b c : ℕ}

theorem extractLsb'_append_high (x : BitVec a) (y : BitVec b) (z : BitVec c) :
    (x ++ y ++ z).extractLsb' (c + b) a = x := by
  rw [BitVec.extractLsb'_append_eq_of_le (Nat.le_add_right c b), Nat.add_sub_cancel_left,
    BitVec.extractLsb'_append_eq_left]

theorem extractLsb'_append_middle (x : BitVec a) (y : BitVec b) (z : BitVec c) :
    (x ++ y ++ z).extractLsb' c b = y := by
  rw [BitVec.extractLsb'_append_eq_of_le le_rfl, Nat.sub_self, BitVec.extractLsb'_append_eq_right]

theorem append_extractLsb'_eq_self (x : BitVec (a + b + c)) :
    x.extractLsb' (c + b) a ++ x.extractLsb' c b ++ x.extractLsb' 0 c = x := by
  rw [BitVec.extractLsb'_append_extractLsb'_eq_extractLsb' rfl,
    BitVec.extractLsb'_append_extractLsb'_eq_extractLsb' (Nat.zero_add c).symm, BitVec.extractLsb'_eq_self]

end Layout

/-- A field that lies within the mask of a row reads as in the row's pattern. -/
theorem extractLsb'_eq_of_and {w m p : Word} {start len : ℕ} (h : w &&& m = p)
    (hm : m.extractLsb' start len = BitVec.allOnes len) : w.extractLsb' start len = p.extractLsb' start len := by
  rw [← h, BitVec.extractLsb'_and, hm, BitVec.and_allOnes]

/-! ## The fields of an encoded word -/

@[simp] theorem opField_encodeIX (op idx imm : ℕ) : opField (encodeIX op idx imm) = op % 64 :=
  (congrArg BitVec.toNat (extractLsb'_append_high _ _ _)).trans (BitVec.toNat_ofNat _ _)

@[simp] theorem idxField_encodeIX (op idx imm : ℕ) : idxField (encodeIX op idx imm) = idx % 64 :=
  (congrArg BitVec.toNat (extractLsb'_append_middle _ _ _)).trans (BitVec.toNat_ofNat _ _)

@[simp] theorem immField_encodeIX (op idx imm : ℕ) : immField (encodeIX op idx imm) = imm % 1048576 :=
  (congrArg BitVec.toNat BitVec.extractLsb'_append_eq_right).trans (BitVec.toNat_ofNat _ _)

@[simp] theorem opField_encodeA (op addr : ℕ) : opField (encodeA op addr) = op % 64 :=
  (congrArg BitVec.toNat (extractLsb'_append_high _ _ _)).trans (BitVec.toNat_ofNat _ _)

@[simp] theorem zeroFieldA_encodeA (op addr : ℕ) : zeroFieldA (encodeA op addr) = 0 :=
  congrArg BitVec.toNat (extractLsb'_append_middle _ _ _)

@[simp] theorem addrField_encodeA (op addr : ℕ) : addrField (encodeA op addr) = addr % 4096 :=
  (congrArg BitVec.toNat BitVec.extractLsb'_append_eq_right).trans (BitVec.toNat_ofNat _ _)

@[simp] theorem opField_encodeM (op mask : ℕ) : opField (encodeM op mask) = op % 64 :=
  (congrArg BitVec.toNat (extractLsb'_append_high _ _ _)).trans (BitVec.toNat_ofNat _ _)

@[simp] theorem zeroFieldM_encodeM (op mask : ℕ) : zeroFieldM (encodeM op mask) = 0 :=
  congrArg BitVec.toNat (extractLsb'_append_middle _ _ _)

@[simp] theorem maskField_encodeM (op mask : ℕ) : maskField (encodeM op mask) = mask % 4 :=
  (congrArg BitVec.toNat BitVec.extractLsb'_append_eq_right).trans (BitVec.toNat_ofNat _ _)

/-! ## Every word is laid out in its fields -/

theorem idxField_lt (w : Word) : fitsIdx (idxField w) := BitVec.isLt _

theorem immField_lt (w : Word) : fitsImm (immField w) := BitVec.isLt _

theorem addrField_lt (w : Word) : fitsAddr (addrField w) := BitVec.isLt _

theorem maskField_lt (w : Word) : fitsMask (maskField w) := BitVec.isLt _

theorem encodeIX_fields (w : Word) : encodeIX (opField w) (idxField w) (immField w) = w := by
  simp only [encodeIX, opField, idxField, immField, BitVec.ofNat_toNat, BitVec.setWidth_eq]
  exact append_extractLsb'_eq_self (a := 6) (b := 6) (c := 20) w

theorem encodeA_fields {w : Word} (h : zeroFieldA w = 0) : encodeA (opField w) (addrField w) = w := by
  have hzero : w.extractLsb' 12 14 = 0#14 := BitVec.eq_of_toNat_eq h
  simp only [encodeA, opField, addrField, BitVec.ofNat_toNat, BitVec.setWidth_eq]
  rw [← hzero]
  exact append_extractLsb'_eq_self (a := 6) (b := 14) (c := 12) w

theorem encodeM_fields {w : Word} (h : zeroFieldM w = 0) : encodeM (opField w) (maskField w) = w := by
  have hzero : w.extractLsb' 2 24 = 0#24 := BitVec.eq_of_toNat_eq h
  simp only [encodeM, opField, maskField, BitVec.ofNat_toNat, BitVec.setWidth_eq]
  rw [← hzero]
  exact append_extractLsb'_eq_self (a := 6) (b := 24) (c := 2) w

theorem toNat_eq_zero_iff {n : ℕ} (x : BitVec n) : x.toNat = 0 ↔ x = 0 := by simp [← BitVec.toNat_inj]

/-- The `zero` field of format Z is one field of 26 bits, held in the model as `idx` and `imm`. -/
theorem idxField_add_immField_eq_zero_iff (w : Word) : idxField w + immField w = 0 ↔ w.extractLsb' 0 26 = 0 := by
  have hfield : (w.extractLsb' 0 26).toNat = idxField w * 2 ^ 20 + immField w := by
    simp only [idxField, immField, BitVec.extractLsb'_toNat, Nat.shiftRight_eq_div_pow]
    omega
  rw [← toNat_eq_zero_iff, hfield]
  omega

/-! ## What each format answers (R91, R97) -/

section Formats

variable {w : Word} {i : Instr} {f : ℕ → Instr}

theorem requireZero_eq_ok_iff {z : ℕ} {j : Instr} : requireZero z i = .ok j ↔ z = 0 ∧ i = j := by
  unfold requireZero
  split <;> simp [*]

theorem requireZero_ne_unassignedOpcode (z : ℕ) (i : Instr) : requireZero z i ≠ .error .unassignedOpcode := by
  unfold requireZero
  split <;> simp

theorem requireZero_eq_nonzeroField_iff {z : ℕ} : requireZero z i = .error .nonzeroField ↔ z ≠ 0 := by
  unfold requireZero
  split <;> simp [*]

theorem formatZ_eq_nonzeroField_iff : formatZ w i = .error .nonzeroField ↔ w.extractLsb' 0 26 ≠ 0 :=
  requireZero_eq_nonzeroField_iff.trans (not_congr (idxField_add_immField_eq_zero_iff w))

theorem formatX_eq_nonzeroField_iff : formatX w f = .error .nonzeroField ↔ w.extractLsb' 0 20 ≠ 0 :=
  requireZero_eq_nonzeroField_iff.trans (not_congr (toNat_eq_zero_iff _))

theorem formatA_eq_nonzeroField_iff : formatA w f = .error .nonzeroField ↔ w.extractLsb' 12 14 ≠ 0 :=
  requireZero_eq_nonzeroField_iff.trans (not_congr (toNat_eq_zero_iff _))

theorem formatM_eq_nonzeroField_iff : formatM w f = .error .nonzeroField ↔ w.extractLsb' 2 24 ≠ 0 :=
  requireZero_eq_nonzeroField_iff.trans (not_congr (toNat_eq_zero_iff _))

end Formats

/-! ## The decoder, opcode by opcode (R95, R96) -/

/-- The 14 assigned values of `op` (R95). -/
def assignedOpcodes : List ℕ :=
  [0x00, 0x01, 0x02, 0x03, 0x04, 0x05, 0x08, 0x09, 0x0C, 0x0D, 0x0E, 0x10, 0x11, 0x12]

section Opcodes

variable {w : Word}

theorem decode_nop (h : opField w = 0x00) : decode w = formatZ w .nop := by simp only [decode, h]

theorem decode_setsize (h : opField w = 0x01) : decode w = formatI w .setsize := by simp only [decode, h]

theorem decode_write (h : opField w = 0x02) : decode w = formatX w .write := by simp only [decode, h]

theorem decode_read (h : opField w = 0x03) : decode w = formatI w .read := by simp only [decode, h]

theorem decode_readi (h : opField w = 0x04) : decode w = formatX w .readi := by simp only [decode, h]

theorem decode_clear (h : opField w = 0x05) : decode w = formatX w .clear := by simp only [decode, h]

theorem decode_apf (h : opField w = 0x08) : decode w = formatX w .apf := by simp only [decode, h]

theorem decode_comb (h : opField w = 0x09) : decode w = formatX w .comb := by simp only [decode, h]

theorem decode_flut (h : opField w = 0x0C) : decode w = formatZ w .flut := by simp only [decode, h]

theorem decode_tape (h : opField w = 0x0D) : decode w = formatX w .tape := by simp only [decode, h]

theorem decode_sat (h : opField w = 0x0E) : decode w = formatZ w .sat := by simp only [decode, h]

theorem decode_rdreg (h : opField w = 0x10) : decode w = formatA w .rdreg := by simp only [decode, h]

theorem decode_wrreg (h : opField w = 0x11) : decode w = formatA w .wrreg := by simp only [decode, h]

theorem decode_sreset (h : opField w = 0x12) : decode w = formatM w .sreset := by simp only [decode, h]

/-- The 50 other opcodes are unassigned (R95). -/
theorem decode_unassigned (h : opField w ∉ assignedOpcodes) : decode w = .error .unassignedOpcode := by
  simp only [assignedOpcodes, List.mem_cons, List.not_mem_nil, not_or] at h
  simp [decode, h]

end Opcodes

/-! ## Encoding, then decoding -/

section Encoded

variable {op n m : ℕ}

theorem formatZ_encodeIX (op : ℕ) (i : Instr) : formatZ (encodeIX op 0 0) i = .ok i :=
  requireZero_eq_ok_iff.mpr ⟨by simp, rfl⟩

theorem formatX_encodeIX {f : ℕ → Instr} (hn : fitsIdx n) : formatX (encodeIX op n 0) f = .ok (f n) :=
  requireZero_eq_ok_iff.mpr ⟨by simp, by rw [idxField_encodeIX, Nat.mod_eq_of_lt hn]⟩

theorem formatI_encodeIX {f : ℕ → ℕ → Instr} (h : fitsIdx n ∧ fitsImm m) :
    formatI (encodeIX op n m) f = .ok (f n m) := by
  obtain ⟨hn, hm⟩ := h
  rw [formatI, idxField_encodeIX, immField_encodeIX, Nat.mod_eq_of_lt hn, Nat.mod_eq_of_lt hm]

theorem formatA_encodeA {f : ℕ → Instr} (hn : fitsAddr n) : formatA (encodeA op n) f = .ok (f n) :=
  requireZero_eq_ok_iff.mpr ⟨by simp, by rw [addrField_encodeA, Nat.mod_eq_of_lt hn]⟩

theorem formatM_encodeM {f : ℕ → Instr} (hn : fitsMask n) : formatM (encodeM op n) f = .ok (f n) :=
  requireZero_eq_ok_iff.mpr ⟨by simp, by rw [maskField_encodeM, Nat.mod_eq_of_lt hn]⟩

end Encoded

/-- Settles O1: the word's opcode selects the command's format, and each field reads back the operand that fits it. -/
theorem decodeOfEncode : Obligations.DecodeOfEncode := by
  intro i h
  cases i with
  | nop => exact (decode_nop (opField_encodeIX _ _ _)).trans (formatZ_encodeIX _ _)
  | setsize b n =>
    exact (decode_setsize (opField_encodeIX _ _ _)).trans (formatI_encodeIX (of_decide_eq_true h))
  | write b => exact (decode_write (opField_encodeIX _ _ _)).trans (formatX_encodeIX (of_decide_eq_true h))
  | read b n => exact (decode_read (opField_encodeIX _ _ _)).trans (formatI_encodeIX (of_decide_eq_true h))
  | readi b => exact (decode_readi (opField_encodeIX _ _ _)).trans (formatX_encodeIX (of_decide_eq_true h))
  | clear b => exact (decode_clear (opField_encodeIX _ _ _)).trans (formatX_encodeIX (of_decide_eq_true h))
  | apf i => exact (decode_apf (opField_encodeIX _ _ _)).trans (formatX_encodeIX (of_decide_eq_true h))
  | comb j => exact (decode_comb (opField_encodeIX _ _ _)).trans (formatX_encodeIX (of_decide_eq_true h))
  | flut => exact (decode_flut (opField_encodeIX _ _ _)).trans (formatZ_encodeIX _ _)
  | tape c => exact (decode_tape (opField_encodeIX _ _ _)).trans (formatX_encodeIX (of_decide_eq_true h))
  | sat => exact (decode_sat (opField_encodeIX _ _ _)).trans (formatZ_encodeIX _ _)
  | rdreg a => exact (decode_rdreg (opField_encodeA _ _)).trans (formatA_encodeA (of_decide_eq_true h))
  | wrreg a => exact (decode_wrreg (opField_encodeA _ _)).trans (formatA_encodeA (of_decide_eq_true h))
  | sreset m => exact (decode_sreset (opField_encodeM _ _)).trans (formatM_encodeM (of_decide_eq_true h))

/-! ## Decoding, then encoding -/

/-- The opcodes of format Z (R96). -/
abbrev opcodesZ : List ℕ := [0x00, 0x0C, 0x0E]

/-- The opcodes of format X (R96). -/
abbrev opcodesX : List ℕ := [0x02, 0x04, 0x05, 0x08, 0x09, 0x0D]

/-- The opcodes of format I (R96). -/
abbrev opcodesI : List ℕ := [0x01, 0x03]

/-- The opcodes of format A (R96). Format M has the one opcode 0x12. -/
abbrev opcodesA : List ℕ := [0x10, 0x11]

/-- How a word is decoded: by the format of its opcode's row in R95 and R96, whose commands the encoder writes in that
format with that opcode; or not at all. -/
inductive OpcodeCase (w : Word) : Prop
  | formatZ (i : Instr) (hop : opField w ∈ opcodesZ) (hdec : decode w = formatZ w i)
      (henc : WellFormed i ∧ encode i = encodeIX (opField w) 0 0)
  | formatX (f : ℕ → Instr) (hop : opField w ∈ opcodesX) (hdec : decode w = formatX w f)
      (henc : ∀ n, fitsIdx n → WellFormed (f n) ∧ encode (f n) = encodeIX (opField w) n 0)
  | formatI (f : ℕ → ℕ → Instr) (hop : opField w ∈ opcodesI) (hdec : decode w = formatI w f)
      (henc : ∀ n m, fitsIdx n ∧ fitsImm m → WellFormed (f n m) ∧ encode (f n m) = encodeIX (opField w) n m)
  | formatA (f : ℕ → Instr) (hop : opField w ∈ opcodesA) (hdec : decode w = formatA w f)
      (henc : ∀ n, fitsAddr n → WellFormed (f n) ∧ encode (f n) = encodeA (opField w) n)
  | formatM (f : ℕ → Instr) (hop : opField w = 0x12) (hdec : decode w = formatM w f)
      (henc : ∀ n, fitsMask n → WellFormed (f n) ∧ encode (f n) = encodeM (opField w) n)
  | unassigned (hop : opField w ∉ assignedOpcodes) (hdec : decode w = .error .unassignedOpcode)

theorem opcodeCase (w : Word) : OpcodeCase w := by
  by_cases hop : opField w ∈ assignedOpcodes
  case neg => exact .unassigned hop (decode_unassigned hop)
  simp only [assignedOpcodes, List.mem_cons, List.not_mem_nil, or_false] at hop
  obtain h | h | h | h | h | h | h | h | h | h | h | h | h | h := hop
  · exact .formatZ .nop (by simp [h]) (decode_nop h) ⟨rfl, by rw [h]; rfl⟩
  · exact .formatI .setsize (by simp [h]) (decode_setsize h) fun n m hn => ⟨decide_eq_true hn, by rw [h]; rfl⟩
  · exact .formatX .write (by simp [h]) (decode_write h) fun n hn => ⟨decide_eq_true hn, by rw [h]; rfl⟩
  · exact .formatI .read (by simp [h]) (decode_read h) fun n m hn => ⟨decide_eq_true hn, by rw [h]; rfl⟩
  · exact .formatX .readi (by simp [h]) (decode_readi h) fun n hn => ⟨decide_eq_true hn, by rw [h]; rfl⟩
  · exact .formatX .clear (by simp [h]) (decode_clear h) fun n hn => ⟨decide_eq_true hn, by rw [h]; rfl⟩
  · exact .formatX .apf (by simp [h]) (decode_apf h) fun n hn => ⟨decide_eq_true hn, by rw [h]; rfl⟩
  · exact .formatX .comb (by simp [h]) (decode_comb h) fun n hn => ⟨decide_eq_true hn, by rw [h]; rfl⟩
  · exact .formatZ .flut (by simp [h]) (decode_flut h) ⟨rfl, by rw [h]; rfl⟩
  · exact .formatX .tape (by simp [h]) (decode_tape h) fun n hn => ⟨decide_eq_true hn, by rw [h]; rfl⟩
  · exact .formatZ .sat (by simp [h]) (decode_sat h) ⟨rfl, by rw [h]; rfl⟩
  · exact .formatA .rdreg (by simp [h]) (decode_rdreg h) fun n hn => ⟨decide_eq_true hn, by rw [h]; rfl⟩
  · exact .formatA .wrreg (by simp [h]) (decode_wrreg h) fun n hn => ⟨decide_eq_true hn, by rw [h]; rfl⟩
  · exact .formatM .sreset h (decode_sreset h) fun n hn => ⟨decide_eq_true hn, by rw [h]; rfl⟩

/-- Settles O2: in each format the operands are fields, so they fit, and with the zeros they are the whole word. -/
theorem encodeOfDecode : Obligations.EncodeOfDecode := by
  intro w i h
  cases opcodeCase w with
  | formatZ j hop hdec henc =>
    obtain ⟨hz, rfl⟩ := requireZero_eq_ok_iff.mp (hdec.symm.trans h)
    obtain ⟨hidx, himm⟩ := Nat.add_eq_zero_iff.mp hz
    have hw := encodeIX_fields w
    rw [hidx, himm] at hw
    obtain ⟨hwf, hword⟩ := henc
    exact ⟨hwf, hword.trans hw⟩
  | formatX f hop hdec henc =>
    obtain ⟨himm, rfl⟩ := requireZero_eq_ok_iff.mp (hdec.symm.trans h)
    have hw := encodeIX_fields w
    rw [himm] at hw
    obtain ⟨hwf, hword⟩ := henc _ (idxField_lt w)
    exact ⟨hwf, hword.trans hw⟩
  | formatI f hop hdec henc =>
    obtain rfl := Except.ok.inj (hdec.symm.trans h)
    obtain ⟨hwf, hword⟩ := henc _ _ ⟨idxField_lt w, immField_lt w⟩
    exact ⟨hwf, hword.trans (encodeIX_fields w)⟩
  | formatA f hop hdec henc =>
    obtain ⟨hz, rfl⟩ := requireZero_eq_ok_iff.mp (hdec.symm.trans h)
    obtain ⟨hwf, hword⟩ := henc _ (addrField_lt w)
    exact ⟨hwf, hword.trans (encodeA_fields hz)⟩
  | formatM f hop hdec henc =>
    obtain ⟨hz, rfl⟩ := requireZero_eq_ok_iff.mp (hdec.symm.trans h)
    obtain ⟨hwf, hword⟩ := henc _ (maskField_lt w)
    exact ⟨hwf, hword.trans (encodeM_fields hz)⟩
  | unassigned hop hdec =>
    rw [hdec] at h
    cases h

/-! ## The two ways to be illegal (R97) -/

theorem decode_eq_unassignedOpcode_iff (w : Word) :
    decode w = .error .unassignedOpcode ↔ opField w ∉ assignedOpcodes := by
  refine ⟨fun h => ?_, decode_unassigned⟩
  cases opcodeCase w with
  | formatZ i _ hdec => exact absurd (hdec.symm.trans h) (requireZero_ne_unassignedOpcode _ _)
  | formatX f _ hdec => exact absurd (hdec.symm.trans h) (requireZero_ne_unassignedOpcode _ _)
  | formatI f _ hdec => cases hdec.symm.trans h
  | formatA f _ hdec => exact absurd (hdec.symm.trans h) (requireZero_ne_unassignedOpcode _ _)
  | formatM f _ hdec => exact absurd (hdec.symm.trans h) (requireZero_ne_unassignedOpcode _ _)
  | unassigned hop _ => exact hop

/-- Settles O4: an opcode has at most one format, so of the four kinds of `zero` field only that of its own format
counts. -/
theorem illegalWordsAreTheTwoCases : Obligations.IllegalWordsAreTheTwoCases := by
  intro w
  refine ⟨decode_eq_unassignedOpcode_iff w, ?_⟩
  cases opcodeCase w with
  | formatZ i hop hdec =>
    have hother : ∀ k ∈ opcodesZ, k ∉ opcodesX ∧ k ∉ opcodesA ∧ k ≠ 0x12 := by decide
    obtain ⟨hX, hA, hM⟩ := hother _ hop
    simp only [hdec, formatZ_eq_nonzeroField_iff, hop, hX, hA, hM, true_and, false_and, or_false]
  | formatX f hop hdec =>
    have hother : ∀ k ∈ opcodesX, k ∉ opcodesZ ∧ k ∉ opcodesA ∧ k ≠ 0x12 := by decide
    obtain ⟨hZ, hA, hM⟩ := hother _ hop
    simp only [hdec, formatX_eq_nonzeroField_iff, hop, hZ, hA, hM, true_and, false_and, or_false, false_or]
  | formatI f hop hdec =>
    have hother : ∀ k ∈ opcodesI, k ∉ opcodesZ ∧ k ∉ opcodesX ∧ k ∉ opcodesA ∧ k ≠ 0x12 := by decide
    obtain ⟨hZ, hX, hA, hM⟩ := hother _ hop
    simp only [hdec, formatI, reduceCtorEq, hZ, hX, hA, hM, false_and, or_false]
  | formatA f hop hdec =>
    have hother : ∀ k ∈ opcodesA, k ∉ opcodesZ ∧ k ∉ opcodesX ∧ k ≠ 0x12 := by decide
    obtain ⟨hZ, hX, hM⟩ := hother _ hop
    simp only [hdec, formatA_eq_nonzeroField_iff, hop, hZ, hX, hM, true_and, false_and, or_false, false_or]
  | formatM f hop hdec =>
    rw [hdec, formatM_eq_nonzeroField_iff, hop]
    simp
  | unassigned hop hdec =>
    simp only [assignedOpcodes, List.mem_cons, List.not_mem_nil, not_or] at hop
    simp [hdec, hop]

/-! ## The rows of R96's table (R94) -/

section Rows

variable {w m p : Word} {f : ℕ → Instr}

theorem opField_eq_of_and (h : w &&& m = p) (hm : m.extractLsb' 26 6 = BitVec.allOnes 6) : opField w = opField p :=
  congrArg BitVec.toNat (extractLsb'_eq_of_and h hm)

theorem decode_of_rowX (h : w &&& 0xFC0FFFFF#32 = p) (hp : immField p = 0)
    (hdec : opField w = opField p → decode w = formatX w f) : decode w = .ok (f (idxField w)) := by
  have himm : immField w = immField p := congrArg BitVec.toNat (extractLsb'_eq_of_and h (by decide))
  exact (hdec (opField_eq_of_and h (by decide))).trans (requireZero_eq_ok_iff.mpr ⟨himm.trans hp, rfl⟩)

theorem decode_of_rowA (h : w &&& 0xFFFFF000#32 = p) (hp : zeroFieldA p = 0)
    (hdec : opField w = opField p → decode w = formatA w f) : decode w = .ok (f (addrField w)) := by
  have hzero : zeroFieldA w = zeroFieldA p := congrArg BitVec.toNat (extractLsb'_eq_of_and h (by decide))
  exact (hdec (opField_eq_of_and h (by decide))).trans (requireZero_eq_ok_iff.mpr ⟨hzero.trans hp, rfl⟩)

theorem decode_of_rowM (h : w &&& 0xFFFFFFFC#32 = p) (hp : zeroFieldM p = 0)
    (hdec : opField w = opField p → decode w = formatM w f) : decode w = .ok (f (maskField w)) := by
  have hzero : zeroFieldM w = zeroFieldM p := congrArg BitVec.toNat (extractLsb'_eq_of_and h (by decide))
  exact (hdec (opField_eq_of_and h (by decide))).trans (requireZero_eq_ok_iff.mpr ⟨hzero.trans hp, rfl⟩)

theorem decode_of_rowI {f : ℕ → ℕ → Instr} (h : w &&& 0xFC000000#32 = p)
    (hdec : opField w = opField p → decode w = formatI w f) : decode w = .ok (f (idxField w) (immField w)) :=
  hdec (opField_eq_of_and h (by decide))

/-- A row of format Z has one word. -/
theorem decode_of_rowZ {i : Instr} (h : w &&& 0xFFFFFFFF#32 = encode i) (hi : WellFormed i) : decode w = .ok i := by
  have hw : w = encode i := (BitVec.and_allOnes (x := w)).symm.trans h
  exact hw ▸ decodeOfEncode i hi

end Rows

theorem decode_of_matchesWord {w : Word} {r : EncodingRow} (hr : r ∈ encodingTable) (h : r.matchesWord w = true) :
    ∃ i, decode w = .ok i ∧ mnemonicOf i = r.mnemonic := by
  replace h : w &&& r.mask = r.pattern := eq_of_beq h
  simp only [encodingTable, List.mem_cons, List.not_mem_nil, or_false] at hr
  obtain rfl | rfl | rfl | rfl | rfl | rfl | rfl | rfl | rfl | rfl | rfl | rfl | rfl | rfl := hr
  · exact ⟨_, decode_of_rowZ (i := .nop) h rfl, rfl⟩
  · exact ⟨_, decode_of_rowI h decode_setsize, rfl⟩
  · exact ⟨_, decode_of_rowX h rfl decode_write, rfl⟩
  · exact ⟨_, decode_of_rowI h decode_read, rfl⟩
  · exact ⟨_, decode_of_rowX h rfl decode_readi, rfl⟩
  · exact ⟨_, decode_of_rowX h rfl decode_clear, rfl⟩
  · exact ⟨_, decode_of_rowX h rfl decode_apf, rfl⟩
  · exact ⟨_, decode_of_rowX h rfl decode_comb, rfl⟩
  · exact ⟨_, decode_of_rowZ (i := .flut) h rfl, rfl⟩
  · exact ⟨_, decode_of_rowX h rfl decode_tape, rfl⟩
  · exact ⟨_, decode_of_rowZ (i := .sat) h rfl, rfl⟩
  · exact ⟨_, decode_of_rowA h rfl decode_rdreg, rfl⟩
  · exact ⟨_, decode_of_rowA h rfl decode_wrreg, rfl⟩
  · exact ⟨_, decode_of_rowM h rfl decode_sreset, rfl⟩

/-- The word of every command matches the row of its mnemonic. -/
theorem encode_matchesRow (i : Instr) : MatchesRow.Statement i := by
  cases i with
  | nop => exact MatchesRow.nop
  | setsize b n => exact MatchesRow.setsize b n
  | write b => exact MatchesRow.write b
  | read b n => exact MatchesRow.read b n
  | readi b => exact MatchesRow.readi b
  | clear b => exact MatchesRow.clear b
  | apf i => exact MatchesRow.apf i
  | comb j => exact MatchesRow.comb j
  | flut => exact MatchesRow.flut
  | tape c => exact MatchesRow.tape c
  | sat => exact MatchesRow.sat
  | rdreg a => exact MatchesRow.rdreg a
  | wrreg a => exact MatchesRow.wrreg a
  | sreset m => exact MatchesRow.sreset m

theorem eq_of_mnemonic_eq : ∀ r ∈ encodingTable, ∀ r' ∈ encodingTable, r.mnemonic = r'.mnemonic → r = r' := by
  decide

/-- Settles O3: a word that decodes is the word of its command, which matches that command's row; and two rows that
match both name the command decoded, so they are one. -/
theorem decodesByMatchingRow : Obligations.DecodesByMatchingRow := by
  intro w
  refine ⟨fun r hr h => decode_of_matchesWord hr h, fun hnone => ?_, fun r hr r' hr' h h' => ?_⟩
  · cases hd : decode w with
    | error e => exact ⟨e, rfl⟩
    | ok i =>
      obtain ⟨-, rfl⟩ := encodeOfDecode w i hd
      obtain ⟨r, hr, -, h⟩ := encode_matchesRow i
      exact absurd h (Bool.eq_false_iff.mp (hnone r hr))
  · obtain ⟨i, hi, hname⟩ := decode_of_matchesWord hr h
    obtain ⟨j, hj, hname'⟩ := decode_of_matchesWord hr' h'
    obtain rfl := Except.ok.inj (hi.symm.trans hj)
    exact eq_of_mnemonic_eq r hr r' hr' (hname.symm.trans hname')

/-! ## The worked encodings (R102) -/

/-- Settles O5: each command listed is well formed and has the word listed, so the word decodes to it. -/
theorem workedEncodings : Obligations.WorkedEncodings := by
  refine ⟨fun p hp => ?_, ⟨.unassignedOpcode, by decide⟩, ⟨.nonzeroField, by decide⟩, ⟨.unassignedOpcode, by decide⟩⟩
  obtain ⟨hwf, hword⟩ : WellFormed p.2 ∧ encode p.2 = p.1 := by
    revert p
    decide
  exact ⟨hword ▸ decodeOfEncode p.2 hwf, hword⟩

end Sys2Proof

/-! # A Delay Buffer over time, and its interpolated reads (R41, R124 to R128) -/

namespace Sys2Proof.Machine

open Sys2Proof

/-! ## What each delay names after a write (R64, R124) -/

/-- R64: delays of one more than before, after the cursor moved on by one, name the same cell. -/
theorem Buffer.idx_push_succ (B : Buffer) (v : Sample) (n : Nat) : (B.push v).idx (n + 1) = B.idx n := by
  have hmod : (((B.cur + 1) % B.size : Nat) - (n + 1 : Nat) : Int) % B.size = (B.cur - n : Int) % B.size := by
    push_cast
    rw [Int.emod_sub_emod]
    congr 1
    ring
  simp only [Buffer.idx, Buffer.push_cur, Buffer.push_size, hmod]

/-- R64: within the size, delay 0 alone names the cell at the cursor. -/
theorem Buffer.idx_eq_cur_iff {B : Buffer} (hc : B.cur < B.size) {n : Nat} (hn : n < B.size) :
    B.idx n = B.cur ↔ n = 0 := by
  rw [Buffer.idx_eq hc hn.le]
  split <;> omega

/-- R41(d), R64: delay 0 names what delay `SIZE` names. -/
theorem Buffer.read_zero (B : Buffer) : B.read 0 = B.read B.size := by
  simp [Buffer.read, Buffer.idx]

/-- R124: after a write, delay 1 names the sample written, and a longer delay what one less named before. -/
theorem Buffer.read_push_succ {B : Buffer} (hc : B.cur < B.size) (v : Sample) {n : Nat} (hn : n < B.size) :
    (B.push v).read (n + 1) = if n = 0 then v else B.read n := by
  simp only [Buffer.read, Buffer.idx_push_succ, Buffer.push_mem, Mem.read_write, Buffer.idx_eq_cur_iff hc hn]

/-- R126: after a clear every delay names `+0.0`. -/
theorem Buffer.read_clear {B : Buffer} (h : B.size ≠ 0) (n : Nat) : B.clear.read n = unlistedSample := by
  have hidx : B.clear.idx n < B.size := Buffer.idx_lt (B := B.clear) h n
  rw [Buffer.read, Buffer.clear_mem, Mem.read_clearBelow, if_pos hidx]

/-! ## Any number of writes -/

theorem Buffer.pushAll_append_singleton (B : Buffer) (xs : List Sample) (x : Sample) :
    B.pushAll (xs ++ [x]) = (B.pushAll xs).push x := by
  simp [Buffer.pushAll]

/-- R41(b): writes keep the size, and the cursor below it. -/
theorem Buffer.pushAll_size_cur {B : Buffer} (hc : B.cur < B.size) (xs : List Sample) :
    (B.pushAll xs).size = B.size ∧ (B.pushAll xs).cur < (B.pushAll xs).size := by
  induction xs using List.reverseRecOn with
  | nil => exact ⟨rfl, hc⟩
  | append_singleton xs x ih =>
    obtain ⟨hsize, hcur⟩ := ih
    rw [Buffer.pushAll_append_singleton]
    exact ⟨hsize, Nat.mod_lt _ (Nat.zero_lt_of_lt hcur)⟩

/-- R124: after a clear and writes, delay `n + 1` names the write before which `n` later ones came. -/
theorem Buffer.read_clear_pushAll {B : Buffer} (h : B.size ≠ 0) (xs : List Sample) {n : Nat} (hn : n < B.size) :
    (B.clear.pushAll xs).read (n + 1) = xs.reverse.getD n unlistedSample := by
  induction xs using List.reverseRecOn generalizing n with
  | nil => exact Buffer.read_clear h _
  | append_singleton xs x ih =>
    obtain ⟨hsize, hcur⟩ := Buffer.pushAll_size_cur (B := B.clear) (Nat.pos_of_ne_zero h) xs
    rw [Buffer.pushAll_append_singleton, Buffer.read_push_succ hcur x (by rw [hsize]; exact hn), List.reverse_append]
    cases n with
    | zero => rfl
    | succ m => exact ih (Nat.lt_of_succ_lt hn)

/-- Settles O36: each write moves the earlier ones one delay further, by induction on the writes from the last one. -/
theorem delayNamesNthMostRecentWrite : Obligations.DelayNamesNthMostRecentWrite := by
  intro B xs n hB h1 hn
  obtain ⟨m, rfl⟩ := Nat.exists_eq_add_of_le' h1
  obtain ⟨hsize, -⟩ := Buffer.pushAll_size_cur (B := B.clear) (Nat.pos_of_ne_zero hB) xs
  refine ⟨Buffer.read_clear_pushAll hB xs hn, ?_⟩
  rw [Buffer.read_zero, hsize, Buffer.clear_size]

end Sys2Proof.Machine

namespace Sys2Proof.Machine.F32

open Sys2Proof

/-! ## Sums and products of zeros, by value (R75(c)) -/

/-- A finite sum has finite operands (R75(d)). -/
theorem finite_of_add_finite {q : Nat} {a b : Sample} (h : isFinite (add q a b) = true) :
    isFinite a = true ∧ isFinite b = true := by
  obtain ⟨hnan, hinf⟩ := finite_cases h
  have ha : isNaN a = false := Bool.eq_false_iff.mpr fun e => by simp [isNaN_of_operand (.inl e)] at hnan
  have hb : isNaN b = false := Bool.eq_false_iff.mpr fun e => by simp [isNaN_of_operand (.inr e)] at hnan
  obtain hainf | hafin := inf_or_finite ha
  · obtain hadd | hadd : add q a b = nan q ∨ add q a b = a := by
      simp only [add, ha, hb, hainf, Bool.or_self, Bool.false_eq_true, if_false, if_true]
      exact ite_eq_or_eq _ _ _
    · simp [hadd] at hnan
    · simp [hadd, hainf] at hinf
  obtain hbinf | hbfin := inf_or_finite hb
  · simp [add, ha, hb, hbinf, finite_cases hafin] at hinf
  · exact ⟨hafin, hbfin⟩

theorem isZero_mul_zero_left {q : Nat} {z x : Sample} (hz : isZero z = true) (hx : isFinite x = true) :
    isZero (mul q z x) = true := by
  rw [mul_zero_of_finite hz hx]
  exact isZero_mk_zero _

/-- `⊗` does not tell its operands apart, the drawn NaN included. -/
theorem mul_swap (q : Nat) (a b : Sample) : mul q a b = mul q b a := by
  simp only [mul, Bool.or_comm (isNaN a), Bool.or_comm (isInf a), Bool.or_comm (isZero a), Bool.xor_comm (neg a),
    Nat.mul_comm (mag a)]

theorem isZero_mul_zero_right {q : Nat} {z x : Sample} (hx : isFinite x = true) (hz : isZero z = true) :
    isZero (mul q x z) = true := by
  rw [mul_swap]
  exact isZero_mul_zero_left hz hx

/-- A difference of equal finite values is a zero. -/
theorem isZero_sub_of_val_eq {q : Nat} {a b : Sample} (ha : isFinite a = true) (hb : isFinite b = true)
    (h : val a = val b) : isZero (sub q a b) = true := by
  rw [sub, add_eq_zero ha ((isFinite_negate b).trans hb) (by rw [val_negate, h, add_neg_cancel])]
  exact isZero_mk_zero _

theorem negZero_of_isZero {a : Sample} (h : isZero a = true) (hn : neg a = true) : a = 0x80000000#32 :=
  eq_of_neg_magBits hn ((isZero_iff a).mp h)

/-- R75(c), R127: a zero added changes no value, and no bit but the sign of `-0.0`. -/
theorem add_zero_value {q : Nat} {a z : Sample} (ha : isFinite a = true) (hz : isZero z = true) :
    sameValue (add q a z) a = true ∧ (a ≠ 0x80000000#32 → add q a z = a) := by
  cases h0 : isZero a with
  | false =>
    have hadd : add q a z = a := add_zero_of_nonzero (finite_cases ha).1 h0 hz
    exact ⟨by simp [sameValue, hadd], fun _ => hadd⟩
  | true =>
    obtain ⟨hzfin, -, hzval⟩ := zero_facts hz
    have hadd : add q a z = mk (neg a && neg z) 0 :=
      add_eq_zero ha hzfin (by rw [hzval, (zero_facts h0).2.2, add_zero])
    refine ⟨by simp [sameValue, hadd, isZero_mk_zero, h0], fun hne => ?_⟩
    have hpos : neg a = false := Bool.eq_false_iff.mpr fun hn => hne (negZero_of_isZero h0 hn)
    rw [hadd, hpos, Bool.false_and, ← (isZero_iff a).mp h0, ← hpos, mk_neg_magBits]

/-- `floor` undoes `toS` on the integers of 20 bits (R75(g)). -/
theorem floor_toS {n : Nat} (hn : n ≤ Config.u20Max) : floor (toS n) = n := by
  obtain ⟨-, hval⟩ := toS_exact hn
  have habs := natAbs_val (toS n)
  unfold floor
  omega

end Sys2Proof.Machine.F32

namespace Sys2Proof.Machine

open Sys2Proof

/-! ## Interpolation that adds nothing (R125, R127, R128) -/

/-- R125: where the fraction times the difference is a zero, the interpolated value is the nearer tap. -/
theorem interpolate_of_zero_product {q : Nat} {f a c : Sample} (ha : F32.isFinite a = true)
    (h : F32.isZero (F32.mul (q + 1) f (F32.sub q c a)) = true) :
    sameValue (interpolate q f a c) a = true ∧ (a ≠ 0x80000000#32 → interpolate q f a c = a) :=
  F32.add_zero_value ha h

/-- R127: an integer delay has no fraction. -/
theorem fracPart_toS {q n : Nat} (hn : n ≤ Config.u20Max) : fracPart q (F32.toS n) = F32.zero := by
  rw [fracPart, F32.floor_toS hn]
  exact F32.sub_self_of_finite (F32.toS_exact hn).1

/-- Settles O38: the difference of the taps is a zero. -/
theorem equalTapsInterpolateToTheTap : Obligations.EqualTapsInterpolateToTheTap := by
  intro q f a c ha hc hval h0 h1
  have hf : F32.isFinite f = true :=
    F32.isFinite_of_inRange (lo := F32.zero) (hi := F32.one) (Bool.and_eq_true_iff.mpr ⟨h0, F32.le_of_lt h1⟩)
      (by decide) (by decide)
  have hdiff : F32.isZero (F32.sub q c a) = true := F32.isZero_sub_of_val_eq hc ha hval.symm
  exact (interpolate_of_zero_product ha (F32.isZero_mul_zero_right hf hdiff)).1

/-- Settles O37: the fraction of an integer delay is zero, and the difference it scales is finite. -/
theorem interpolatedReadAgreesAtIntegers : Obligations.InterpolatedReadAgreesAtIntegers := by
  intro B n q hn hsize hfin
  have hn20 : n ≤ Config.u20Max := hn.le.trans hsize
  obtain ⟨hc, hnegate⟩ := F32.finite_of_add_finite hfin
  have ha : F32.isFinite (B.read n) = true := (F32.isFinite_negate _).symm.trans hnegate
  have hdiff : F32.sub (q + 1) (B.read (n + 1)) (B.read n) = F32.sub q (B.read (n + 1)) (B.read n) := by
    rw [F32.sub, F32.sub, F32.add_finite hc hnegate, F32.add_finite hc hnegate]
  rw [Buffer.readI, fracPart_toS hn20, F32.floor_toS hn20]
  exact interpolate_of_zero_product ha (F32.isZero_mul_zero_left rfl (by rw [hdiff]; exact hfin))

end Sys2Proof.Machine

/-! # The Delay Buffer commands (R120 to R126) -/

namespace Sys2Proof

/-- The word of format X, as the command rules write it. -/
theorem encodeX_word {op idx : Nat} (h : op < 64) (hi : idx < 64) :
    encodeIX op idx 0 = BitVec.ofNat 32 op <<< 26 ||| BitVec.ofNat 32 idx <<< 20 := by
  rw [encodeIX_word h hi (by decide)]
  exact BitVec.or_zero

end Sys2Proof

namespace Sys2Proof.Machine

open Sys2Proof

/-! ## An accepted command faults or runs (R223) -/

theorem entersFault_of_admission {i : Instr} {s : State} {c : Cause} (hs : s.accepting) (h : admission i s = some c) :
    entersFault s (exec i s) c := by
  rw [exec_eq_serve, serve_raised (.inl hs.1) (.inl hs.2) h]
  exact entersFault_raiseFault c hs.2

theorem exec_of_admission {i : Instr} {s : State} (hs : s.accepting) (h : admission i s = none) :
    exec i s = .next (effect i s) := by
  rw [exec_eq_serve, serve_ran (.inl hs.1) (.inl hs.2) h]

/-! ## The checks of the buffer commands, one by one (R212, R213, R214, R220) -/

section Checks

variable {l : List (Bool × Cause)} {b : Nat} {B : Buffer}

theorem firstFailing_index (h : 15 ≤ b) : firstFailing (badBuffer b :: l) = some .badIndex := by
  simp [firstFailing, badBuffer, h]

theorem firstFailing_index_passed (h : b < 15) : firstFailing (badBuffer b :: l) = firstFailing l := by
  simp [firstFailing, badBuffer, h]

theorem firstFailing_preparation (h : B.size = 0) : firstFailing (unprepared B :: l) = some .notPrepared := by
  simp [firstFailing, unprepared, Buffer.unsized, h]

theorem firstFailing_preparation_passed (h : B.size ≠ 0) : firstFailing (unprepared B :: l) = firstFailing l := by
  simp [firstFailing, unprepared, Buffer.unsized, h]

end Checks

theorem setsizeCheck_sizeRange {b n : Nat} {s : State} (hb : b < 15) (h : n = 0 ∨ s.physCap b < n) :
    setsizeCheck b n s = some .sizeRange := by
  rw [setsizeCheck, firstFailing_index_passed hb]
  simp [firstFailing, h]

theorem readCheck_delayRange {b n : Nat} {s : State} (hb : b < 15) (h0 : (s.buf b).size ≠ 0)
    (h : (s.buf b).size ≤ n) : readCheck b n s = some .delayRange := by
  rw [readCheck, firstFailing_index_passed hb, firstFailing_preparation_passed h0]
  simp [firstFailing, Buffer.delayBad, h]

theorem readiCheck_delayRange {b : Nat} {s : State} (hb : b < 15) (h0 : (s.buf b).size ≠ 0)
    (h : (s.buf b).fracDelayBad s.dataWord = true) : readiCheck b s = some .delayRange := by
  rw [readiCheck, firstFailing_index_passed hb, firstFailing_preparation_passed h0]
  simp [firstFailing, h]

/-- An illegal fractional delay, in the words of R214. -/
theorem fracDelayBad_iff {B : Buffer} {d : Sample} :
    B.fracDelayBad d = true ↔
      F32.isNaN d = true ∨ F32.lt d F32.zero = true ∨ F32.lt (F32.toS (B.size - 1)) d = true := by
  simp [Buffer.fracDelayBad, or_assoc]

/-! ## The two ways the buffer commands end -/

/-- A command without a result that replaces buffer `b` changes nothing else. -/
theorem setBuf_complete_frame (s : State) (b : Nat) (B : Buffer) :
    otherBuffersSame s (s.setBuf b B).complete b ∧ sameRegisters s (s.setBuf b B).complete ∧
      completed s (s.setBuf b B).complete ∧ sameSetting s (s.setBuf b B).complete :=
  ⟨fun b' h => (State.buf_congr (State.complete_bufs _) b').trans (s.buf_setBuf_ne B h), by simp [sameRegisters],
    ⟨by simp, answeredWith_respond_of_same rfl rfl rfl _ _⟩, by simp [sameSetting]⟩

theorem buf_setBuf_complete (s : State) {b : Nat} (hb : b < 15) (B : Buffer) : (s.setBuf b B).complete.buf b = B :=
  (State.buf_congr (State.complete_bufs _) b).trans (s.buf_setBuf_self B hb)

/-- Completing changes no cell. -/
theorem cell_complete (s : State) (b k : Nat) : s.complete.cell b k = s.cell b k := by
  rw [State.cell, State.cell, State.buf_congr (State.complete_bufs s)]

/-- R80: a command that only gives a result, whatever it drew, changes `DOUT` and nothing else. -/
theorem advanceDraws_result_frame (s : State) (n : Nat) (v : Sample) :
    resulted s ((s.advanceDraws n).result v) v ∧ ((s.advanceDraws n).result v).bufs = s.bufs ∧
      sameRegisters s ((s.advanceDraws n).result v) ∧ sameSetting s ((s.advanceDraws n).result v) :=
  ⟨⟨by simp, answeredWith_respond_of_same rfl rfl rfl _ _⟩, by simp, by simp [sameRegisters], by simp [sameSetting]⟩

/-! ## The commands -/

/-- Settles O23: the checks fail in R120's order, and the pseudocode replaces the buffer by the resized one. -/
theorem setsizeResult : Obligations.SetsizeResult := by
  refine ⟨fun b n hb hn => encodeIX_word (by decide) hb hn, fun s b n hs => ⟨fun hb => ?_, fun hb hn => ?_, ?_⟩⟩
  · exact entersFault_of_admission hs (firstFailing_index hb)
  · exact entersFault_of_admission hs (setsizeCheck_sizeRange hb hn)
  · intro hb h0 hcap
    have hbuf := buf_setBuf_complete s hb ((s.buf b).resize n)
    exact ⟨_, exec_of_admission hs (setsizeCheck_none.mpr ⟨hb, h0, hcap⟩), congrArg Buffer.size hbuf,
      congrArg Buffer.cur hbuf, fun k => (cell_complete _ b k).trans (s.cell_resize hb n k),
      setBuf_complete_frame s b _⟩

/-- Settles O24: the checks fail in R122's order, and the pseudocode is one `BufWrite` of the data word. -/
theorem writeResult : Obligations.WriteResult := by
  refine ⟨fun b hb => encodeX_word (by decide) hb, fun s b hs => ⟨fun hb => ?_, fun hb h0 => ?_, fun hb h0 => ?_⟩⟩
  · exact entersFault_of_admission hs (firstFailing_index hb)
  · exact entersFault_of_admission hs ((firstFailing_index_passed hb).trans (firstFailing_preparation h0))
  · have hbuf := buf_setBuf_complete s hb ((s.buf b).push s.dataWord)
    exact ⟨_, exec_of_admission hs (writeCheck_none.mpr ⟨hb, h0⟩),
      ⟨fun k => (cell_complete _ b k).trans (s.cell_push hb _ k), congrArg Buffer.cur hbuf,
        (congrArg Buffer.size hbuf).trans (Buffer.push_size _ _)⟩,
      setBuf_complete_frame s b _⟩

/-- Settles O25: the checks fail in R123's order, and the pseudocode gives the tap as the result. -/
theorem readResult : Obligations.ReadResult := by
  refine ⟨fun b n hb hn => encodeIX_word (by decide) hb hn,
    fun s b n hs => ⟨fun hb => ?_, fun hb h0 => ?_, fun hb h0 hn => ?_, fun hb hn => ?_⟩⟩
  · exact entersFault_of_admission hs (firstFailing_index hb)
  · exact entersFault_of_admission hs ((firstFailing_index_passed hb).trans (firstFailing_preparation h0))
  · exact entersFault_of_admission hs (readCheck_delayRange hb h0 hn)
  · have h0 : (s.buf b).size ≠ 0 := Nat.ne_zero_of_lt hn
    exact ⟨_, exec_of_admission hs (readCheck_none.mpr ⟨hb, h0, hn⟩), advanceDraws_result_frame s 0 _⟩

/-- Settles O26: the checks fail in R125's order, and the four operations draw their NaNs in turn. -/
theorem readiResult : Obligations.ReadiResult := by
  refine ⟨fun b hb => encodeX_word (by decide) hb,
    fun s b hs => ⟨fun hb => ?_, fun hb h0 => ?_, fun hb h0 hbad => ?_, fun hb h0 hgood => ?_⟩⟩
  · exact entersFault_of_admission hs (firstFailing_index hb)
  · exact entersFault_of_admission hs ((firstFailing_index_passed hb).trans (firstFailing_preparation h0))
  · exact entersFault_of_admission hs (readiCheck_delayRange hb h0 (fracDelayBad_iff.mpr hbad))
  · have hlegal : (s.buf b).fracDelayBad s.dataWord = false := Bool.eq_false_iff.mpr (mt fracDelayBad_iff.mp hgood)
    exact ⟨_, s.draws, s.draws + 1, s.draws + 2, s.draws + 3,
      exec_of_admission hs (readiCheck_none.mpr ⟨hb, h0, hlegal⟩), advanceDraws_result_frame s readIDraws _⟩

/-- Settles O27: the check is the index alone, and a clear is a resize to the same size. -/
theorem clearResult : Obligations.ClearResult := by
  refine ⟨fun b hb => encodeX_word (by decide) hb, fun s b hs => ⟨fun hb => ?_, fun hb => ?_⟩⟩
  · exact entersFault_of_admission hs (firstFailing_index hb)
  · have hbuf := buf_setBuf_complete s hb (s.buf b).clear
    exact ⟨_, exec_of_admission hs ((clearCheck_none (s := s)).mpr hb),
      (congrArg Buffer.size hbuf).trans (Buffer.clear_size _), congrArg Buffer.cur hbuf,
      fun k => (cell_complete _ b k).trans (s.cell_clear hb k), hbuf, setBuf_complete_frame s b _⟩

end Sys2Proof.Machine

/-! # Arithmetic on zeros, on one, and up to the bits of a NaN (R9, R75, R146) -/

namespace Sys2Proof.Machine.F32

open Sys2Proof

/-! ## Zeros in, zeros out (R75(c)) -/

theorem isZero_negate (a : Sample) : isZero (negate a) = isZero a := by
  rw [Bool.eq_iff_iff, isZero_iff, isZero_iff, magBits_negate]

theorem isZero_add_of_isZero {q : Nat} {a b : Sample} (ha : isZero a = true) (hb : isZero b = true) :
    isZero (add q a b) = true := by
  obtain ⟨hafin, -, haval⟩ := zero_facts ha
  obtain ⟨hbfin, -, hbval⟩ := zero_facts hb
  rw [add_eq_zero hafin hbfin (by rw [haval, hbval, add_zero])]
  exact isZero_mk_zero _

theorem isZero_sub_of_isZero {q : Nat} {a b : Sample} (ha : isZero a = true) (hb : isZero b = true) :
    isZero (sub q a b) = true :=
  isZero_add_of_isZero ha ((isZero_negate b).trans hb)

theorem isZero_of_isInf {x : Sample} (h : isInf x = true) : isZero x = false := by
  rw [isZero_false_iff, (isInf_iff x).mp h]
  decide

/-- R75(c): a zero added to an operand that is no NaN changes no value. -/
theorem sameValue_add_zero {q : Nat} {a z : Sample} (ha : isNaN a = false) (hz : isZero z = true) :
    sameValue (add q a z) a = true := by
  obtain hinf | hfin := inf_or_finite ha
  · simp [sameValue, add_zero_of_nonzero ha (isZero_of_isInf hinf) hz]
  · exact (add_zero_value hfin hz).1

/-! ## One (R12) -/

theorem sub_zero_of_nonzero {q : Nat} {x z : Sample} (hx : isNaN x = false) (hx0 : isZero x = false)
    (hz : isZero z = true) : sub q x z = x :=
  add_zero_of_nonzero hx hx0 ((isZero_negate z).trans hz)

/-- `⊗` by `1.0` changes no bit, of an infinity neither. -/
theorem mul_one_right {q : Nat} {x : Sample} (hx : isNaN x = false) : mul q x one = x := by
  have hfin : isFinite one = true := by decide
  have hmag : mag one = 2 ^ 149 := by decide +kernel
  have hneg : neg one = false := by decide
  obtain hinf | hxfin := inf_or_finite hx
  · have hone0 : isZero one = false := by decide
    have hinfBits : mk (neg x) infBits = x := by rw [← (isInf_iff x).mp hinf, mk_neg_magBits]
    simp [mul, hx, hinf, isZero_of_isInf hinf, finite_cases hfin, hone0, hneg, hinfBits]
  · rw [mul_finite hxfin hfin, hmag, hneg, Bool.bne_false]
    apply eq_of_neg_magBits (neg_round _ _ _)
    rw [magBits_round, mag_eq]
    exact roundMag_exact (Nat.two_pow_pos 149) ((isNaN_false_iff x).mp hx)

/-- R75(b): `1.0` less a coefficient of `[0, 1.0]` lies in that range. -/
theorem one_sub_inRange {q : Nat} {p : Sample} (h : inRange zero one p = true) :
    inRange zero one (sub q one p) = true := by
  have hfin := isFinite_of_inRange h (by decide) (by decide)
  obtain ⟨hone, -, h0, h1⟩ := inRange_zero_iff.mp h
  have hval := val_negate p
  exact add_inRange_zero (by decide) ((isFinite_negate p).trans hfin) hone (by omega) (by omega)

/-! ## Equal up to the bits of a NaN (R9, V1) -/

theorem sameBits_iff {a b : Sample} : sameBits a b = true ↔ a = b ∨ (isNaN a = true ∧ isNaN b = true) := by
  simp [sameBits]

theorem sameBits_refl (a : Sample) : sameBits a a = true := sameBits_iff.mpr (.inl rfl)

theorem sameBits_symm {a b : Sample} (h : sameBits a b = true) : sameBits b a = true :=
  sameBits_iff.mpr ((sameBits_iff.mp h).imp Eq.symm And.symm)

/-- The number of the draw shows in the bits of a NaN alone: the other branches do not name it. -/
theorem sameBits_add_draw (q q' : Nat) (a b : Sample) : sameBits (add q a b) (add q' a b) = true := by
  unfold add
  split_ifs <;> simp [sameBits_iff]

theorem sameBits_mul_draw (q q' : Nat) (a b : Sample) : sameBits (mul q a b) (mul q' a b) = true := by
  unfold mul
  split_ifs <;> simp [sameBits_iff]

/-- An operation that hands NaNs on, and whose draw shows in a NaN alone, respects equality up to NaN bits. -/
theorem sameBits_congr {op : Nat → Sample → Sample → Sample}
    (hnan : ∀ {q a b}, isNaN a = true ∨ isNaN b = true → isNaN (op q a b) = true)
    (hdraw : ∀ q q' a b, sameBits (op q a b) (op q' a b) = true) {q q' : Nat} {a a' b b' : Sample}
    (ha : sameBits a a' = true) (hb : sameBits b b' = true) : sameBits (op q a b) (op q' a' b') = true := by
  obtain rfl | ⟨ha, ha'⟩ := sameBits_iff.mp ha
  · obtain rfl | ⟨hb, hb'⟩ := sameBits_iff.mp hb
    · exact hdraw q q' a b
    · exact sameBits_iff.mpr (.inr ⟨hnan (.inr hb), hnan (.inr hb')⟩)
  · exact sameBits_iff.mpr (.inr ⟨hnan (.inl ha), hnan (.inl ha')⟩)

theorem sameBits_add {q q' : Nat} {a a' b b' : Sample} (ha : sameBits a a' = true) (hb : sameBits b b' = true) :
    sameBits (add q a b) (add q' a' b') = true :=
  sameBits_congr (fun h => (isNaN_of_operand h).1) sameBits_add_draw ha hb

theorem sameBits_mul {q q' : Nat} {a a' b b' : Sample} (ha : sameBits a a' = true) (hb : sameBits b b' = true) :
    sameBits (mul q a b) (mul q' a' b') = true :=
  have hnan : ∀ {q a b}, isNaN a = true ∨ isNaN b = true → isNaN (mul q a b) = true := fun h => by
    obtain ⟨-, -, hmul, -⟩ := isNaN_of_operand h
    exact hmul
  sameBits_congr hnan sameBits_mul_draw ha hb

end Sys2Proof.Machine.F32

namespace Sys2Proof.Machine

open Sys2Proof

/-! ## The one-pole low-pass (R146) -/

theorem sameBits_onePole_draw (q q' : Nat) (x p state : Sample) :
    sameBits (onePole q x p state) (onePole q' x p state) = true :=
  F32.sameBits_add
    (F32.sameBits_mul (F32.sameBits_refl x) (F32.sameBits_add_draw q q' F32.one (F32.negate p)))
    (F32.sameBits_mul_draw _ _ state p)

/-- R146, R149: the low-pass of a zero and a zero state, whatever its operations draw, is a zero: a legal coefficient and
`1.0` less it are finite. -/
theorem isZero_lowPass {q0 q1 q2 q3 : Nat} {x p state : Sample} (hx : F32.isZero x = true)
    (hstate : F32.isZero state = true) (hp : inRange F32.zero Config.poleMax p = true) :
    F32.isZero (F32.add q3 (F32.mul q1 x (F32.sub q0 F32.one p)) (F32.mul q2 state p)) = true := by
  have hmax : F32.val Config.poleMax ≤ F32.val F32.one := by decide +kernel
  obtain ⟨-, hnan, h0, h1⟩ := F32.inRange_zero_iff.mp hp
  have hunit : inRange F32.zero F32.one p = true := F32.inRange_zero_iff.mpr ⟨by decide, hnan, h0, h1.trans hmax⟩
  have hfin : ∀ {v}, inRange F32.zero F32.one v = true → F32.isFinite v = true := fun h =>
    F32.isFinite_of_inRange h (by decide) (by decide)
  exact F32.isZero_add_of_isZero (F32.isZero_mul_zero_left hx (hfin (F32.one_sub_inRange hunit)))
    (F32.isZero_mul_zero_left hstate (hfin hunit))

/-- Settles O47: with the coefficient a zero the tap is scaled by `1.0`, and the state, scaled by that zero, adds a zero. -/
theorem undampedFilterPassesTheTap : Obligations.UndampedFilterPassesTheTap := by
  intro q d p last hp hlast hd
  have hscaled : F32.mul (q + 1) d (F32.sub q F32.one p) = d := by
    rw [F32.sub_zero_of_nonzero (by decide) (by decide) hp, F32.mul_one_right hd]
  have hrest : F32.isZero (F32.mul (q + 2) last p) = true := F32.isZero_mul_zero_right hlast hp
  rw [onePole, hscaled]
  exact F32.sameValue_add_zero hd hrest

end Sys2Proof.Machine

/-! # The allpass and comb stages (R141, R145, R149, R150) -/

namespace Sys2Proof.Machine

open Sys2Proof

/-! ## The checks of the stage commands (R212, R213, R214) -/

section Checks

variable {l : List (Bool × Cause)} {count i d : Nat} {B : Buffer}

theorem firstFailing_count (h : count ≤ i) :
    firstFailing ((decide (count ≤ i), .badIndex) :: l) = some .badIndex := by
  simp [firstFailing, h]

theorem firstFailing_count_passed (h : i < count) :
    firstFailing ((decide (count ≤ i), .badIndex) :: l) = firstFailing l := by
  simp [firstFailing, h]

theorem firstFailing_delay (h : B.size ≤ d) :
    firstFailing ((B.delayBad d, .delayRange) :: l) = some .delayRange := by
  simp [firstFailing, Buffer.delayBad, h]

/-- R223, R224: a command whose checks are index, preparation and delay, in that order, faults with the first that fails. -/
theorem entersFault_of_stage_checks {instr : Instr} {s : State} (hs : s.accepting)
    (hadm : admission instr s = firstFailing
      [(decide (count ≤ i), .badIndex), (B.unsized, .notPrepared), (B.delayBad d, .delayRange)]) :
    (count ≤ i → entersFault s (exec instr s) .badIndex) ∧
      (i < count → B.size = 0 → entersFault s (exec instr s) .notPrepared) ∧
      (i < count → B.size ≠ 0 → B.size ≤ d → entersFault s (exec instr s) .delayRange) := by
  refine ⟨fun hi => ?_, fun hi h0 => ?_, fun hi h0 hd => ?_⟩
  all_goals refine entersFault_of_admission hs (hadm.trans ?_)
  · exact firstFailing_count hi
  · exact (firstFailing_count_passed hi).trans (firstFailing_preparation h0)
  · exact (firstFailing_count_passed hi).trans ((firstFailing_preparation_passed h0).trans (firstFailing_delay hd))

end Checks

/-! ## One `BufWrite` (R122) -/

/-- R122: one `BufWrite` to buffer `b`, whatever else the command does, is seen in buffer `b` alone. -/
theorem pushedOnce_of_bufs {s t : State} {b : Nat} {v : Sample} (hb : b < 15)
    (ht : t.bufs = (s.setBuf b ((s.buf b).push v)).bufs) : pushedOnce s t b v ∧ otherBuffersSame s t b := by
  have hbuf : t.buf b = (s.buf b).push v := (State.buf_congr ht b).trans (s.buf_setBuf_self _ hb)
  refine ⟨⟨fun k => ?_, congrArg Buffer.cur hbuf, (congrArg Buffer.size hbuf).trans (Buffer.push_size _ _)⟩,
    fun b' hne => ?_⟩
  · rw [← s.cell_push hb v k, State.cell, State.cell, State.buf_congr ht]
  · exact (State.buf_congr ht b').trans (s.buf_setBuf_ne _ hne)

/-! ## `APF` -/

theorem apfRun_bufs (i : Nat) (s : State) :
    (apfRun i s).bufs = (s.setBuf (apBuf i) ((s.buf (apBuf i)).push (apfStored i s))).bufs := by
  simp [apfRun]

theorem apBuf_lt {i : Nat} (h : i < 4) : apBuf i < 15 := by
  show 1 + i < 15
  omega

/-! `apfResult` in `Sys2Proof.Machine` is the model's function; the theorem of that name stands one namespace deeper. -/

namespace Stages

/-- Settles O28: the checks fail in R141's order, and the pseudocode is one `BufWrite` and a result. -/
theorem apfResult : Obligations.ApfResult := by
  refine ⟨fun i hi => encodeX_word (by decide) hi, fun s i hs => ?_⟩
  obtain ⟨hindex, hprepared, hdelay⟩ := entersFault_of_stage_checks (instr := .apf i) hs rfl
  refine ⟨hindex, hprepared, hdelay, fun hi hd => ?_⟩
  obtain ⟨hpushed, hothers⟩ := pushedOnce_of_bufs (apBuf_lt hi) (apfRun_bufs i s)
  exact ⟨_, s.draws, s.draws + 1, s.draws + 2, s.draws + 3,
    exec_of_admission hs (apfCheck_none.mpr ⟨hi, Nat.ne_zero_of_lt hd, hd⟩), hpushed,
    ⟨State.result_dout _ _, answeredWith_respond_of_same rfl rfl rfl _ _⟩, hothers,
    by simp [sameRegisters, effect, apfRun], by simp [sameSetting, effect, apfRun]⟩

end Stages

/-! ## `COMB` -/

section Comb

variable (j : Nat) (s : State)

@[simp] theorem combRun_params : (combRun j s).params = s.params := by simp [combRun]
@[simp] theorem combRun_record : (combRun j s).record = s.record := by simp [combRun]
@[simp] theorem combRun_req : (combRun j s).req = s.req := by simp [combRun]
@[simp] theorem combRun_dout : (combRun j s).dout = combTap j s := State.result_dout _ _

theorem combRun_filters : (combRun j s).filters = (s.setCombLast j (combFiltered j s)).filters := by
  simp [combRun]

theorem combRun_bufs :
    (combRun j s).bufs = (s.setBuf (cBuf j) ((s.buf (cBuf j)).push (combStored j s))).bufs := by
  simp [combRun]

end Comb

theorem cBuf_lt {j : Nat} (h : j < 8) : cBuf j < 15 := by
  show 5 + j < 15
  omega

theorem combLast_combRun (s : State) {j : Nat} (hj : j < 8) (i : Nat) :
    (combRun j s).combLast i = if i = j then combFiltered j s else s.combLast i := by
  have h := s.combLast_setCombLast j i (combFiltered j s)
  rw [State.combLast, ← combRun_filters] at h
  simpa [State.combLast, hj, eq_comm] using h

/-- Settles O29: the checks fail in R145's order, and the pseudocode filters, persists, writes once and returns the tap. -/
theorem combResult : Obligations.CombResult := by
  refine ⟨fun j hj => encodeX_word (by decide) hj, fun s j hs => ?_⟩
  obtain ⟨hindex, hprepared, hdelay⟩ := entersFault_of_stage_checks (instr := .comb j) hs rfl
  refine ⟨hindex, hprepared, hdelay, fun hj hd => ?_⟩
  obtain ⟨hpushed, hothers⟩ := pushedOnce_of_bufs (cBuf_lt hj) (combRun_bufs j s)
  have hlast := combLast_combRun s hj
  obtain ⟨-, htone, hoscillator⟩ := effect_filters (i := .comb j) (by simp) s
  obtain ⟨hphase, hmod⟩ := hoscillator (by simp)
  exact ⟨_, combFiltered j s, s.draws, s.draws + 1, s.draws + 2, s.draws + 3, s.draws + 4, s.draws + 5,
    exec_of_admission hs (combCheck_none.mpr ⟨hj, Nat.ne_zero_of_lt hd, hd⟩), rfl,
    (hlast j).trans (if_pos rfl), fun i hi => (hlast i).trans (if_neg hi), hpushed,
    ⟨combRun_dout j s, answeredWith_respond_of_same rfl rfl rfl _ _⟩, hothers, combRun_params j s,
    combRun_record j s, htone (by simp), hphase, hmod, by simp [sameSetting, effect, combRun]⟩

/-! ## Silence (R149) -/

/-- R64: a tap of a sized buffer is one of its cells in use. -/
theorem isZero_read_of_silent {s : State} {b : Nat} (hs : (s.buf b).size ≠ 0)
    (h : ∀ k < (s.buf b).size, F32.isZero (s.cell b k) = true) (n : Nat) :
    F32.isZero ((s.buf b).read n) = true :=
  h _ (Buffer.idx_lt hs n)

/-- A zero written into a silent buffer keeps it silent. -/
theorem silent_of_pushedOnce {s t : State} {b : Nat} {v : Sample} (ht : pushedOnce s t b v)
    (hv : F32.isZero v = true) (h : ∀ k < (s.buf b).size, F32.isZero (s.cell b k) = true) :
    (t.buf b).size = (s.buf b).size ∧ ∀ k < (s.buf b).size, F32.isZero (t.cell b k) = true := by
  obtain ⟨hcell, -, hsize⟩ := ht
  refine ⟨hsize, fun k hk => ?_⟩
  rw [hcell]
  split
  · exact hv
  · exact h k hk

/-- Settles O44: every operand of the two formulas is a zero but the coefficients, which are finite. -/
theorem silenceIsFixedOnThePlate : Obligations.SilenceIsFixedOnThePlate := by
  intro s hs hparams hx
  refine ⟨fun i hi hd hsilent => ?_, fun j hj hd hsilent hlast => ?_⟩
  · obtain ⟨-, hapf⟩ := Stages.apfResult
    obtain ⟨-, -, -, hran⟩ := hapf s i hs
    obtain ⟨t, q0, q1, q2, q3, ht, hpushed, ⟨hdout, -⟩, -⟩ := hran hi hd
    have htap := isZero_read_of_silent (Nat.ne_zero_of_lt hd) hsilent (s.apDelay i)
    have hscaled : ∀ {q a}, F32.isZero a = true → F32.isZero (F32.mul q a 0x3F333333#32) = true := fun ha =>
      F32.isZero_mul_zero_left ha (by decide)
    refine ⟨t, ht, ?_, silent_of_pushedOnce hpushed (F32.isZero_add_of_isZero hx (hscaled htap)) hsilent⟩
    rw [hdout]
    exact F32.isZero_sub_of_isZero htap (hscaled hx)
  · obtain ⟨-, hcombs⟩ := combResult
    obtain ⟨-, -, -, hran⟩ := hcombs s j hs
    obtain ⟨t, filt, q0, q1, q2, q3, q4, q5, ht, hfilt, htlast, -, hpushed, ⟨hdout, -⟩, -⟩ := hran hj hd
    obtain ⟨-, hlegal, -⟩ := hparams
    obtain ⟨-, hfb, hdamp⟩ := hlegal j hj
    have htap := isZero_read_of_silent (Nat.ne_zero_of_lt hd) hsilent (s.combDelay j)
    have hfiltered : F32.isZero filt = true := hfilt ▸ isZero_lowPass htap hlast hdamp
    have hstored : F32.isZero (F32.add q5 s.req.data (F32.mul q4 filt (s.combFb j))) = true :=
      F32.isZero_add_of_isZero hx
        (F32.isZero_mul_zero_left hfiltered (F32.isFinite_of_inRange hfb (by decide) (by decide)))
    exact ⟨t, ht, hdout ▸ htap, htlast ▸ hfiltered, silent_of_pushedOnce hpushed hstored hsilent⟩

/-! ## Two comb stages (R150) -/

/-- The same size and cursor, and the same cells up to the bits of a NaN. -/
structure SameBuffer (B B' : Buffer) : Prop where
  size : B.size = B'.size
  cur : B.cur = B'.cur
  cells : ∀ i, sameBits (Mem.read B.mem i) (Mem.read B'.mem i) = true

theorem SameBuffer.refl (B : Buffer) : SameBuffer B B := ⟨rfl, rfl, fun _ => F32.sameBits_refl _⟩

theorem SameBuffer.symm {B B' : Buffer} (h : SameBuffer B B') : SameBuffer B' B :=
  ⟨h.size.symm, h.cur.symm, fun i => F32.sameBits_symm (h.cells i)⟩

/-- R122: two writes of the same value, up to the bits of a NaN. -/
theorem SameBuffer.push (B : Buffer) {v v' : Sample} (h : sameBits v v' = true) :
    SameBuffer (B.push v) (B.push v') := by
  refine ⟨rfl, rfl, fun i => ?_⟩
  rw [Buffer.push_mem, Buffer.push_mem, Mem.read_write, Mem.read_write]
  split
  · exact h
  · exact F32.sameBits_refl _

theorem accepting_combRun {s : State} (hs : s.accepting) (j : Nat) : (combRun j s).accepting := by
  simpa [State.accepting, State.faulted] using hs

theorem exec_comb_runs {s : State} {j : Nat} (hs : s.accepting) (hj : j < 8)
    (hd : s.combDelay j < (s.buf (cBuf j)).size) : exec (.comb j) s = .next (combRun j s) :=
  exec_of_admission hs (combCheck_none.mpr ⟨hj, Nat.ne_zero_of_lt hd, hd⟩)

theorem buf_combRun_self (s : State) {j : Nat} (hj : j < 8) :
    (combRun j s).buf (cBuf j) = (s.buf (cBuf j)).push (combStored j s) :=
  (State.buf_congr (combRun_bufs j s) _).trans (s.buf_setBuf_self _ (cBuf_lt hj))

theorem buf_combRun_ne (s : State) {j b : Nat} (h : b ≠ cBuf j) : (combRun j s).buf b = s.buf b :=
  (State.buf_congr (combRun_bufs j s) b).trans (s.buf_setBuf_ne _ h)

/-! What one comb stage reads, another leaves alone (R140). -/

section Independence

variable (s : State) {j k : Nat}

theorem cBuf_ne (h : j ≠ k) : cBuf j ≠ cBuf k := by
  unfold cBuf
  omega

theorem combDelay_combRun : (combRun k s).combDelay j = s.combDelay j := by simp [State.combDelay]

theorem combTap_combRun (h : j ≠ k) : combTap j (combRun k s) = combTap j s := by
  rw [combTap, buf_combRun_ne s (cBuf_ne h), combDelay_combRun, combTap]

theorem sameBits_combFiltered_combRun (hk : k < 8) (h : j ≠ k) :
    sameBits (combFiltered j s) (combFiltered j (combRun k s)) = true := by
  have hdamp : (combRun k s).combDamp j = s.combDamp j := by simp [State.combDamp]
  rw [combFiltered, combFiltered, combTap_combRun s h, hdamp, combLast_combRun s hk, if_neg h]
  exact sameBits_onePole_draw _ _ _ _ _

theorem sameBits_combStored_combRun (hk : k < 8) (h : j ≠ k) :
    sameBits (combStored j s) (combStored j (combRun k s)) = true := by
  have hfb : (combRun k s).combFb j = s.combFb j := by simp [State.combFb]
  have hdata : (combRun k s).dataWord = s.dataWord := by simp [State.dataWord]
  rw [combStored, combStored, hfb, hdata]
  exact F32.sameBits_add (F32.sameBits_refl _)
    (F32.sameBits_mul (sameBits_combFiltered_combRun s hk h) (F32.sameBits_refl _))

/-- R150: stage `j` run before stage `k` or after it leaves its buffer and filter state the same. -/
theorem combRun_comm_at_stage (hj : j < 8) (hk : k < 8) (h : j ≠ k) :
    SameBuffer ((combRun k (combRun j s)).buf (cBuf j)) ((combRun j (combRun k s)).buf (cBuf j)) ∧
      sameBits ((combRun k (combRun j s)).combLast j) ((combRun j (combRun k s)).combLast j) = true := by
  rw [buf_combRun_ne _ (cBuf_ne h), buf_combRun_self s hj, buf_combRun_self _ hj, buf_combRun_ne s (cBuf_ne h),
    combLast_combRun _ hk, if_neg h, combLast_combRun s hj, if_pos rfl, combLast_combRun _ hj, if_pos rfl]
  exact ⟨SameBuffer.push _ (sameBits_combStored_combRun s hk h), sameBits_combFiltered_combRun s hk h⟩

/-- R150: in either order, two stages leave every buffer the same. -/
theorem sameBuffer_combRun_comm (hj : j < 8) (hk : k < 8) (h : j ≠ k) (b : Nat) :
    SameBuffer ((combRun k (combRun j s)).buf b) ((combRun j (combRun k s)).buf b) := by
  by_cases hbj : b = cBuf j
  · rw [hbj]
    exact (combRun_comm_at_stage s hj hk h).1
  by_cases hbk : b = cBuf k
  · rw [hbk]
    exact (combRun_comm_at_stage s hk hj h.symm).1.symm
  · rw [buf_combRun_ne _ hbk, buf_combRun_ne _ hbj, buf_combRun_ne _ hbj, buf_combRun_ne _ hbk]
    exact SameBuffer.refl _

/-- R150: in either order, two stages leave every filter state the same. -/
theorem sameBits_combLast_combRun_comm (hj : j < 8) (hk : k < 8) (h : j ≠ k) (i : Nat) :
    sameBits ((combRun k (combRun j s)).combLast i) ((combRun j (combRun k s)).combLast i) = true := by
  by_cases hij : i = j
  · rw [hij]
    exact (combRun_comm_at_stage s hj hk h).2
  by_cases hik : i = k
  · rw [hik]
    exact F32.sameBits_symm (combRun_comm_at_stage s hk hj h.symm).2
  · rw [combLast_combRun _ hk, if_neg hik, combLast_combRun _ hj, if_neg hij, combLast_combRun _ hj, if_neg hij,
      combLast_combRun _ hk, if_neg hik]
    exact F32.sameBits_refl _

/-- R150: the second of two stages passes its checks where it would have passed them first. -/
theorem exec_comb_after_comb (hs : s.accepting) (hj : j < 8) (h : j ≠ k)
    (hd : s.combDelay j < (s.buf (cBuf j)).size) :
    exec (.comb j) (combRun k s) = .next (combRun j (combRun k s)) := by
  refine exec_comb_runs (accepting_combRun hs k) hj ?_
  rwa [combDelay_combRun, buf_combRun_ne s (cBuf_ne h)]

end Independence

/-- Settles O46: neither stage writes what the other reads, and the draws show in a NaN alone. -/
theorem combStagesCommute : Obligations.CombStagesCommute := by
  intro s j k hs hj hk h hdj hdk
  have hbuf := sameBuffer_combRun_comm s hj hk h
  refine ⟨_, _, _, _, exec_comb_runs hs hj hdj, exec_comb_after_comb s hs hk h.symm hdk, exec_comb_runs hs hk hdk,
    exec_comb_after_comb s hs hj h hdj, ?_, ?_, fun b => ⟨(hbuf b).size, (hbuf b).cur⟩, fun b => (hbuf b).cells,
    sameBits_combLast_combRun_comm s hj hk h⟩
  · rw [combRun_dout, combRun_dout, combTap_combRun s h]
  · rw [combRun_dout, combRun_dout, combTap_combRun s h.symm]

end Sys2Proof.Machine

/-! # Rounding keeps the order of exact results (R75(b)) -/

namespace Sys2Proof.Machine.F32

open Sys2Proof

/-! ## Sums by value -/

/-- An exact integer value, in units of 2^-149, rounded once, with an infinity's value on overflow. -/
def roundVal (z : Int) : Int := z.sign * (magOf (roundMag z.natAbs 1) : Int)

theorem roundVal_of_nonneg {z : Int} (h : 0 ≤ z) : roundVal z = (magOf (roundMag z.natAbs 1) : Int) := by
  obtain rfl | hpos := h.eq_or_lt
  · simp [roundVal, roundMag_zero]
  · rw [roundVal, Int.sign_eq_one_of_pos hpos, one_mul]

theorem roundVal_neg (z : Int) : roundVal (-z) = -roundVal z := by simp [roundVal]

/-- A rounded sum has the rounded value of the exact sum, and is no NaN. -/
theorem add_rounds {q : Nat} {a b : Sample} (ha : isFinite a = true) (hb : isFinite b = true) :
    isNaN (add q a b) = false ∧ val (add q a b) = roundVal (val a + val b) := by
  refine ⟨isNaN_add_of_finite ha (finite_cases hb).1, ?_⟩
  by_cases h0 : val a + val b = 0
  · rw [add_eq_zero ha hb h0, h0, val_eq_zero_iff.mpr (isZero_mk_zero _)]
    rfl
  · rw [add_finite ha hb, if_neg h0, val_eq, neg_round, magBits_round, roundVal]
    obtain hneg | hpos := Int.lt_or_gt_of_ne h0
    · simp [hneg, Int.sign_eq_neg_one_of_neg hneg]
    · simp [hpos.le, Int.sign_eq_one_of_pos hpos]

theorem roundVal_mono_of_nonneg {z w : Int} (hz : 0 ≤ z) (h : z ≤ w) : roundVal z ≤ roundVal w := by
  rw [roundVal_of_nonneg hz, roundVal_of_nonneg (hz.trans h)]
  exact_mod_cast magOf_le_iff.mpr (roundMag_mono one_pos one_pos (by omega))

theorem roundVal_nonneg {z : Int} (h : 0 ≤ z) : 0 ≤ roundVal z := by
  rw [roundVal_of_nonneg h]
  exact Int.natCast_nonneg _

/-- Values of opposite signs keep them, and those of one sign are ordered by their magnitudes. -/
theorem roundVal_mono {z w : Int} (h : z ≤ w) : roundVal z ≤ roundVal w := by
  obtain hz | hz := Int.le_total 0 z
  · exact roundVal_mono_of_nonneg hz h
  have hneg : roundVal z = -roundVal (-z) := by rw [roundVal_neg, neg_neg]
  obtain hw | hw := Int.le_total 0 w
  · have hzero := roundVal_nonneg (z := -z) (by omega)
    exact (by omega : roundVal z ≤ 0).trans (roundVal_nonneg hw)
  · have hwneg : roundVal w = -roundVal (-w) := by rw [roundVal_neg, neg_neg]
    have hmag := roundVal_mono_of_nonneg (z := -w) (w := -z) (by omega) (by omega)
    omega

/-- `⊕` is monotone in its second operand. -/
theorem add_le_add {q q' : Nat} {a b b' : Sample} (ha : isFinite a = true) (hb : isFinite b = true)
    (hb' : isFinite b' = true) (h : val b ≤ val b') : le (add q a b) (add q' a b') = true := by
  obtain ⟨hnan, hval⟩ := add_rounds (q := q) ha hb
  obtain ⟨hnan', hval'⟩ := add_rounds (q := q') ha hb'
  refine le_iff.mpr ⟨hnan, hnan', ?_⟩
  rw [hval, hval']
  exact roundVal_mono (by omega)

/-! ## Products and quotients by a bound of one -/

theorem mag_one : mag one = 2 ^ 149 := by decide +kernel

/-- A product by a factor of magnitude at most `1.0` is finite and no larger than the other factor. -/
theorem mul_shrinks {q : Nat} {a b : Sample} (ha : isFinite a = true) (hb : isFinite b = true)
    (h1 : mag b ≤ mag one) : isFinite (mul q a b) = true ∧ mag (mul q a b) ≤ mag a := by
  have hmag : mag (mul q a b) ≤ mag a := by
    rw [mul_finite ha hb, mag_le_iff, magBits_round]
    refine roundMag_le_of_le (Nat.two_pow_pos 149) ((isFinite_iff a).mp ha).le ?_
    rw [← mag_eq, ← mag_one]
    exact Nat.mul_le_mul_left _ h1
  exact ⟨isFinite_of_natAbs_val_le (by rwa [natAbs_val, natAbs_val]) ha, hmag⟩

/-- A quotient of a finite sample by one that is at least `1.0`, an infinity included, has the sample's sign and a magnitude
that its magnitude bounds and alone decides. -/
theorem div_eq_mk {x u : Sample} (hx : isFinite x = true) (hu : isNaN u = false) (hpos : neg u = false)
    (h1 : mag one ≤ mag u) : ∃ m ≤ magBits x, ∀ q y, magBits y = magBits x → div q y u = mk (neg y) m := by
  have hfin : ∀ {y}, magBits y = magBits x → isFinite y = true := fun hy => by
    rwa [isFinite_iff, hy, ← isFinite_iff]
  obtain hinf | hufin := inf_or_finite hu
  · refine ⟨0, Nat.zero_le _, fun q y hy => ?_⟩
    simp [div, finite_cases (hfin hy), hu, hinf, hpos]
  · rw [mag_one] at h1
    have hu0 : isZero u = false := by
      rw [isZero_false_iff, ne_eq, ← mag_eq_zero_iff]
      exact ((Nat.two_pow_pos 149).trans_le h1).ne'
    refine ⟨roundMag (mag x * 2 ^ 149) (mag u), ?_, fun q y hy => ?_⟩
    · refine roundMag_le_of_le ((Nat.two_pow_pos 149).trans_le h1) ((isFinite_iff x).mp hx).le ?_
      rw [← mag_eq]
      exact Nat.mul_le_mul_left _ h1
    · rw [div_finite (hfin hy) hufin hu0, hpos, Bool.bne_false, round, mag_eq y, hy, ← mag_eq]

/-- `1.0` plus a finite sample that is not negative is at least `1.0`, and not negative. -/
theorem one_add_facts {q : Nat} {t : Sample} (ht : isFinite t = true) (h0 : neg t = false) :
    isNaN (add q one t) = false ∧ neg (add q one t) = false ∧ mag one ≤ mag (add q one t) := by
  have hone : add q one zero = one := add_zero_of_nonzero (by decide) (by decide) (by decide)
  have hval := val_of_not_neg h0
  obtain ⟨-, hnan, hle⟩ := le_iff.mp
    (add_le_add (q := q) (q' := q) (a := one) (b := zero) (by decide) (by decide) ht (by rw [val_zero, hval]; omega))
  have hone1 : val one = mag one := val_of_not_neg (by decide)
  have hone0 : 0 < mag one := by rw [mag_one]; exact Nat.two_pow_pos 149
  rw [hone, hone1] at hle
  have hneg : neg (add q one t) = false := (val_pos_iff (by omega)).mp (by omega)
  exact ⟨hnan, hneg, by rw [val_of_not_neg hneg] at hle; omega⟩

/-! ## Signs -/

theorem negate_mk (sign : Bool) {m : Nat} (h : m < 2 ^ 31) : negate (mk sign m) = mk (!sign) m := by
  rw [negate, neg_mk _ h, magBits_mk _ h]

end Sys2Proof.Machine.F32

/-! # The flutter oscillator and `SIN` (R161 to R164) -/

namespace Sys2Proof.Machine

open Sys2Proof

/-! ## `SIN` (R161) -/

/-- R161 S1: samples equal as values have one representative. -/
theorem canonicalValue_congr {p p' : Sample} (h : sameValue p p' = true) : canonicalValue p = canonicalValue p' := by
  have hcases : (p = p' ∨ F32.isZero p = true ∧ F32.isZero p' = true) ∨
      F32.isNaN p = true ∧ F32.isNaN p' = true := by
    simpa [sameValue] using h
  obtain (rfl | ⟨hz, hz'⟩) | ⟨hn, hn'⟩ := hcases
  · rfl
  · simp [canonicalValue, hz, hz', F32.finite_cases (F32.zero_facts hz).1, F32.finite_cases (F32.zero_facts hz').1]
  · simp [canonicalValue, hn, hn']

theorem isFinite_canonicalValue {p : Sample} (hp : F32.isFinite p = true) :
    F32.isFinite (canonicalValue p) = true := by
  rw [canonicalValue, (F32.finite_cases hp).1, if_neg Bool.false_ne_true]
  split
  · decide
  · exact hp

/-- R161 S2: `SIN` of a finite argument lies in `[-1, 1]`, for both choices. -/
theorem sinFn_inRange (c : Config.Choice) {p : Sample} (hp : F32.isFinite p = true) :
    inRange F32.minusOne F32.one (sinFn c p) = true := by
  have hunit : F32.le F32.minusOne F32.one = true := by decide +kernel
  simp only [sinFn, isFinite_canonicalValue hp, if_true]
  split
  · decide +kernel
  · exact inRange_clampS hunit _

theorem mag_sinFn_le (c : Config.Choice) {p : Sample} (hp : F32.isFinite p = true) :
    F32.mag (sinFn c p) ≤ F32.mag F32.one := by
  have hminus : F32.val F32.minusOne = -F32.mag F32.one := by decide +kernel
  have hone : F32.val F32.one = F32.mag F32.one := F32.val_of_not_neg (by decide)
  have habs := F32.natAbs_val (sinFn c p)
  obtain ⟨-, -, -, hlo, hhi⟩ := F32.inRange_iff.mp (sinFn_inRange c hp)
  omega

/-- Settles O56: `SIN` sees its argument's representative alone, is clamped, and is `+0.0` where that is a zero. -/
theorem sineProperties : Obligations.SineProperties := by
  intro c p p'
  refine ⟨fun h => by rw [sinFn, sinFn, canonicalValue_congr h], fun hp => ?_, rfl⟩
  have hrange := sinFn_inRange c hp
  obtain ⟨-, -, hnan, -⟩ := F32.inRange_iff.mp hrange
  obtain ⟨hlo, hhi⟩ := Bool.and_eq_true_iff.mp hrange
  exact ⟨hnan, hlo, hhi⟩

/-! ## `FLUT` (R162, R163) -/

@[simp] theorem flutRun_filters (s : State) :
    (flutRun s).filters = { s.filters with flutPhase := flutPhaseNext s, modDly := flutDelay s } := by
  simp [flutRun]

@[simp] theorem flutRun_bufs (s : State) : (flutRun s).bufs = s.bufs := by simp [flutRun]
@[simp] theorem flutRun_params (s : State) : (flutRun s).params = s.params := by simp [flutRun]
@[simp] theorem flutRun_record (s : State) : (flutRun s).record = s.record := by simp [flutRun]
@[simp] theorem flutRun_req (s : State) : (flutRun s).req = s.req := by simp [flutRun]
@[simp] theorem flutRun_dout (s : State) : (flutRun s).dout = flutDelay s := State.result_dout _ _

theorem exec_flut_runs {s : State} (hs : s.accepting) : exec .flut s = .next (flutRun s) :=
  exec_of_admission hs rfl

/-- Settles O30: the pseudocode of R162, its four operations drawing in turn. -/
theorem flutResult : Obligations.FlutResult := by
  refine ⟨by decide, fun s hs => ?_⟩
  exact ⟨_, _, _, s.draws, s.draws + 1, s.draws + 2, s.draws + 3, exec_flut_runs hs, rfl, rfl,
    congrArg Filters.flutPhase (flutRun_filters s), congrArg Filters.modDly (flutRun_filters s),
    ⟨by simp, by rw [flutRun_filters]; exact answeredWith_respond_of_same rfl rfl rfl _ _⟩, by simp, by simp,
    flutRun_bufs s, flutRun_params s, flutRun_record s, by simp [sameSetting, flutRun]⟩

/-- R163: the advanced phase is in `[0, TWO_PI)`. -/
theorem flutPhaseNext_inRange {s : State} (hphase : s.PhaseInv)
    (hinc : inRange F32.zero Config.pi s.params.flutInc = true) :
    F32.le F32.zero (flutPhaseNext s) = true ∧ F32.lt (flutPhaseNext s) Config.twoPi = true :=
  advancePhase_inRange s.draws hphase.1 hphase.2 hinc

theorem isFinite_flutPhaseNext {s : State} (hphase : s.PhaseInv)
    (hinc : inRange F32.zero Config.pi s.params.flutInc = true) : F32.isFinite (flutPhaseNext s) = true := by
  obtain ⟨h0, h1⟩ := flutPhaseNext_inRange hphase hinc
  exact F32.isFinite_of_inRange (Bool.and_eq_true_iff.mpr ⟨h0, F32.le_of_lt h1⟩) (by decide) (by decide)

/-- Settles O41: a `FLUT` that is turned away keeps the phase, one that runs advances it within the range. -/
theorem phaseStaysInRange : Obligations.PhaseStaysInRange := by
  intro s t hphase hinc ht
  obtain ⟨⟨-, -, -, hfilters, -⟩, -⟩ | ⟨-, rfl⟩ := exec_frame ht
  · exact hphase.congr (by rw [hfilters])
  · show (flutRun s).PhaseInv
    rw [State.PhaseInv, flutRun_filters]
    exact flutPhaseNext_inRange hphase hinc

/-! ## The modulated delay (R164) -/

/-- R164: the modulation `FLUT_DEPTH ⊗ SIN(p)` is finite and no larger than the depth. -/
theorem modulation_bounded {q : Nat} {depth p : Sample} (c : Config.Choice) (hdepth : F32.isFinite depth = true)
    (hp : F32.isFinite p = true) :
    F32.isFinite (F32.mul q depth (sinFn c p)) = true ∧ F32.mag (F32.mul q depth (sinFn c p)) ≤ F32.mag depth :=
  F32.mul_shrinks hdepth (isFinite_sinFn c hp) (mag_sinFn_le c hp)

/-- R164: `⊕` keeps the order, so that the modulation's bounds carry over to the delay. -/
theorem flutDelay_between {s : State} (hphase : s.PhaseInv)
    (hinc : inRange F32.zero Config.pi s.params.flutInc = true)
    (hbase : inRange F32.zero Config.dlyMax s.params.tapeBase = true)
    (hdepth : inRange F32.zero Config.dlyMax s.params.flutDepth = true) (q : Nat) :
    F32.le (F32.sub q s.params.tapeBase s.params.flutDepth) (flutDelay s) = true ∧
      F32.le (flutDelay s) (F32.add q s.params.tapeBase s.params.flutDepth) = true := by
  obtain ⟨hbfin, -, -⟩ := F32.delay_facts hbase
  obtain ⟨hdfin, hdval, -⟩ := F32.delay_facts hdepth
  obtain ⟨hmfin, hmmag⟩ := modulation_bounded (q := s.draws + 2) s.impl.sine hdfin (isFinite_flutPhaseNext hphase hinc)
  have habs := F32.natAbs_val (F32.mul (s.draws + 2) s.params.flutDepth (sinFn s.impl.sine (flutPhaseNext s)))
  have hnegate := F32.val_negate s.params.flutDepth
  exact ⟨F32.add_le_add hbfin ((F32.isFinite_negate _).trans hdfin) hmfin (by omega),
    F32.add_le_add hbfin hmfin hdfin (by omega)⟩

/-- Settles O42: the delay latched by `FLUT` is between the two sums, so it is no NaN. -/
theorem modulatedDelayWithinDepth : Obligations.ModulatedDelayWithinDepth := by
  intro s hs hphase hinc hbase hdepth
  have hbetween := flutDelay_between hphase hinc hbase hdepth
  obtain ⟨-, hnan, -⟩ := F32.le_iff.mp (hbetween 0).1
  refine ⟨flutRun s, exec_flut_runs hs, ?_⟩
  rw [flutRun_filters]
  exact ⟨hnan, hbetween⟩

/-- Settles O48: a zero depth scales the finite sine to a zero, which added to the base keeps its value. -/
theorem flutterWithoutDepthIsBase : Obligations.FlutterWithoutDepthIsBase := by
  intro s hs hphase hinc hdepth hbase
  refine ⟨flutRun s, exec_flut_runs hs, ?_⟩
  rw [flutRun_filters]
  exact F32.sameValue_add_zero hbase
    (F32.isZero_mul_zero_left hdepth (isFinite_sinFn _ (isFinite_flutPhaseNext hphase hinc)))

end Sys2Proof.Machine

/-! # Saturation (R170 to R173) -/

namespace Sys2Proof.Machine

open Sys2Proof

/-! ## The default `SATFN` (R171) -/

/-- R171: at any drive a NaN stays one. -/
theorem isNaN_satFn (c : Config.Choice) {q : Nat} {x : Sample} (drive : Sample) (hx : F32.isNaN x = true) :
    F32.isNaN (satFn c q x drive) = true := by
  cases c <;> simp [satFn, satDefault, satUnspecified, hx]

theorem abs_of_magBits_eq {x y : Sample} (h : F32.magBits y = F32.magBits x) : F32.abs y = F32.abs x := by
  rw [F32.abs, h, F32.abs]

/-- R171: what the drive makes of a sample, `drive ⊗ abs(x)`: for an infinity `+infinity`, else the rounded product. -/
theorem driven_cases {q : Nat} {x drive : Sample} (h : legalDrive drive = true) (hx : F32.isNaN x = false) :
    (F32.isInf x = true ∧ F32.mul q drive (F32.abs x) = F32.mk false F32.infBits) ∨
    (F32.isFinite x = true ∧
      F32.mul q drive (F32.abs x) = F32.mk false (F32.roundMag (F32.mag drive * F32.mag x) (2 ^ 149))) := by
  obtain ⟨hneg, hfin, hpos, -⟩ := legalDrive_facts h
  obtain ⟨hdnan, hdinf⟩ := F32.finite_cases hfin
  have hmag : F32.mag (F32.abs x) = F32.mag x := by rw [F32.mag_eq, F32.magBits_abs, ← F32.mag_eq]
  obtain hinf | hxfin := F32.inf_or_finite hx
  · have hainf : F32.isInf (F32.abs x) = true := by rwa [F32.isInf_iff, F32.magBits_abs, ← F32.isInf_iff]
    have hd0 : F32.isZero drive = false := by
      rw [F32.isZero_false_iff, ne_eq, ← F32.mag_eq_zero_iff]
      exact hpos.ne'
    exact .inl ⟨hinf, by simp [F32.mul, hx, hdnan, hainf, hd0, F32.isZero_of_isInf hainf, hneg]⟩
  · have hafin : F32.isFinite (F32.abs x) = true := by rwa [F32.isFinite_iff, F32.magBits_abs, ← F32.isFinite_iff]
    exact .inr ⟨hxfin, by rw [F32.mul_finite hfin hafin, hmag, hneg, F32.neg_abs]; rfl⟩

/-- R171, P1: where `drive ⊗ abs(x)` overflows, `1.0 ⊘ drive` is no larger than `x`. -/
theorem ceiling_le_of_overflow {q q' : Nat} {x drive : Sample} (h : legalDrive drive = true)
    (hx : F32.isNaN x = false) (ht : F32.mul q drive (F32.abs x) = F32.mk false F32.infBits) :
    F32.magBits (F32.div q' F32.one drive) ≤ F32.magBits x := by
  obtain ⟨-, -, hpos, -⟩ := legalDrive_facts h
  rw [F32.div_one h, F32.magBits_round]
  obtain ⟨hinf, -⟩ | ⟨hfin, hmul⟩ := driven_cases (q := q) h hx
  · rw [(F32.isInf_iff x).mp hinf]
    exact F32.roundMag_le _ _
  · have hround := congrArg F32.magBits (hmul.symm.trans ht)
    rw [F32.magBits_mk _ (F32.roundMag_lt _ _), F32.magBits_mk _ (by decide), F32.roundMag_eq] at hround
    have hover := (F32.infBits_le_rawRound_iff (Nat.two_pow_pos 149)).mp (inf_eq_right.mp hround)
    refine F32.roundMag_le_of_le hpos ((F32.isFinite_iff x).mp hfin).le ?_
    rw [← F32.mag_eq, Nat.mul_comm (F32.mag x)]
    omega

/-- R171: `drive ⊗ abs(x)` is no NaN and not negative. -/
theorem driven_facts {q : Nat} {x drive : Sample} (h : legalDrive drive = true) (hx : F32.isNaN x = false) :
    F32.isNaN (F32.mul q drive (F32.abs x)) = false ∧ F32.neg (F32.mul q drive (F32.abs x)) = false := by
  obtain ⟨-, e⟩ | ⟨-, e⟩ := driven_cases (q := q) h hx
  · rw [e]
    decide
  · rw [e]
    exact ⟨F32.isNaN_round false _ _, F32.neg_round false _ _⟩

/-- What is equal up to the bits of a NaN and is no NaN is equal. -/
theorem eq_of_sameBits {a b : Sample} (h : sameBits a b = true) (ha : F32.isNaN a = false) : a = b :=
  (F32.sameBits_iff.mp h).resolve_right fun ⟨hnan, _⟩ => by simp [ha] at hnan

/-- R171: the default `SATFN` gives the sign of its argument and a magnitude that the argument's magnitude bounds and alone
decides; no NaN is drawn. -/
theorem satDefault_eq_mk {x drive : Sample} (h : legalDrive drive = true) (hx : F32.isNaN x = false) :
    ∃ m ≤ F32.magBits x, ∀ q y, F32.magBits y = F32.magBits x → satDefault q y drive = F32.mk (F32.neg y) m := by
  obtain ⟨htnan, htneg⟩ := driven_facts (q := 0) h hx
  have hnan : ∀ {y}, F32.magBits y = F32.magBits x → F32.isNaN y = false := fun hy => by
    rwa [F32.isNaN_false_iff, hy, ← F32.isNaN_false_iff]
  have hdriven : ∀ q, F32.mul q drive (F32.abs x) = F32.mul 0 drive (F32.abs x) := fun q =>
    (eq_of_sameBits (F32.sameBits_mul_draw _ _ _ _) htnan).symm
  by_cases ht : F32.mul 0 drive (F32.abs x) = F32.mk false F32.infBits
  · refine ⟨F32.magBits (F32.div 0 F32.one drive), ceiling_le_of_overflow h hx ht, fun q y hy => ?_⟩
    simp [satDefault, hnan hy, abs_of_magBits_eq hy, hdriven, ht, F32.copysign, F32.div_one h]
  · obtain ⟨-, e⟩ | ⟨hxfin, -⟩ := driven_cases (q := 0) h hx
    · exact absurd e ht
    have htfin : F32.isFinite (F32.mul 0 drive (F32.abs x)) = true :=
      (F32.inf_or_finite htnan).resolve_left fun hinf =>
        ht (by rw [← F32.mk_neg_magBits (F32.mul _ _ _), htneg, (F32.isInf_iff _).mp hinf])
    obtain ⟨hunan, huneg, hu1⟩ := F32.one_add_facts (q := 0) htfin htneg
    have hsum : ∀ q, F32.add q F32.one (F32.mul 0 drive (F32.abs x)) =
        F32.add 0 F32.one (F32.mul 0 drive (F32.abs x)) := fun q =>
      (eq_of_sameBits (F32.sameBits_add_draw _ _ _ _) hunan).symm
    obtain ⟨m, hm, hdiv⟩ := F32.div_eq_mk hxfin hunan huneg hu1
    refine ⟨m, hm, fun q y hy => ?_⟩
    simp [satDefault, hnan hy, abs_of_magBits_eq hy, hdriven, ht, hsum, hdiv _ y hy]

/-- Settles O59: `x` and its negation have one magnitude. -/
theorem defaultSaturationIsOdd : Obligations.DefaultSaturationIsOdd := by
  intro q x drive h hx
  obtain ⟨m, hm, hsat⟩ := satDefault_eq_mk h hx
  have hm31 : m < 2 ^ 31 := hm.trans_lt (F32.magBits_lt x)
  rw [hsat q x rfl, hsat q _ (F32.magBits_negate x), F32.neg_negate, F32.negate_mk _ hm31]

/-- Refutes O60: at drive `0x3F88BCE8` and sample `0x717B0D7C` the quotient is `0x3F6FA414`, one unit in the last place
above the ceiling `0x3F6FA413`. -/
theorem not_defaultSaturationMeetsItsCeiling : ¬ Obligations.DefaultSaturationMeetsItsCeiling := by
  intro h
  have hresult : satDefault 0 0x717B0D7C#32 0x3F88BCE8#32 = 0x3F6FA414#32 := by decide +kernel
  have hceiling : F32.div 0 0x3F800000#32 0x3F88BCE8#32 = 0x3F6FA413#32 := by decide +kernel
  have habove : F32.le (F32.abs 0x3F6FA414#32) 0x3F6FA413#32 = false := by decide +kernel
  have hclaim := h 0 0x717B0D7C#32 0x3F88BCE8#32 (by decide +kernel) (by decide)
  rw [hresult, hceiling, habove] at hclaim
  exact Bool.false_ne_true hclaim

/-! ## The unspecified `SATFN` (R170) -/

/-- R170: the contract of the unspecified `SATFN`, at a legal drive. -/
theorem satFree_contract {drive : Sample} (h : legalDrive drive = true) :
    (∀ x q, F32.isNaN x = false → F32.le (F32.abs (satFree.1 x drive)) (F32.div q F32.one drive) = true) ∧
    (∀ x, F32.isNaN x = false →
      F32.neg (satFree.1 x drive) = F32.neg x ∧ F32.mag (satFree.1 x drive) ≤ F32.mag x) ∧
    ∃ g, SatCurve (F32.rat drive : ℝ) g ∧ RoundsCurve Config.freeSatRounding g (fun x => satFree.1 x drive) := by
  obtain ⟨hceiling, hsign, -, hcurve⟩ := satFree.2 drive h
  exact ⟨hceiling, hsign, hcurve⟩

theorem satFn_unspecified {q : Nat} {x drive : Sample} (hx : F32.isNaN x = false) :
    satFn .unspecified q x drive = satFree.1 x drive := by
  simp [satFn, satUnspecified, hx]

/-- R170, P3: either `SATFN` keeps the sign and does not grow; where its argument is no NaN, its result is none. -/
theorem satFn_shrinks (c : Config.Choice) {q : Nat} {x drive : Sample} (h : legalDrive drive = true)
    (hx : F32.isNaN x = false) :
    F32.isNaN (satFn c q x drive) = false ∧ F32.neg (satFn c q x drive) = F32.neg x ∧
      F32.mag (satFn c q x drive) ≤ F32.mag x := by
  cases c with
  | byDefault =>
    obtain ⟨m, hm, hsat⟩ := satDefault_eq_mk h hx
    have hm31 : m < 2 ^ 31 := hm.trans_lt (F32.magBits_lt x)
    have hmnan : m ≤ F32.infBits := hm.trans ((F32.isNaN_false_iff x).mp hx)
    rw [satFn, hsat q x rfl, F32.mag_le_iff, F32.isNaN_false_iff, F32.neg_mk _ hm31, F32.magBits_mk _ hm31]
    exact ⟨hmnan, rfl, hm⟩
  | unspecified =>
    obtain ⟨hceiling, hsign, -⟩ := satFree_contract h
    obtain ⟨hnan, -, -⟩ := F32.le_iff.mp (hceiling x 0 hx)
    rw [satFn_unspecified hx]
    exact ⟨(F32.isNaN_abs _).symm.trans hnan, hsign x hx⟩

theorem isZero_satFn (c : Config.Choice) {q : Nat} {x drive : Sample} (h : legalDrive drive = true)
    (hx : F32.isZero x = true) : F32.isZero (satFn c q x drive) = true := by
  obtain ⟨hfin, hmag, -⟩ := F32.zero_facts hx
  obtain ⟨-, -, hle⟩ := satFn_shrinks c (q := q) h (F32.finite_cases hfin).1
  rw [F32.isZero_iff, ← F32.mag_eq_zero_iff]
  omega

/-- R170, P2, P4: the real curve of the unspecified `SATFN`, whatever it draws. -/
theorem satUnspecified_curve {drive : Sample} (h : legalDrive drive = true) :
    ∃ g, SatCurve (F32.rat drive : ℝ) g ∧
      ∀ q, RoundsCurve Config.freeSatRounding g (fun x => satFn .unspecified q x drive) := by
  obtain ⟨-, -, g, hcurve, hround⟩ := satFree_contract h
  refine ⟨g, hcurve, fun q x hx => ?_⟩
  simp only [satFn_unspecified (F32.finite_cases hx).1]
  exact hround x hx

/-- Settles O57: P3 and P5 hold by the form of the default and by the contract of the unspecified; P1, P2 and P4 by the
contract. -/
theorem saturationProperties : Obligations.SaturationProperties := by
  refine ⟨fun c q x drive h => ⟨isNaN_satFn c drive, fun hx => ?_⟩, fun q q' drive h => ⟨fun x hx => ?_, ?_⟩⟩
  · obtain ⟨hnan, hneg, hmag⟩ := satFn_shrinks c (q := q) h hx
    exact ⟨hnan, hneg, hmag, isZero_satFn c h⟩
  · rw [satFn_unspecified hx]
    exact (satFree_contract h).1 x q' hx
  · obtain ⟨g, ⟨hmono, hslope, htop, hbot, hdiff⟩, hround⟩ := satUnspecified_curve h
    exact ⟨g, hmono, hslope, htop, hbot, hdiff, hround q⟩

/-- R170, P2: two samples off a monotone curve by at most their own rounding are in order up to that rounding. -/
theorem RoundsCurve.val_le_add {n : Nat} {g : ℝ → ℝ} {f f' : Sample → Sample} (hf : RoundsCurve n g f)
    (hf' : RoundsCurve n g f') (hg : Monotone g) {x y : Sample} (hx : F32.isFinite x = true)
    (hy : F32.isFinite y = true) (h : F32.val x ≤ F32.val y) :
    F32.val (f x) ≤ F32.val (f' y) + ((n : Int) + 1) * (F32.spacing (f x) + F32.spacing (f' y) : Nat) := by
  have hU : (0 : ℝ) < 2 ^ 149 := by positivity
  have hrat : ∀ a, (F32.rat a : ℝ) = (F32.val a : ℝ) / 2 ^ 149 := fun a => by simp [F32.rat]
  have horder : g (F32.rat x : ℝ) ≤ g (F32.rat y : ℝ) := by
    apply hg
    rw [hrat, hrat]
    gcongr
  have hbelow := (abs_le.mp (hf x hx)).2
  have habove := (abs_le.mp (hf' y hy)).1
  rw [hrat] at hbelow habove
  have hsum : (F32.val (f x) : ℝ) / 2 ^ 149 ≤
      (F32.val (f' y) + (n + 1) * (F32.spacing (f x) + F32.spacing (f' y))) / 2 ^ 149 := by
    rw [mul_add, add_div, add_div]
    linarith
  have hreal := (div_le_div_iff_of_pos_right hU).mp hsum
  exact_mod_cast hreal

/-- Settles O58: the two results lie off one monotone curve by their own rounding. -/
theorem saturationIsMonotoneUpToRounding : Obligations.SaturationIsMonotoneUpToRounding := by
  intro q q' x y drive h hx hy hle
  obtain ⟨g, ⟨hmono, -⟩, hround⟩ := satUnspecified_curve h
  exact (hround q).val_le_add (hround q') hmono hx hy hle

/-! ## `SAT` (R173) -/

/-- Settles O32: the pseudocode of R173, the value of the default by R171. -/
theorem satResult : Obligations.SatResult := by
  refine ⟨by decide, fun s hs => ?_⟩
  obtain ⟨hresulted, hbufs, hregisters, hsetting⟩ := advanceDraws_result_frame s satDraws
    (satFn s.impl.sat s.draws s.dataWord s.params.tapeDrive)
  refine ⟨satRun s, s.draws, exec_of_admission hs rfl, hresulted, fun hdefault => ?_, hbufs, hregisters, hsetting⟩
  have hdout : (satRun s).dout = satDefault s.draws s.dataWord s.params.tapeDrive := by
    rw [satRun, State.result_dout, hdefault, satFn]
  rw [hdout]
  refine ⟨isNaN_satFn .byDefault s.params.tapeDrive, fun hx => ?_⟩
  refine ⟨_, s.draws + 1, s.draws + 2, s.draws + 3, s.draws + 4, rfl, ?_⟩
  rw [satDefault, State.dataWord, hx, if_neg Bool.false_ne_true]
  rfl

end Sys2Proof.Machine

/-! # The tape channels (R164, R166, R174) -/

namespace Sys2Proof.Machine

open Sys2Proof

/-! ## `TAPE` (R166) -/

theorem tapeCheck_delayRange {c : Nat} {s : State} (hc : c < 2) (h0 : (s.buf (tBuf c)).size ≠ 0)
    (h : (s.buf (tBuf c)).fracDelayBad s.filters.modDly = true) : tapeCheck c s = some .delayRange := by
  refine (firstFailing_count_passed hc).trans ((firstFailing_preparation_passed h0).trans ?_)
  simp [firstFailing, h]

theorem tBuf_lt {c : Nat} (h : c < 2) : tBuf c < 15 := by
  show 13 + c < 15
  omega

theorem exec_tape_runs {s : State} {c : Nat} (hs : s.accepting) (hc : c < 2) (h0 : (s.buf (tBuf c)).size ≠ 0)
    (h : (s.buf (tBuf c)).fracDelayBad s.filters.modDly = false) : exec (.tape c) s = .next (tapeRun c s) :=
  exec_of_admission hs (tapeCheck_none.mpr ⟨hc, h0, h⟩)

section Tape

variable (c : Nat) (s : State)

@[simp] theorem tapeRun_params : (tapeRun c s).params = s.params := by simp [tapeRun]
@[simp] theorem tapeRun_record : (tapeRun c s).record = s.record := by simp [tapeRun]
@[simp] theorem tapeRun_dout : (tapeRun c s).dout = tapeToned c s := State.result_dout _ _

theorem tapeRun_filters : (tapeRun c s).filters = (s.setToneState c (tapeToned c s)).filters := by
  simp [tapeRun]

theorem tapeRun_bufs :
    (tapeRun c s).bufs = (s.setBuf (tBuf c) ((s.buf (tBuf c)).push (tapeStored c s))).bufs := by
  simp [tapeRun]

end Tape

theorem toneState_tapeRun (s : State) {c : Nat} (hc : c < 2) (i : Nat) :
    (tapeRun c s).toneState i = if i = c then tapeToned c s else s.toneState i := by
  have h := s.toneState_setToneState c i (tapeToned c s)
  rw [State.toneState, ← tapeRun_filters] at h
  simpa [State.toneState, hc, eq_comm] using h

/-- Settles O31: the checks fail in R166's order, and the pseudocode reads, filters, persists, saturates and writes once. -/
theorem tapeResult : Obligations.TapeResult := by
  refine ⟨fun c hc => encodeX_word (by decide) hc,
    fun s c hs => ⟨fun hc => ?_, fun hc h0 => ?_, fun hc h0 hbad => ?_, fun hc h0 hgood => ?_⟩⟩
  · exact entersFault_of_admission hs (firstFailing_count hc)
  · exact entersFault_of_admission hs ((firstFailing_count_passed hc).trans (firstFailing_preparation h0))
  · exact entersFault_of_admission hs (tapeCheck_delayRange hc h0 (fracDelayBad_iff.mpr hbad))
  · have hlegal : (s.buf (tBuf c)).fracDelayBad s.filters.modDly = false :=
      Bool.eq_false_iff.mpr (mt fracDelayBad_iff.mp hgood)
    obtain ⟨hpushed, hothers⟩ := pushedOnce_of_bufs (tBuf_lt hc) (tapeRun_bufs c s)
    have htone := toneState_tapeRun s hc
    obtain ⟨hcomb, -, hoscillator⟩ := effect_filters (i := .tape c) (by simp) s
    obtain ⟨hphase, hmod⟩ := hoscillator (by simp)
    exact ⟨_, tapeToned c s, s.draws, s.draws + 4, s.draws + 5, s.draws + 6, s.draws + 7, s.draws + 8, s.draws + 13,
      s.draws + 14, exec_tape_runs hs hc h0 hlegal, rfl, (htone c).trans (if_pos rfl),
      fun i hi => (htone i).trans (if_neg hi), hpushed,
      ⟨tapeRun_dout c s, answeredWith_respond_of_same rfl rfl rfl _ _⟩, hothers, tapeRun_params c s,
      tapeRun_record c s, hcomb (by simp), hphase, hmod, by simp [sameSetting, tapeRun]⟩

/-! ## A delay within the buffer (R164, R214) -/

/-- R214: a delay between zero and the largest one of a buffer is legal. -/
theorem fracDelayBad_of_between {B : Buffer} {d : Sample} (h0 : F32.le F32.zero d = true)
    (h1 : F32.le d (F32.toS (B.size - 1)) = true) : B.fracDelayBad d = false := by
  obtain ⟨-, hnan, -⟩ := F32.le_iff.mp h0
  exact fracDelayBad_false.mpr ⟨hnan, F32.lt_eq_false_of_le h0, F32.lt_eq_false_of_le h1⟩

/-- R214: a legal delay of a buffer that a size register can describe lies in `[0, DLY_MAX]`. -/
theorem inRange_of_fracDelayBad {B : Buffer} {d : Sample} (hB : B.size ≤ Config.u20Max) (h : B.fracDelayBad d = false) :
    inRange F32.zero Config.dlyMax d = true := by
  obtain ⟨hnan, hlow, hhigh⟩ := fracDelayBad_false.mp h
  have hlast : B.size - 1 ≤ Config.u20Max := (Nat.sub_le _ _).trans hB
  obtain ⟨hfin, hval⟩ := F32.toS_exact hlast
  have hmax : F32.val Config.dlyMax = (Config.u20Max : Int) * 2 ^ 149 := by decide +kernel
  have h0 : 0 ≤ F32.val d := by
    rw [← Bool.not_eq_true, F32.lt_iff, F32.val_zero] at hlow
    exact not_lt.mp fun hneg => hlow ⟨hnan, F32.isNaN_zero, hneg⟩
  have h1 : F32.val d ≤ F32.val (F32.toS (B.size - 1)) := by
    rw [← Bool.not_eq_true, F32.lt_iff] at hhigh
    exact not_lt.mp fun hgt => hhigh ⟨(F32.finite_cases hfin).1, hnan, hgt⟩
  exact F32.inRange_zero_iff.mpr ⟨by decide, hnan, h0, by omega⟩

/-- Settles O43: the bounds on the two sums are bounds on the delay between them, which `TAPE` then accepts. -/
theorem tapeAfterFlutDoesNotFault : Obligations.TapeAfterFlutDoesNotFault := by
  intro s c q hs hphase hinc hbase hdepth hc h0 _ hlow hhigh
  obtain ⟨hge, hle⟩ := flutDelay_between hphase hinc hbase hdepth q
  have hbuf : (flutRun s).buf (tBuf c) = s.buf (tBuf c) := State.buf_congr (flutRun_bufs s) _
  have hlegal : ((flutRun s).buf (tBuf c)).fracDelayBad (flutRun s).filters.modDly = false := by
    rw [hbuf, flutRun_filters]
    exact fracDelayBad_of_between (F32.le_trans hlow hge) (F32.le_trans hle hhigh)
  have haccepting : (flutRun s).accepting := by simpa [State.accepting, State.faulted] using hs
  refine ⟨_, _, exec_flut_runs hs, exec_tape_runs haccepting hc (by rw [hbuf]; exact h0) hlegal, ?_⟩
  simpa [State.faulted] using hs.2

/-! ## Silence (R174) -/

/-- R75(g): the fraction of a delay is finite: its value is below one. -/
theorem isFinite_fracPart {q : Nat} {d : Sample} (h : inRange F32.zero Config.dlyMax d = true) :
    F32.isFinite (fracPart q d) = true := by
  obtain ⟨-, hval, -⟩ := F32.delay_facts h
  have hfrac : F32.val (fracPart q d) = F32.val d - (F32.floor d : Int) * 2 ^ 149 := F32.val_sub_floor h
  have hone : F32.val F32.one = 2 ^ 149 := by decide +kernel
  have hdiv := Nat.div_add_mod (F32.mag d) (2 ^ 149)
  have hmod := Nat.mod_lt (F32.mag d) (Nat.two_pow_pos 149)
  rw [F32.floor] at hfrac
  exact F32.isFinite_of_natAbs_val_le (c := F32.one) (by omega) (by decide)

/-- R125: the interpolation of two zeros by a finite fraction is a zero. -/
theorem isZero_interpolate {q : Nat} {f a c : Sample} (hf : F32.isFinite f = true) (ha : F32.isZero a = true)
    (hc : F32.isZero c = true) : F32.isZero (interpolate q f a c) = true :=
  F32.isZero_add_of_isZero ha (F32.isZero_mul_zero_right hf (F32.isZero_sub_of_isZero hc ha))

/-- R174: a legal interpolated read of a silent buffer is a zero. -/
theorem isZero_readI_of_silent {s : State} {b : Nat} {d : Sample} (q : Nat) (h0 : (s.buf b).size ≠ 0)
    (hB : (s.buf b).size ≤ Config.u20Max) (hd : (s.buf b).fracDelayBad d = false)
    (h : ∀ k < (s.buf b).size, F32.isZero (s.cell b k) = true) :
    F32.isZero ((s.buf b).readI q d) = true :=
  isZero_interpolate (isFinite_fracPart (inRange_of_fracDelayBad hB hd)) (isZero_read_of_silent h0 h _)
    (isZero_read_of_silent h0 h _)

/-- Settles O45: the tap, the filtered tap and the saturated one are zeros, and so is what is written. -/
theorem silenceIsFixedOnTheTape : Obligations.SilenceIsFixedOnTheTape := by
  intro s c hs hparams hx hc h0 hB hd hsilent hstate
  obtain ⟨-, htapes⟩ := tapeResult
  obtain ⟨-, -, -, hran⟩ := htapes s c hs
  have hgood := mt fracDelayBad_iff.mpr (Bool.eq_false_iff.mp hd)
  obtain ⟨t, toned, q0, q1, q2, q3, q4, q5, q6, q7, ht, htoned, httone, -, hpushed, ⟨hdout, -⟩, -⟩ := hran hc h0 hgood
  obtain ⟨-, -, -, -, -, htone, hfb, hdrive⟩ := hparams
  have htap := isZero_readI_of_silent q0 h0 hB hd hsilent
  have hfiltered : F32.isZero toned = true := htoned ▸ isZero_lowPass htap hstate htone
  have hsaturated : F32.isZero (satFn s.impl.sat q5 toned s.params.tapeDrive) = true :=
    isZero_satFn _ hdrive hfiltered
  have hstored := F32.isZero_add_of_isZero (q := q7) hx
    (F32.isZero_mul_zero_left (q := q6) hsaturated (F32.isFinite_of_inRange hfb (by decide) (by decide)))
  exact ⟨t, ht, hdout ▸ hfiltered, httone ▸ hfiltered, silent_of_pushedOnce hpushed hstored hsilent⟩

end Sys2Proof.Machine

/-! # The system commands (R190 to R194) -/

namespace Sys2Proof.Machine

open Sys2Proof

/-! ## Turned away, faulted or run (R217, R221, R222, R223) -/

section Served

variable {i : Instr} {s : State}

theorem onlyAnswers_of_denied (hp : s.req.port = .P) (h : permittedOnPortP i = false) :
    onlyAnswers s (exec i s) .denied := by
  rw [exec_eq_serve, serve_denied hp h]
  exact onlyAnswers_deny s

theorem onlyAnswers_of_refused (hp : s.req.port = .C) (hf : s.faulted = true) (h : runsWhenFaulted i = false) :
    onlyAnswers s (exec i s) .refused := by
  rw [exec_eq_serve, serve_refused (.inl hp) hf h]
  exact onlyAnswers_refuse s

/-- R215(b): a command that executes in the faulted state and fails its checks there is answered, and no more. -/
theorem onlyAnswers_of_later_fault {c : Cause} (hp : s.req.port = .C) (hf : s.faulted = true)
    (h : runsWhenFaulted i = true) (hc : admission i s = some c) : onlyAnswers s (exec i s) .fault := by
  rw [exec_eq_serve, serve_raised (.inl hp) (.inr h) hc]
  exact onlyAnswers_raiseFault c hf

/-- R217, R221: a command that both rights allow, and that passes its checks, runs. -/
theorem exec_of_rights (hp : s.req.port = .C ∨ permittedOnPortP i = true)
    (hf : s.faulted = false ∨ runsWhenFaulted i = true) (hc : admission i s = none) :
    exec i s = .next (effect i s) := by
  rw [exec_eq_serve, serve_ran hp hf hc]

end Served

/-- R15: a response changes no element and nothing of the setting. -/
theorem respond_frame (s : State) (st : RespStatus) (q : Word) :
    answeredWith s (s.respond st q) { st := st, q := q } ∧ sameMachine s (s.respond st q) ∧
      sameSetting s (s.respond st q) :=
  ⟨answeredWith_respond s st q, by simp [sameMachine], by simp [sameSetting]⟩

/-! ## `NOP` (R190) -/

/-- Settles O22: `NOP` has no checks and executes in the faulted state, on port `C` only. -/
theorem nopResult : Obligations.NopResult := by
  refine ⟨by decide, fun s => ⟨fun hp => ?_, fun hp => onlyAnswers_of_denied hp rfl⟩⟩
  exact ⟨_, exec_of_rights (.inl hp) (.inr rfl) rfl, respond_frame s _ _⟩

/-! ## Addresses that a register command may not use (R218) -/

theorem addrMapped_eq_false_iff {a : Nat} : addrMapped a = false ↔ regAt a = none := by
  simp [addrMapped]

theorem addrWritable_eq_false_iff {a : Nat} :
    addrWritable a = false ↔ ∀ r, regAt a = some r → r.writable = false := by
  cases h : regAt a <;> simp [addrWritable, h]

theorem rdregCheck_badReg {a : Nat} (h : addrMapped a = false) (s : State) : rdregCheck a s = some .badReg := by
  simp [rdregCheck, firstFailing, h]

theorem wrregCheck_badReg {a : Nat} (h : addrWritable a = false) (s : State) : wrregCheck a s = some .badReg := by
  simp [wrregCheck, firstFailing, h]

/-! ## `RDREG` (R192) -/

/-- An element of a vector within its length, with any default. -/
theorem getD_of_lt {α : Type} {n i : Nat} (v : Vector α n) (h : i < n) (d : α) : v.getD i d = v[i] := by
  simp [getD_eq_option, h]

/-- R192: a mapped register is read on either port, faulted or not. -/
theorem exec_rdreg_of_regAt {s : State} {a : Nat} {r : Reg} (h : regAt a = some r) :
    exec (.rdreg a) s = .next (s.respond .ok (s.readReg r)) := by
  have ha : addrMapped a = true := by simp [addrMapped, h]
  have hrun : rdregRun a s = s.respond .ok (s.readReg r) := by simp [rdregRun, h]
  have hcheck : rdregCheck a s = none := rdregCheck_none.mpr ha
  exact (exec_of_rights (i := .rdreg a) (.inr ha) (.inr rfl) hcheck).trans (congrArg _ hrun)

theorem configWord_eq : Config.configWord = 0x0012840F#32 := by decide

/-- R30: the words of the registers that have an index, read from the element the index names. -/
theorem readReg_indexed (s : State) :
    (∀ (c : Nat) (h : c < 2), s.readReg (.toneState c) = s.filters.toneState[c]) ∧
    (∀ (b : Nat) (h : b < 15), s.readReg (.size b) = BitVec.ofNat 32 s.bufs[b].size ∧
      s.readReg (.cur b) = BitVec.ofNat 32 s.bufs[b].cur ∧
      s.readReg (.physCap b) = BitVec.ofNat 32 s.impl.physCap[b]) ∧
    (∀ (i : Nat) (h : i < 4), s.readReg (.apDelay i) = BitVec.ofNat 32 s.params.apDelay[i]) ∧
    (∀ (j : Nat) (h : j < 8), s.readReg (.combDelay j) = BitVec.ofNat 32 s.params.combDelay[j] ∧
      s.readReg (.combFb j) = s.params.combFb[j] ∧ s.readReg (.combDamp j) = s.params.combDamp[j] ∧
      s.readReg (.combLast j) = s.filters.combLast[j]) := by
  refine ⟨fun c h => getD_of_lt _ h _, fun b h => ⟨?_, ?_, ?_⟩, fun i h => ?_, fun j h => ⟨?_, ?_, ?_, ?_⟩⟩
  · exact congrArg (fun B => zext32 B.size) (getD_of_lt s.bufs h _)
  · exact congrArg (fun B => zext32 B.cur) (getD_of_lt s.bufs h _)
  · exact congrArg zext32 (getD_of_lt _ h _)
  · exact congrArg zext32 (getD_of_lt _ h _)
  · exact congrArg zext32 (getD_of_lt _ h _)
  all_goals exact getD_of_lt _ h _

/-- Settles O33: a mapped address is answered by its word, an unmapped one fails the check of R218. -/
theorem rdregResult : Obligations.RdregResult := by
  refine ⟨fun a ha => encodeA_word (by decide) ha, fun s => ?_, fun s a => ⟨fun r hr => ?_, fun hr hs => ?_,
    fun hr hp hf => ?_, fun hr hp => ?_⟩⟩
  · exact ⟨rfl, configWord_eq, rfl, rfl, rfl, rfl, rfl, rfl, rfl, rfl, rfl, rfl, rfl, rfl, rfl, readReg_indexed s⟩
  · exact ⟨_, exec_rdreg_of_regAt hr, respond_frame s _ _⟩
  · exact entersFault_of_admission hs (rdregCheck_badReg (addrMapped_eq_false_iff.mpr hr) s)
  · exact onlyAnswers_of_later_fault hp hf rfl (rdregCheck_badReg (addrMapped_eq_false_iff.mpr hr) s)
  · exact onlyAnswers_of_denied hp (addrMapped_eq_false_iff.mpr hr)

/-! ## `WRREG` (R193) -/

/-- A vector read beside the element that was written. -/
theorem getD_setIfInBounds_ne {α : Type} {n i j : Nat} (v : Vector α n) (h : j ≠ i) (x d : α) :
    (v.setIfInBounds i x).getD j d = v.getD j d := by
  rw [getD_setIfInBounds, if_neg fun hij => h hij.1.symm]

/-- R193: a register write is seen through no other register. -/
theorem State.readReg_writeReg_ne (s : State) {r r' : Reg} (h : r' ≠ r) (w : Word) :
    (s.writeReg r w).readReg r' = s.readReg r' := by
  cases r with
  | apDelay i =>
    cases r' with
    | apDelay i' => exact congrArg zext32 (getD_setIfInBounds_ne _ (ne_of_apply_ne _ h) _ _)
    | _ => rfl
  | combDelay j =>
    cases r' with
    | combDelay j' => exact congrArg zext32 (getD_setIfInBounds_ne _ (ne_of_apply_ne _ h) _ _)
    | _ => rfl
  | combFb j =>
    cases r' with
    | combFb j' => exact getD_setIfInBounds_ne _ (ne_of_apply_ne _ h) _ _
    | _ => rfl
  | combDamp j =>
    cases r' with
    | combDamp j' => exact getD_setIfInBounds_ne _ (ne_of_apply_ne _ h) _ _
    | _ => rfl
  | tapeBase => cases r' with | tapeBase => exact absurd rfl h | _ => rfl
  | flutDepth => cases r' with | flutDepth => exact absurd rfl h | _ => rfl
  | flutInc => cases r' with | flutInc => exact absurd rfl h | _ => rfl
  | tapeTone => cases r' with | tapeTone => exact absurd rfl h | _ => rfl
  | tapeFb => cases r' with | tapeFb => exact absurd rfl h | _ => rfl
  | tapeDrive => cases r' with | tapeDrive => exact absurd rfl h | _ => rfl
  | _ => rfl

/-- Settles O34: two addresses name two registers, so the write is read back at its own address alone; an address that
names no `RW` register fails the check of R218. -/
theorem wrregResult : Obligations.WrregResult := by
  refine ⟨fun a ha => encodeA_word (by decide) ha,
    fun s a => ⟨fun r hr hw hf => ?_, fun hro hs => ?_, fun hro hp => ?_⟩⟩
  · have hself := s.readReg_writeReg_self (regAt_some hr).1 hw s.dataWord
    have hother : ∀ a' r', a' ≠ a → regAt a' = some r' → r' ≠ r := by
      rintro a' _ ha hr' rfl
      exact ha (noRegisterIsAliased a' a _ hr' hr)
    exact ⟨_, exec_wrreg_of_writable hr hw hf, (State.readReg_respond _ _ _ _).trans hself,
      fun a' r' ha hr' => (State.readReg_respond _ _ _ _).trans (s.readReg_writeReg_ne (hother a' r' ha hr') _),
      by simp, by simp, by simp, ⟨by simp, answeredWith_respond_of_same rfl rfl rfl _ _⟩, by simp [sameSetting]⟩
  · exact entersFault_of_admission hs (wrregCheck_badReg (addrWritable_eq_false_iff.mpr hro) s)
  · exact onlyAnswers_of_denied hp (addrWritable_eq_false_iff.mpr hro)

/-! ## `SRESET` (R52, R194) -/

theorem mem_plateBuffers {b : Nat} : b ∈ plateBuffers ↔ b < 13 := List.mem_range

theorem mem_tapeBuffers {b : Nat} (hb : b < 15) : b ∈ tapeBuffers ↔ 13 ≤ b := by
  have h : tapeBuffers = [13, 14] := rfl
  simp only [h, List.mem_cons, List.not_mem_nil, or_false]
  omega

theorem resetPlate_buf (s : State) (b : Nat) :
    (resetPlate s).buf b = if b < 13 then (s.buf b).clear else s.buf b := by
  rw [State.buf_congr (s := s.clearBuffers plateBuffers) (t := resetPlate s) rfl,
    State.buf_clearBuffers s _ (by decide)]
  simp only [mem_plateBuffers]

theorem resetTape_buf (s : State) {b : Nat} (hb : b < 15) :
    (resetTape s).buf b = if 13 ≤ b then (s.buf b).clear else s.buf b := by
  rw [State.buf_congr (s := s.clearBuffers tapeBuffers) (t := resetTape s) rfl,
    State.buf_clearBuffers s _ (by decide)]
  simp only [mem_tapeBuffers hb]

/-- R194: a buffer is cleared where its group is selected, and is as it was elsewhere. -/
theorem resetGroups_buf_eq (m : Nat) (s : State) {b : Nat} (hb : b < 15) :
    (resetGroups m s).buf b =
      if (b < 13 ∧ m.testBit 0 = true) ∨ (13 ≤ b ∧ m.testBit 1 = true) then (s.buf b).clear else s.buf b := by
  unfold resetGroups maskPlate maskTape
  cases m.testBit 0 <;> cases m.testBit 1
  · simp
  · simp [resetTape_buf _ hb]
  · simp [resetPlate_buf]
  · obtain h | h := Nat.lt_or_ge b 13
    · simp [resetTape_buf _ hb, resetPlate_buf, h]
    · simp [resetTape_buf _ hb, resetPlate_buf, h, Nat.not_lt.mpr h]

/-- R194: the filter state of each group, by the mask's bit. -/
theorem resetGroups_filters (m : Nat) (s : State) :
    (resetGroups m s).filters =
      { combLast := if m.testBit 0 = true then Vector.replicate 8 F32.zero else s.filters.combLast
        toneState := if m.testBit 1 = true then Vector.replicate 2 F32.zero else s.filters.toneState
        flutPhase := if m.testBit 1 = true then F32.zero else s.filters.flutPhase
        modDly := if m.testBit 1 = true then F32.zero else s.filters.modDly } := by
  have hplate : ∀ t, (resetPlate t).filters = { t.filters with combLast := Vector.replicate 8 F32.zero } := by
    intro t
    obtain ⟨_, h⟩ := resetPlate_frame t
    rw [h]
  have htape : ∀ t, (resetTape t).filters =
      { t.filters with toneState := Vector.replicate 2 F32.zero, flutPhase := F32.zero, modDly := F32.zero } := by
    intro t
    obtain ⟨_, h⟩ := resetTape_frame t
    rw [h]
  unfold resetGroups maskPlate maskTape
  cases m.testBit 0 <;> cases m.testBit 1 <;> simp [hplate, htape]

theorem combLast_resetGroups (m : Nat) (s : State) {j : Nat} (hj : j < 8) :
    (resetGroups m s).combLast j = if m.testBit 0 = true then F32.zero else s.combLast j := by
  rw [State.combLast, resetGroups_filters]
  cases m.testBit 0
  · rfl
  · exact (getD_replicate ..).trans (if_pos hj)

theorem toneState_resetGroups (m : Nat) (s : State) {c : Nat} (hc : c < 2) :
    (resetGroups m s).toneState c = if m.testBit 1 = true then F32.zero else s.toneState c := by
  rw [State.toneState, resetGroups_filters]
  cases m.testBit 1
  · rfl
  · exact (getD_replicate ..).trans (if_pos hc)

/-- R52, R194: what `SRESET` keeps. -/
theorem resetGroups_complete_frame (m : Nat) (s : State) :
    (resetGroups m s).complete.params = s.params ∧ (resetGroups m s).complete.record = s.record ∧
      completed s (resetGroups m s).complete ∧ sameSetting s (resetGroups m s).complete := by
  obtain ⟨_, _, h, -⟩ := resetGroups_frame m s
  rw [h]
  exact ⟨by simp, by simp, ⟨by simp, answeredWith_respond_of_same rfl rfl rfl _ _⟩, by simp [sameSetting]⟩

/-- R126: the cells of a buffer that was cleared. -/
theorem cell_of_buf_clear {s t : State} {b : Nat} (h : t.buf b = (s.buf b).clear) (k : Nat) :
    t.cell b k = if k < (s.buf b).size then unlistedSample else s.cell b k := by
  simp [State.cell, h, Mem.read_clearBelow]

/-- Settles O35: `SRESET` has no checks of its own, and its pseudocode clears group by group. -/
theorem sresetResult : Obligations.SresetResult := by
  refine ⟨fun m hm => encodeM_word (by decide) hm, fun s m => ⟨fun hp => onlyAnswers_of_denied hp rfl,
    fun hp hf => onlyAnswers_of_refused hp hf rfl, fun hs => ?_⟩⟩
  have hfilters : (resetGroups m s).complete.filters = _ := (State.complete_filters _).trans (resetGroups_filters m s)
  refine ⟨_, exec_of_admission hs rfl, fun b hb => ?_, fun j hj => ?_, fun c hc => ?_,
    congrArg Filters.flutPhase hfilters, congrArg Filters.modDly hfilters, resetGroups_complete_frame m s⟩
  · have hbuf : (resetGroups m s).complete.buf b = _ :=
      (State.buf_congr (State.complete_bufs _) b).trans (resetGroups_buf_eq m s hb)
    split
    · next hsel =>
      rw [if_pos hsel] at hbuf
      exact ⟨(congrArg Buffer.size hbuf).trans (Buffer.clear_size _), congrArg Buffer.cur hbuf,
        cell_of_buf_clear hbuf⟩
    · next hsel =>
      rw [if_neg hsel] at hbuf
      exact ⟨congrArg Buffer.size hbuf, hbuf⟩
  · exact (State.readReg_respond _ _ _ (.combLast j)).trans (combLast_resetGroups m s hj)
  · exact (State.readReg_respond _ _ _ (.toneState c)).trans (toneState_resetGroups m s hc)

end Sys2Proof.Machine

/-! # Faults, the faulted state and denial: what each request is answered (R211, R215 to R217, R222 to R226, R259) -/

namespace Sys2Proof.Machine

open Sys2Proof

/-! ## Responses and rights -/

/-- R15: a step gives a request one response, so two accounts of it name the same. -/
theorem response_unique {s t : State} {r r' : Response} (h : answeredWith s t r) (h' : answeredWith s t r') :
    r = r' := by
  have hanswered := congrArg PortQueue.answered (h.1.symm.trans h'.1)
  simpa [PortQueue.answer] using hanswered

/-- R80: a command that passes its checks writes its elements, and then answers `(0, Q)` where the request came from. -/
theorem effect_responds_ok {i : Instr} {s : State} (h : admission i s = none) :
    ∃ (u : State) (q : Word), effect i s = u.respond .ok q ∧ u.portC = s.portC ∧ u.portP = s.portP ∧ u.req = s.req := by
  cases i with
  | nop | setsize | write | read | readi | clear | apf | comb | flut | tape | sat => exact ⟨_, _, rfl, rfl, rfl, rfl⟩
  | rdreg a =>
    obtain ⟨r, hr⟩ := Option.isSome_iff_exists.mp ((rdregCheck_none (s := s)).mp h)
    exact ⟨s, s.readReg r, by simp [effect, rdregRun, hr], rfl, rfl, rfl⟩
  | wrreg a =>
    obtain ⟨r, hr, -⟩ := (Option.any_eq_true _ _).mp ((wrregCheck_none (s := s)).mp h)
    exact ⟨s.writeReg r s.dataWord, 0#32, wrregRun_of_regAt hr s, rfl, rfl, rfl⟩
  | sreset m => exact ⟨resetGroups m s, 0#32, rfl, resetGroups_ports m s⟩

theorem effect_answers_ok {i : Instr} {s : State} (h : admission i s = none) :
    ∃ q, answeredWith s (effect i s) { st := .ok, q := q } := by
  obtain ⟨u, q, he, hC, hP, hreq⟩ := effect_responds_ok h
  rw [he]
  exact ⟨q, answeredWith_respond_of_same hC hP hreq _ _⟩

theorem effect_sameSetting {i : Instr} {s : State} (h : admission i s = none) : sameSetting s (effect i s) := by
  obtain ⟨hsched, hreset⟩ := effect_setting i s
  obtain ⟨u, q, he, -, -, hreq⟩ := effect_responds_ok h
  refine ⟨(effect_impl_record i s).1, ?_, hsched, hreset⟩
  rw [he, State.respond_req, hreq]

/-- R221, R223: what port `P` is permitted has passed its checks, so a request that fails one came on port `C`. -/
theorem portC_of_failed_check {i : Instr} {s : State} {c : Cause}
    (hp : ¬(s.req.port = .P ∧ permittedOnPortP i = false)) (hc : admission i s = some c) : s.req.port = .C := by
  cases hport : s.req.port with
  | C => rfl
  | P =>
    have hi : permittedOnPortP i = true := Bool.of_not_eq_false fun hi => hp ⟨hport, hi⟩
    rw [(permittedOnPortP_cases hi s).1] at hc
    cases hc

/-- R223: everything that executing the latched request can do, whatever its word. -/
theorem execRequest_cases {s t : State} (h : execRequest s = .next t) :
    (s.req.port = .P ∧ t = deny s) ∨ (s.faulted = true ∧ t = refuse s) ∨
      (s.req.port = .C ∧ ∃ c, t = raiseFault c s) ∨
      ∃ i, (s.faulted = true → runsWhenFaulted i = true) ∧ admission i s = none ∧ t = effect i s := by
  cases hd : decode s.req.word with
  | ok i =>
    rw [execRequest_of_decode hd, exec_eq_serve] at h
    cases h
    obtain ⟨hp, -, e⟩ | ⟨-, hf, -, e⟩ | ⟨hp, -, c, hc, e⟩ | ⟨-, hgate, hc, e⟩ :=
      serve_cases (permittedOnPortP i) (runsWhenFaulted i) (admission i) (effect i) s
    · exact .inl ⟨hp, e⟩
    · exact .inr (.inl ⟨hf, e⟩)
    · exact .inr (.inr (.inl ⟨portC_of_failed_check hp hc, c, e⟩))
    · exact .inr (.inr (.inr ⟨i, fun hf => Bool.of_not_eq_false fun hw => hgate ⟨hf, hw⟩, hc, e⟩))
  | error e =>
    rw [execRequest_of_illegal hd, illegalCommand] at h
    cases h
    obtain ⟨hp, -, e⟩ | ⟨-, hf, -, e⟩ | ⟨hp, -, c, -, e⟩ | ⟨-, -, hc, -⟩ :=
      serve_cases false false (fun _ => some .illegalCmd) (fun t => t) s
    · exact .inl ⟨hp, e⟩
    · exact .inr (.inl ⟨hf, e⟩)
    · refine .inr (.inr (.inl ⟨?_, c, e⟩))
      cases hport : s.req.port with
      | C => rfl
      | P => exact absurd ⟨hport, rfl⟩ hp
    · cases hc

/-! ## The faulted state (R215, R217, R259) -/

theorem State.faulted_congr {s t : State} (h : t.record = s.record) : t.faulted = s.faulted := by
  rw [State.faulted, State.faulted, h]

/-- R33, R210: every cause's word has `STATUS.FAULT` set. -/
theorem Cause.statusWord_fault (c : Cause) : c.statusWord.getLsbD 0 = true := by
  cases c <;> decide

/-- R215: after a fault, the first or a later one, the unit is faulted. -/
theorem raiseFault_faulted (c : Cause) (s : State) : (raiseFault c s).faulted = true := by
  cases hf : s.faulted with
  | true => rw [raiseFault, State.faulted_respond, State.recordFault_of_faulted c hf, hf]
  | false =>
    rw [State.faulted, raiseFault_record, State.recordFault_record_of_clear c hf]
    exact c.statusWord_fault

/-- R217: of the two commands that execute in the faulted state, neither writes an element. -/
theorem effect_frozen {i : Instr} (h : runsWhenFaulted i = true) (s : State) :
    sameElements s (effect i s) ∧ (effect i s).record = s.record := by
  cases i with
  | nop => simp [effect, sameElements]
  | rdreg a => exact rdregRun_frame a s
  | _ => cases h

/-- R217: whatever a request in the faulted state is answered, it changes no element. -/
theorem execRequest_frozen {s t : State} (hf : s.faulted = true) (h : execRequest s = .next t) :
    sameElements s t ∧ t.record = s.record := by
  obtain ⟨-, rfl⟩ | ⟨-, rfl⟩ | ⟨-, c, rfl⟩ | ⟨i, hi, -, rfl⟩ := execRequest_cases h
  · simp [sameElements]
  · simp [sameElements]
  · simp [sameElements, State.recordFault_of_faulted c hf]
  · exact effect_frozen (hi hf) s

/-- Settles O14: a faulted unit stays idle, or takes a request, which changes no element. -/
theorem faultedStateIsFrozen : Obligations.FaultedStateIsFrozen := by
  intro s t hf hr h
  cases hg : s.grant with
  | none =>
    rw [step_of_idle hr hg] at h
    cases h
    exact ⟨rfl, rfl, rfl, rfl, rfl⟩
  | some p =>
    rw [step_of_grant hr hg] at h
    obtain ⟨_, _, _, _, _, htake⟩ := s.take_frame p
    have hframe := execRequest_frozen (s := s.take p) (by rw [htake]; exact hf) h
    rw [htake] at hframe
    obtain ⟨⟨-, hbufs, hparams, hfilters, hdout⟩, hrecord⟩ := hframe
    exact ⟨hbufs, hparams, hfilters, hdout, hrecord⟩

/-! ## Precise faults (R215) -/

/-- R215, R223: only fault entry answers `FAULT`. -/
theorem raised_of_answered_fault {s t : State} {q : Word} (h : execRequest s = .next t)
    (ha : answeredWith s t { st := .fault, q := q }) : ∃ c, t = raiseFault c s := by
  obtain ⟨-, rfl⟩ | ⟨-, rfl⟩ | ⟨-, hraised⟩ | ⟨i, -, hadm, rfl⟩ := execRequest_cases h
  · cases response_unique ha (answeredWith_respond s _ _)
  · cases response_unique ha (answeredWith_respond s _ _)
  · exact hraised
  · obtain ⟨q', hok⟩ := effect_answers_ok hadm
    cases response_unique ha hok

theorem raiseFault_answeredWith (c : Cause) (s : State) :
    answeredWith s (raiseFault c s) { st := .fault, q := 0#32 } :=
  answeredWith_respond_of_same (s.recordFault_portC c) (s.recordFault_portP c) (s.recordFault_req c) _ _

/-- Settles O13: a request answered `FAULT` did nothing but enter the fault. -/
theorem faultsArePrecise : Obligations.FaultsArePrecise := by
  intro s t q h ha
  obtain ⟨c, rfl⟩ := raised_of_answered_fault h ha
  have hresponse := response_unique ha (raiseFault_answeredWith c s)
  refine ⟨congrArg Response.q hresponse, raiseFault_bufs .., raiseFault_params .., raiseFault_filters ..,
    raiseFault_dout .., raiseFault_draws .., by simp [sameSetting], fun hf => ?_, fun hf => ?_⟩
  · rw [raiseFault_record, State.recordFault_of_faulted c hf]
  · exact ⟨raiseFault_faulted c s, c, by rw [raiseFault_record, State.recordFault_record_of_clear c hf]⟩

/-! ## Good runs (R216) -/

/-- The responses given between `s` and `t` tell whether `t` is faulted: each port's follow those it had, and `t` is not
faulted exactly if `s` is not and they are all good. -/
def accounted (s t : State) : Prop :=
  ∃ given : Port → List Response, (∀ p, (t.queue p).answered = (s.queue p).answered ++ given p) ∧
    (t.faulted = false ↔ s.faulted = false ∧ ∀ p, (given p).all (goodResponse p) = true)

/-- No response and the same fault record: nothing to account for. -/
theorem accounted_of_silent {s t : State} (ha : ∀ p, (t.queue p).answered = (s.queue p).answered)
    (hr : t.record = s.record) : accounted s t :=
  ⟨fun _ => [], fun p => by rw [ha p, List.append_nil], by simp [State.faulted_congr hr]⟩

theorem accounted_trans {s t u : State} (hst : accounted s t) (htu : accounted t u) : accounted s u := by
  obtain ⟨given, hgiven, hst⟩ := hst
  obtain ⟨later, hlater, htu⟩ := htu
  refine ⟨fun p => given p ++ later p, fun p => by rw [hlater p, hgiven p, List.append_assoc], ?_⟩
  rw [htu, hst, and_assoc, ← forall_and]
  simp only [List.all_append, Bool.and_eq_true]

/-- One response is an account of a request where it is good exactly if the unit comes out of the request unfaulted. -/
theorem accounted_of_answeredWith {s t : State} {r : Response} (ha : answeredWith s t r)
    (hr : t.faulted = false ↔ s.faulted = false ∧ goodResponse s.req.port r = true) : accounted s t := by
  obtain ⟨hself, hother⟩ := ha
  refine ⟨fun p => if p = s.req.port then [r] else [], fun p => ?_, hr.trans (and_congr_right fun _ => ?_)⟩
  · by_cases hp : p = s.req.port
    · simp [hp, hself, PortQueue.answer]
    · simp [hp, hother p hp]
  · constructor
    · intro hgood p
      by_cases hp : p = s.req.port
      · simp [hp, hgood]
      · simp [hp]
    · intro hall
      simpa using hall s.req.port

/-- R216: a denial is on port `P` and no fault, a refusal tells of an earlier fault, a fault is answered on port `C`,
and a command that runs is answered `OK` and enters no fault. -/
theorem execRequest_accounted {s t : State} (h : execRequest s = .next t) : accounted s t := by
  obtain ⟨hp, rfl⟩ | ⟨hf, rfl⟩ | ⟨hp, c, rfl⟩ | ⟨i, -, hadm, rfl⟩ := execRequest_cases h
  · have hf : (deny s).faulted = s.faulted := State.faulted_congr (deny_record s)
    exact accounted_of_answeredWith (answeredWith_respond s _ _) (by simp [hf, hp, goodResponse])
  · have hf' : (refuse s).faulted = true := (State.faulted_congr (refuse_record s)).trans hf
    exact accounted_of_answeredWith (answeredWith_respond s _ _) (by simp [hf, hf'])
  · exact accounted_of_answeredWith (raiseFault_answeredWith c s) (by simp [raiseFault_faulted, hp, goodResponse])
  · obtain ⟨q, hok⟩ := effect_answers_ok hadm
    have hf : (effect i s).faulted = s.faulted := State.faulted_congr (effect_impl_record i s).2
    have hgood : goodResponse s.req.port { st := .ok, q := q } = true := by cases s.req.port <;> rfl
    exact accounted_of_answeredWith hok (by simp [hf, hgood])

/-- Taking a request answers nothing. -/
theorem State.take_answered {s : State} {p : Port} (h : s.grant = some p) (p' : Port) :
    ((s.take p).queue p').answered = (s.queue p').answered := by
  obtain ⟨r, rest, hpend⟩ := State.pending_of_grant h
  obtain ⟨-, hself, hother⟩ := State.take_request hpend
  by_cases hp : p' = p
  · rw [hp, hself]
  · rw [hother p' hp]

/-- R216: one step without a reset. -/
theorem step_accounted {s t : State} (hr : s.resetLine = false) (h : step s = .next t) :
    accounted s t ∧ t.resetLine = false := by
  cases hg : s.grant with
  | none =>
    rw [step_of_idle hr hg] at h
    cases h
    exact ⟨accounted_of_silent (fun _ => rfl) rfl, hr⟩
  | some p =>
    rw [step_of_grant hr hg] at h
    obtain ⟨_, _, _, _, _, htake⟩ := s.take_frame p
    have htaken : accounted s (s.take p) := accounted_of_silent (State.take_answered hg) (by rw [htake])
    refine ⟨accounted_trans htaken (execRequest_accounted h), ?_⟩
    rw [(execRequest_setting h).2, htake]
    exact hr

/-- R216: any number of steps without a reset. -/
theorem run_accounted (n : Nat) {s t : State} (hr : s.resetLine = false) (h : Sys2Proof.core.run n s = .next t) :
    accounted s t := by
  induction n generalizing s with
  | zero =>
    cases h
    exact accounted_of_silent (fun _ => rfl) rfl
  | succ n ih =>
    obtain ⟨u, hu⟩ := (stepAlwaysNext s).1
    obtain ⟨hsu, hreset⟩ := step_accounted hr hu
    rw [run_succ_of_step Sys2Proof.core hu] at h
    exact accounted_trans hsu (ih hreset h)

/-- The responses that a run gave are those after the earlier ones. -/
theorem State.allGoodSince_iff {s t : State} {given : Port → List Response}
    (h : ∀ p, (t.queue p).answered = (s.queue p).answered ++ given p) :
    t.allGoodSince s.portC.answered.length s.portP.answered.length = true ↔
      ∀ p, (given p).all (goodResponse p) = true := by
  have hC : t.portC.answered = s.portC.answered ++ given .C := h .C
  have hP : t.portP.answered = s.portP.answered ++ given .P := h .P
  rw [State.allGoodSince, hC, hP, List.drop_left, List.drop_left, Bool.and_eq_true]
  constructor
  · rintro ⟨hgoodC, hgoodP⟩ p
    cases p with
    | C => exact hgoodC
    | P => exact hgoodP
  · exact fun hall => ⟨hall .C, hall .P⟩

/-- Settles O17: each step accounts for its response, and so does the run, by induction on its length. -/
theorem runIsGoodIffNotFaulted : Obligations.RunIsGoodIffNotFaulted := by
  intro n s t hf hr h
  obtain ⟨given, hgiven, hiff⟩ := run_accounted n hr h
  rw [State.allGoodSince_iff hgiven, hiff]
  exact and_iff_right hf

/-! ## The order of the sequencer (R223, R224) -/

/-- Settles O10: each clause is one of the four ways of serving a request. -/
theorem sequencerOrder : Obligations.SequencerOrder := by
  intro s i
  refine ⟨onlyAnswers_of_denied, fun hp hf hi => ?_, fun hp hf c hc => ?_, fun hp hf hc => ?_⟩
  · rw [exec_eq_serve, serve_refused hp hf hi]
    exact onlyAnswers_refuse s
  · rw [firstFailure_eq] at hc
    rw [exec_eq_serve, serve_raised hp (.inl hf) hc]
    exact entersFault_raiseFault c hf
  · rw [firstFailure_eq] at hc
    obtain ⟨q, hok⟩ := effect_answers_ok hc
    exact ⟨_, q, exec_of_rights hp hf hc, hok, (effect_impl_record i s).2, effect_sameSetting hc⟩

/-- Settles O11: an illegal word has no right on port `P` or in the faulted state, and its check always fails. -/
theorem illegalWordAnswer : Obligations.IllegalWordAnswer := by
  intro s e he
  rw [execRequest_of_illegal he, illegalCommand]
  refine ⟨fun ⟨hp, hf⟩ => ?_, fun hp hf => ?_, fun hp => ?_⟩
  · rw [serve_raised (.inl hp) (.inl hf) rfl]
    exact entersFault_raiseFault .illegalCmd hf
  · rw [serve_refused (.inl hp) hf rfl]
    exact onlyAnswers_refuse s
  · rw [serve_denied hp rfl]
    exact onlyAnswers_deny s

/-! ## Register accesses and all else, by port (R217, R221, R222, R226) -/

theorem runsWhenFaulted_eq_false {i : Instr} (hnop : i ≠ .nop) (hrdreg : ∀ a, i ≠ .rdreg a) :
    runsWhenFaulted i = false := by
  cases i with
  | nop => exact absurd rfl hnop
  | rdreg a => exact absurd rfl (hrdreg a)
  | _ => rfl

theorem permittedOnPortP_eq_false {i : Instr} (hrdreg : ∀ a, i ≠ .rdreg a) (hwrreg : ∀ a, i ≠ .wrreg a) :
    permittedOnPortP i = false := by
  cases i with
  | rdreg a => exact absurd rfl (hrdreg a)
  | wrreg a => exact absurd rfl (hwrreg a)
  | _ => rfl

section Requests

variable {s : State} {i : Instr} {a : Nat} {r : Reg}

/-- R222: on port `P` a command that is not permitted is denied, faulted or not. -/
theorem execRequest_denied (hd : decode s.req.word = .ok i) (hp : s.req.port = .P) (hi : permittedOnPortP i = false) :
    onlyAnswers s (execRequest s) .denied := by
  rw [execRequest_of_decode hd]
  exact onlyAnswers_of_denied hp hi

/-- R192, R217, R221: a mapped register is read on either port, faulted or not. -/
theorem execRequest_rdreg (hd : decode s.req.word = .ok (.rdreg a)) (hr : regAt a = some r) :
    ∃ t, execRequest s = .next t ∧ sameMachine s t ∧ answeredWith s t { st := .ok, q := s.readReg r } := by
  obtain ⟨hans, hsame, -⟩ := respond_frame s .ok (s.readReg r)
  exact ⟨_, (execRequest_of_decode hd).trans (exec_rdreg_of_regAt hr), hsame, hans⟩

/-- R217: a permitted register write does not execute in the faulted state, on port `P` neither. -/
theorem execRequest_wrreg_refused (hd : decode s.req.word = .ok (.wrreg a)) (hr : regAt a = some r)
    (hw : r.writable = true) (hf : s.faulted = true) : onlyAnswers s (execRequest s) .refused := by
  have ha : permittedOnPortP (.wrreg a) = true := by simp [permittedOnPortP, addrWritable, hr, hw]
  obtain ⟨-, hrefused, -⟩ := sequencerOrder s (.wrreg a)
  rw [execRequest_of_decode hd]
  exact hrefused (.inr ha) hf rfl

/-- R190: `NOP` on port `C` answers `(0, 0)` and no more, faulted or not. -/
theorem execRequest_nop (hd : decode s.req.word = .ok .nop) (hp : s.req.port = .C) :
    onlyAnswers s (execRequest s) .ok := by
  obtain ⟨hans, hsame, hsetting⟩ := respond_frame s .ok 0#32
  exact ⟨_, (execRequest_of_decode hd).trans (exec_of_rights (.inl hp) (.inr rfl) rfl), hsame, hsetting, hans⟩

/-- R218, R215: an unmapped register read on port `C` is a fault in either state; a later one is only answered. -/
theorem execRequest_rdreg_unmapped (hd : decode s.req.word = .ok (.rdreg a)) (hp : s.req.port = .C)
    (hr : regAt a = none) :
    (s.faulted = false → entersFault s (execRequest s) .badReg) ∧
      (s.faulted = true → onlyAnswers s (execRequest s) .fault) := by
  have hcheck := rdregCheck_badReg (addrMapped_eq_false_iff.mpr hr) s
  rw [execRequest_of_decode hd]
  exact ⟨fun hf => entersFault_of_admission ⟨hp, hf⟩ hcheck, fun hf => onlyAnswers_of_later_fault hp hf rfl hcheck⟩

end Requests

/-- R226, port `C`: a command that has no right in the faulted state is refused there; elsewhere its checks decide. -/
theorem execRequest_on_portC {s : State} {i : Instr} (hd : decode s.req.word = .ok i) (hp : s.req.port = .C)
    (hi : runsWhenFaulted i = false) :
    (s.faulted = true → onlyAnswers s (execRequest s) .refused) ∧
      (s.faulted = false → ∀ c, firstFailure i s = some c → entersFault s (execRequest s) c) ∧
      (s.faulted = false → firstFailure i s = none →
        ∃ t q, execRequest s = .next t ∧ answeredWith s t { st := .ok, q := q } ∧ execRequest s = exec i s) := by
  obtain ⟨-, hrefused, hfault, hok⟩ := sequencerOrder s i
  rw [execRequest_of_decode hd]
  refine ⟨fun hf => hrefused (.inl hp) hf hi, hfault (.inl hp), fun hf hc => ?_⟩
  obtain ⟨t, q, hexec, hans, -⟩ := hok (.inl hp) (.inl hf) hc
  exact ⟨t, q, hexec, hans, rfl⟩

/-- Settles O15: port `P` is permitted the two register commands alone, each where its address allows it. -/
theorem denialOnPortP : Obligations.DenialOnPortP := by
  intro s hp
  refine ⟨fun e he => ?_, fun i hd hrdreg hwrreg => ?_, fun a hd hr => ?_, fun a hd hr => ?_,
    fun a r hd hr hw hf => execRequest_wrreg_refused hd hr hw hf, fun a r hd hr => execRequest_rdreg hd hr⟩
  · obtain ⟨-, -, hdenied⟩ := illegalWordAnswer s e he
    exact hdenied hp
  · exact execRequest_denied hd hp (permittedOnPortP_eq_false hrdreg hwrreg)
  · exact execRequest_denied hd hp (addrMapped_eq_false_iff.mpr hr)
  · exact execRequest_denied hd hp (addrWritable_eq_false_iff.mpr hr)

/-- Settles O12: the rows of R226's table, on port `C`, on port `P` and for an illegal word. -/
theorem responseSummary : Obligations.ResponseSummary := by
  intro s
  refine ⟨fun i hd hp => ⟨?_, ?_, ?_, ?_⟩, fun i hd hp => ⟨?_, ?_, ?_⟩, fun e he => ?_⟩
  · rintro rfl
    exact execRequest_nop hd hp
  · rintro a r rfl hr
    exact execRequest_rdreg hd hr
  · rintro a rfl hr
    exact execRequest_rdreg_unmapped hd hp hr
  · intro hnop hrdreg
    exact execRequest_on_portC hd hp (runsWhenFaulted_eq_false hnop hrdreg)
  · rintro a r rfl hr
    exact execRequest_rdreg hd hr
  · rintro a r rfl hr hw
    refine ⟨execRequest_wrreg_refused hd hr hw, fun hf => ?_⟩
    have hexec := execRequest_of_decode hd
    exact ⟨_, hexec.trans (exec_wrreg_of_writable hr hw hf),
      ⟨by simp, answeredWith_respond_of_same rfl rfl rfl _ _⟩, hexec⟩
  · exact execRequest_denied hd hp
  · obtain ⟨hraised, hrefused, hdenied⟩ := illegalWordAnswer s e he
    exact ⟨fun hp hf => hraised ⟨hp, hf⟩, hrefused, hdenied⟩

end Sys2Proof.Machine

/-! # Hardware reset, and what nothing else can do (R240) -/

namespace Sys2Proof.Machine

open Sys2Proof

/-! ## The state after a reset -/

/-- R240: on each port the requests not yet answered are dropped, and the responses already given stay. -/
theorem queue_hardwareReset (s : State) (p : Port) : (hardwareReset s).queue p = (s.queue p).dropPending := by
  cases p with
  | C => rfl
  | P => rfl

/-- R50: the fault record has its reset value, so a reset state is not faulted. -/
theorem faulted_hardwareReset (s : State) : (hardwareReset s).faulted = false := by
  have hreset : State.reset.faulted = false := by decide
  exact (State.faulted_congr rfl).trans hreset

/-! `hardwareReset` in `Sys2Proof.Machine` is the model's function; the theorem of that name stands one namespace deeper. -/

namespace Reset

/-- Settles O19: every element comes from the reset state, the implementation and the ports from `s`. -/
theorem hardwareReset : Obligations.HardwareReset := by
  intro s hr
  refine ⟨_, step_of_resetLine hr, rfl, rfl, rfl, rfl, rfl, faulted_hardwareReset s, rfl, fun p => ?_⟩
  rw [queue_hardwareReset]
  exact ⟨rfl, rfl⟩

end Reset

/-! ## A buffer once sized stays sized -/

/-- R120, R122, R126, R240: whatever a command does to a sized buffer, the buffer stays sized: SETSIZE takes no size of 0,
and the others keep the size. -/
theorem bufferOutcome_sized {i : Instr} {s : State} {b : Nat} {B : Buffer} (h : bufferOutcome i s b B)
    (hs : (s.buf b).size ≠ 0) : B.size ≠ 0 := by
  obtain rfl | ⟨-, v, rfl⟩ | rfl | ⟨n, -, hn, -, rfl⟩ := h
  · exact hs
  · rwa [Buffer.push_size]
  · rwa [Buffer.clear_size]
  · rwa [Buffer.resize_size]

/-- R240: a request that is denied, refused or taken as a fault writes no buffer, and one that runs unsizes none. -/
theorem execRequest_keeps_sized {s t : State} (h : execRequest s = .next t) {b : Nat} (hs : (s.buf b).size ≠ 0) :
    (t.buf b).size ≠ 0 := by
  obtain ⟨-, rfl⟩ | ⟨-, rfl⟩ | ⟨-, c, rfl⟩ | ⟨i, -, hadm, rfl⟩ := execRequest_cases h
  · rwa [State.buf_congr (deny_bufs s)]
  · rwa [State.buf_congr (refuse_bufs s)]
  · rwa [State.buf_congr (raiseFault_bufs s c)]
  · exact bufferOutcome_sized (effect_buf hadm b) hs

/-- R240: without a reset a step is idle, or takes a request, which moves no buffer, and executes it. -/
theorem step_keeps_sized {s t : State} (hr : s.resetLine = false) (h : step s = .next t) {b : Nat}
    (hs : (s.buf b).size ≠ 0) : (t.buf b).size ≠ 0 := by
  cases hg : s.grant with
  | none =>
    rw [step_of_idle hr hg] at h
    cases h
    exact hs
  | some p =>
    rw [step_of_grant hr hg] at h
    obtain ⟨_, _, _, _, _, htake⟩ := s.take_frame p
    have hbufs : (s.take p).bufs = s.bufs := by rw [htake]
    exact execRequest_keeps_sized h (by rwa [State.buf_congr hbufs])

/-- Settles O20: in the faulted state no step changes the fault record (R217), and no step unsizes a buffer. -/
theorem onlyResetUnfaultsAndUnsizes : Obligations.OnlyResetUnfaultsAndUnsizes := by
  intro s t hr h
  refine ⟨fun hf => ?_, fun b hs => step_keeps_sized hr h hs⟩
  obtain ⟨-, -, -, -, hrecord⟩ := faultedStateIsFrozen s t hf hr h
  rw [State.faulted_congr hrecord]
  exact hf

end Sys2Proof.Machine
